-- ==== Sys2Proof/Machine/Literals.lean ====
section
/-! DEFINITION. The numeric literals of spec/00_scope.md R5 and R6, each once and by name, so that a corrected value is a
change of one line (93 I12, D37; log 22). What R5 derives from another row is derived from it here. -/

namespace Sys2Proof.Machine

/-- `W_BITS` (R5). -/
abbrev wBits : Nat := 1600
/-- `STATE_BYTES` = W_BITS/8 (R5). -/
abbrev stateBytes : Nat := wBits / 8
/-- `RATE_GRANULE` (R5). -/
def rateGranule : Nat := 64
/-- `SUFFIX_MAX_BITS` (R5). -/
def suffixMaxBits : Nat := 32
/-- `KH_IN_BYTES` (R5). -/
def khInBytes : Nat := 120
/-- `KH_RATE1_BITS` = KH_IN_BYTES x 8 (R5). -/
def khRate1Bits : Nat := khInBytes * 8
/-- `KH_BLOCKS` (R5). -/
def khBlocks : Nat := 546
/-- `KH_SCRATCH_BYTES` = KH_BLOCKS x KH_IN_BYTES (R5). -/
def khScratchBytes : Nat := khBlocks * khInBytes
/-- `KH_OUT_BYTES` (R5). -/
def khOutBytes : Nat := 40
/-- The greatest NUM_INSTANCES (R5). -/
def maxInstances : Nat := 256

end Sys2Proof.Machine
end

