-- ==== Sys2Proof/Word.lean ====
section
/-! DEFINITION. The widths the spec gives data: bytes, 64-bit register values, 200-byte strings
(spec/00_scope.md R5, R7; spec/10_state.md R28, R30). -/

namespace Sys2Proof

/-- An 8-bit byte (R7). -/
abbrev Byte := BitVec 8

/-- The value of a 64-bit register or a 64-bit HM address (R30, R60). -/
abbrev Word64 := BitVec 64

/-- `Bytes200`: the sponge state and the queue are strings of STATE_BYTES bytes (R4, R5, R22, R28). -/
abbrev Bytes200 := Vector Byte Machine.stateBytes

end Sys2Proof
end

