-- ==== Sys2Proof/Machine/Bits.lean ====
section
/-! DEFINITION. Bit fields, bit strings and byte strings (spec/00_scope.md R7, R8). -/

namespace Sys2Proof.Machine

/-- `v[hi:lo]` as a natural (R7). -/
def field (v : Word64) (hi lo : Nat) : Nat := v.toNat / 2 ^ lo % 2 ^ (hi + 1 - lo)

/-- `ceil_div(a, b)`: the least q with q*b >= a (R7). -/
def ceilDiv (a b : Nat) : Nat := (a + b - 1) / b

/-- The eight bits of a byte, least significant first (R8). -/
def byteBits (b : Byte) : List Bool := (List.range 8).map fun k => b.getLsbD k

/-- `bitsOf(B, n)`: the first n bits of byte string B; bit k is bit (k mod 8) of byte k div 8 (R8). -/
def bitsOf (b : List Byte) (n : Nat) : List Bool := (b.flatMap byteBits).take n

/-- Byte j of a 200-byte string; the engine only asks for j < STATE_BYTES. -/
def byteAt (v : Bytes200) (j : Nat) : Byte := v.getD j 0

/-- `0^200`. -/
def zero200 : Bytes200 := Vector.replicate stateBytes 0

/-- Bit p of a 200-byte string (R8, R24). -/
def bitAt (v : Bytes200) (p : Nat) : Bool := (byteAt v (p / 8)).getLsbD (p % 8)

/-- `v[p div 8] <- v[p div 8] | (b << (p mod 8))` (spec/40_sponge_absorb.md R130). -/
def orBit (v : Bytes200) (p : Nat) (b : Bool) : Bytes200 :=
  v.setIfInBounds (p / 8) (byteAt v (p / 8) ||| (BitVec.ofBool b).setWidth 8 <<< (p % 8))

/-- XOR of the first k bytes of `q` into `s`; the bytes from k on are untouched (R130). -/
def xorFirst (k : Nat) (s q : Bytes200) : Bytes200 :=
  Vector.ofFn fun j : Fin stateBytes => if j.val < k then s[j] ^^^ q[j] else s[j]

/-- `v[0 .. k)`. -/
def firstBytes (v : Bytes200) (k : Nat) : List Byte := (List.range k).map fun j => byteAt v j

end Sys2Proof.Machine
end

