-- ==== Sys2Proof/Syntax.lean ====
section
/-! DEFINITION. The commands, one constructor per row of spec/opcode_table.json (spec/30_encoding.md R93).
VID and IID are plain naturals 0..255 (R91); WellFormed.lean says so. -/

namespace Sys2Proof

/-- A command with the fields of its command word that R94 marks as used. The other operands stand in ARG[0..3]
(R95). -/
inductive Instr where
  /-- INIT, spec/40_sponge_absorb.md R121 -/
  | init (vid iid : Nat)
  /-- ABSORB, spec/40_sponge_absorb.md R122 -/
  | absorb (iid : Nat)
  /-- FINALIZE, spec/40_sponge_absorb.md R132 -/
  | finalize (iid : Nat) (fOut : Bool)
  /-- SQUEEZE, spec/41_sponge_squeeze.md R150 -/
  | squeeze (iid : Nat) (fOut : Bool)
  /-- DISCARD, spec/40_sponge_absorb.md R135 -/
  | discard (iid : Nat)
  /-- HASH_FIXED, spec/42_hash_instantiator.md R180 -/
  | hashFixed (vid : Nat) (fOut : Bool)
  /-- HASH_XOF, spec/42_hash_instantiator.md R182 -/
  | hashXof (vid : Nat) (fOut : Bool)
  /-- KRYPTOHASH, spec/43_kryptohash_pipeline.md R201 -/
  | kryptohash
  /-- REORDER, spec/44_byte_reorder.md R222 -/
  | reorder
deriving DecidableEq, Repr

end Sys2Proof
end

