-- ==== Sys2Proof/Decode.lean ====
section
/-! DEFINITION. The command format: decoding a 64-bit CMD value, rejecting by name, and the encoder
(spec/30_encoding.md R90 to R94, R101). -/

namespace Sys2Proof

open Sys2Proof.Machine (field)

/-- Why a CMD value is no command. Every one of them ends the command with E_OPCODE (R92, R101). -/
inductive Reject where
  /-- v[63:32] is not 0 -/
  | highWord
  /-- v[31:24] is no opcode of R93 -/
  | reservedOpcode
  /-- v[7:1] (RSV) is not 0 -/
  | reservedBits
  /-- a must-be-zero field of R94 is not 0 -/
  | mustBeZero
deriving DecidableEq, Repr

/-- The row of R93 and R94 for an opcode: its mask ZMASK[op] and the command its fields name. -/
def opcodeRow (op vid iid : Nat) (fOut : Bool) : Option (BitVec 32 × Instr) :=
  match op with
  | 0x01 => some (0x00000001, .init vid iid)
  | 0x02 => some (0x00FF0001, .absorb iid)
  | 0x03 => some (0x00FF0000, .finalize iid fOut)
  | 0x04 => some (0x00FF0000, .squeeze iid fOut)
  | 0x05 => some (0x00FF0001, .discard iid)
  | 0x10 => some (0x0000FF00, .hashFixed vid fOut)
  | 0x11 => some (0x0000FF00, .hashXof vid fOut)
  | 0x20 => some (0x00FFFF01, .kryptohash)
  | 0x21 => some (0x00FFFF01, .reorder)
  | _ => none

/-- `decode(v)` of R92: the first failing check rejects. -/
def decode (v : Word64) : Except Reject Instr :=
  if field v 63 32 ≠ 0 then .error .highWord
  else
    match opcodeRow (field v 31 24) (field v 23 16) (field v 15 8) (v.getLsbD 0) with
    | none => .error .reservedOpcode
    | some (zmask, i) =>
      if field v 7 1 ≠ 0 then .error .reservedBits
      else if v.setWidth 32 &&& zmask ≠ 0 then .error .mustBeZero
      else .ok i

/-- The command from a word of the opcode table: the word stands in CMD[31:0] and every bit above it is 0 (R90). -/
def decodeTableWord (nbits w : Nat) : Option Instr :=
  match decode (BitVec.ofNat 64 (w % 2 ^ nbits)) with
  | .ok i => some i
  | .error _ => none

/-- The 32-bit command word with OP, VID, IID and F_OUT at the places of R90; every other bit is 0. -/
def commandWord (op vid iid : Nat) (fOut : Bool) : BitVec 32 :=
  BitVec.ofNat 32 (op * 2 ^ 24 + vid * 2 ^ 16 + iid * 2 ^ 8 + fOut.toNat)

/-- The command word of a command (R90, R93). -/
def encodeWord : Instr → BitVec 32
  | .init vid iid => commandWord 0x01 vid iid false
  | .absorb iid => commandWord 0x02 0 iid false
  | .finalize iid f => commandWord 0x03 0 iid f
  | .squeeze iid f => commandWord 0x04 0 iid f
  | .discard iid => commandWord 0x05 0 iid false
  | .hashFixed vid f => commandWord 0x10 vid 0 f
  | .hashXof vid f => commandWord 0x11 vid 0 f
  | .kryptohash => commandWord 0x20 0 0 false
  | .reorder => commandWord 0x21 0 0 false

/-- The CMD value of a command: its word, with v[63:32] = 0 (R90). -/
def encode (i : Instr) : Word64 := (encodeWord i).setWidth 64

/-- The `match` and `mask` of a command's row of R94. -/
def matchMask : Instr → BitVec 32 × BitVec 32
  | .init _ _ => (0x01000000, 0xFF0000FF)
  | .absorb _ => (0x02000000, 0xFFFF00FF)
  | .finalize _ _ => (0x03000000, 0xFFFF00FE)
  | .squeeze _ _ => (0x04000000, 0xFFFF00FE)
  | .discard _ => (0x05000000, 0xFFFF00FF)
  | .hashFixed _ _ => (0x10000000, 0xFF00FFFE)
  | .hashXof _ _ => (0x11000000, 0xFF00FFFE)
  | .kryptohash => (0x20000000, 0xFFFFFFFF)
  | .reorder => (0x21000000, 0xFFFFFFFF)

end Sys2Proof
end

