-- ==== Sys2Proof/Config.lean ====
section
/-! DEFINITION. What an implementation fixes: the parameter records of spec/00_scope.md R5, the opaque
permutation (R4) and the opaque free values. What the records MEAN is in Machine/Platform.lean. -/

namespace Sys2Proof

/-- KIND of a parameter set (spec/10_state.md R26). -/
inductive Kind where
  | fixed
  | xof
  | kshake
deriving DecidableEq, Repr, Inhabited

/-- SpongeParameters, the PRM record (spec/10_state.md R26). The suffix length L is `d.length`. -/
structure Params where
  /-- rate in bits -/
  r : Nat
  /-- capacity in bits -/
  c : Nat
  /-- domain suffix D, first-appended bit first -/
  d : List Bool
  /-- fixed digest length in bits, 0 for extendable output -/
  n : Nat
  kind : Kind
deriving DecidableEq, Repr, Inhabited

/-- One rule of the platform's admission predicate: it admits the byte ranges of `minLen` to `maxLen` bytes that lie
inside the window of `size` bytes at `base` (log 3). -/
structure AdmitRule where
  base : Nat
  size : Nat
  minLen : Nat
  maxLen : Nat
deriving DecidableEq, Repr

/-- One entry of KSHAKE_EXTRA: a variant id, its rate in bits and its suffix (spec/00_scope.md R5). -/
structure ExtraVariant where
  vid : Nat
  rate : Nat
  suffix : List Bool
deriving DecidableEq, Repr

/-- The parameters of spec/00_scope.md R5 that R5 leaves OPEN or gives only a default, as plain data. The fixed
literals are constants of Machine/Literals.lean. NUM_INSTANCES is the length of the instance file of State (log 15),
PERM is `Config.perm` (log 2). -/
structure Config where
  /-- `Admit`, as a list of rules (log 3) -/
  admitRules : List AdmitRule
  /-- `XOF_MAX_BYTES` -/
  xofMaxBytes : Nat
  fxRate224 : Nat
  fxRate256 : Nat
  fxRate384 : Nat
  fxRate512 : Nat
  sufFixed : List Bool
  xofRateA : Nat
  xofRateB : Nat
  sufXof : List Bool
  /-- `KH_RATE2_BITS` -/
  khRate2Bits : Nat
  sufK1 : List Bool
  sufK2 : List Bool
  kshakeExtra : List ExtraVariant
  /-- `RW_BYTES` -/
  rwBytes : Nat
  /-- `RW_MAP`, the list of its values at 0, 1, ..., RW_BYTES - 1 -/
  rwMap : List Nat
deriving DecidableEq, Repr

/-- `PERM` (spec/00_scope.md R4): a fixed, deterministic, total function of 200-byte states. Nothing else is assumed
of it, so it has no body here (log 2). -/
opaque Config.perm : Bytes200 → Bytes200

/-- The free bytes of each draw, by draw and index: what spec/93_implementation_defined.md I4 and I5 call `any value` (log 9, 10). -/
opaque Config.freeByte : Nat → Nat → Byte

/-- A free byte string for each draw: the unspecified content of SPM (spec/20_memory.md R63; 93 I3; log 5). -/
opaque Config.freeString : Nat → List Byte

/-- The free choices of each draw, by draw and index: which of two writers of a contended byte came last
(spec/20_memory.md R73; log 10). -/
opaque Config.freeChoice : Nat → Nat → Bool

end Sys2Proof
end

