-- ==== Sys2Proof/Machine/Platform.lean ====
section
/-! DEFINITION. What the parameters of spec/00_scope.md R5 mean: the constraints that make a
configuration well-formed, Admit, the variant table, and the example configuration. -/

namespace Sys2Proof

namespace Machine

/-- A legal rate: 0 < r < 1600, a multiple of RATE_GRANULE (R5; spec/10_state.md R26). -/
def rateOk (r : Nat) : Bool := decide (0 < r) && decide (r < wBits) && decide (r % rateGranule = 0)

/-- A legal suffix: |D| <= SUFFIX_MAX_BITS (R5, R26). -/
def suffixOk (d : List Bool) : Bool := decide (d.length ≤ suffixMaxBits)

end Machine

open Machine

/-- The constraint of the FX_RATE rows: legal rates, strictly decreasing as the digest length grows, each >= its digest
length (R5, R26; log 18). -/
def Config.fxRatesOk (c : Config) : Bool :=
  rateOk c.fxRate224 && rateOk c.fxRate256 && rateOk c.fxRate384 && rateOk c.fxRate512
    && decide (c.fxRate256 < c.fxRate224) && decide (c.fxRate384 < c.fxRate256) && decide (c.fxRate512 < c.fxRate384)
    && decide (224 ≤ c.fxRate224) && decide (256 ≤ c.fxRate256) && decide (384 ≤ c.fxRate384)
    && decide (512 ≤ c.fxRate512)

/-- The constraint of the KSHAKE_EXTRA row: ids 0x12..0x1F, each at most once, legal rates and suffixes (R5). -/
def Config.kshakeExtraOk (c : Config) : Bool :=
  c.kshakeExtra.all (fun e => decide (0x12 ≤ e.vid) && decide (e.vid ≤ 0x1F) && rateOk e.rate && suffixOk e.suffix)
    && decide (c.kshakeExtra.map ExtraVariant.vid).Nodup

/-- `RW_MAP(j)` (R5). -/
def Config.rwAt (c : Config) (j : Nat) : Nat := c.rwMap.getD j 0

/-- The constraint of the RW_BYTES and RW_MAP rows: RW_BYTES divides KH_IN_BYTES, RW_MAP maps {0..RW_BYTES-1} to itself
and composed with itself is the identity (R5). -/
def Config.rwOk (c : Config) : Bool :=
  decide (khInBytes % c.rwBytes = 0) && decide (c.rwMap.length = c.rwBytes)
    && (List.range c.rwBytes).all fun j => decide (c.rwAt j < c.rwBytes) && decide (c.rwAt (c.rwAt j) = j)

/-- Every constraint of R5's table on the parameters held here. -/
def Config.wf (c : Config) : Bool :=
  c.fxRatesOk && rateOk c.xofRateA && rateOk c.xofRateB
    && decide (khScratchBytes ≤ c.xofMaxBytes) && decide (c.xofMaxBytes ≤ 2 ^ 64 - 1)
    && rateOk c.khRate2Bits && decide (c.khRate2Bits ≠ khRate1Bits)
    && suffixOk c.sufFixed && suffixOk c.sufXof && suffixOk c.sufK1 && suffixOk c.sufK2
    && c.kshakeExtraOk && c.rwOk

/-- `Admit(a, n)` (R5; spec/20_memory.md R61): true for n = 0, false when a + n > 2^64, else what the rules say. -/
def Config.admits (c : Config) (a n : Nat) : Bool :=
  decide (n = 0) ||
    (decide (a + n ≤ 2 ^ 64) && c.admitRules.any fun w =>
      decide (w.base ≤ a) && decide (a + n ≤ w.base + w.size) && decide (w.minLen ≤ n) && decide (n ≤ w.maxLen))

/-- The output-length clamp (spec/41_sponge_squeeze.md R151). -/
def Config.clamp (c : Config) (bytes : Nat) : Nat := min bytes c.xofMaxBytes

/-- A variant's tuple: capacity 1600 - r (spec/42_hash_instantiator.md R171). -/
def Config.tuple (r : Nat) (d : List Bool) (n : Nat) (k : Kind) : Params :=
  { r := r, c := wBits - r, d := d, n := n, kind := k }

/-- KSHAKE_S1, VARIANT[0x10] (R171). -/
def Config.kshakeS1 (c : Config) : Params := Config.tuple khRate1Bits c.sufK1 0 .kshake

/-- KSHAKE_S2, VARIANT[0x11] (R171). -/
def Config.kshakeS2 (c : Config) : Params := Config.tuple c.khRate2Bits c.sufK2 0 .kshake

/-- KSHAKE_EXTRA[vid], defined only for ids 0x12..0x1F (R171; spec/30_encoding.md R100). -/
def Config.extra (c : Config) (vid : Nat) : Option Params :=
  if 0x12 ≤ vid ∧ vid ≤ 0x1F then
    (c.kshakeExtra.find? fun e => e.vid == vid).map fun e => Config.tuple e.rate e.suffix 0 .kshake
  else none

/-- `VARIANT[vid]` (R171); `none` for the reserved ids of R100 and for CUSTOM. -/
def Config.variant (c : Config) (vid : Nat) : Option Params :=
  match vid with
  | 0x01 => some (Config.tuple c.fxRate224 c.sufFixed 224 .fixed)
  | 0x02 => some (Config.tuple c.fxRate256 c.sufFixed 256 .fixed)
  | 0x03 => some (Config.tuple c.fxRate384 c.sufFixed 384 .fixed)
  | 0x04 => some (Config.tuple c.fxRate512 c.sufFixed 512 .fixed)
  | 0x08 => some (Config.tuple c.xofRateA c.sufXof 0 .xof)
  | 0x09 => some (Config.tuple c.xofRateB c.sufXof 0 .xof)
  | 0x10 => some c.kshakeS1
  | 0x11 => some c.kshakeS2
  | _ => c.extra vid

/-- A fixed-digest variant, the only kind HASH_FIXED takes (R180 check 1). -/
def Config.fixedVariant (c : Config) (vid : Nat) : Option Params :=
  (c.variant vid).filter fun p => decide (p.kind = .fixed)

/-- An extendable-output or KSHAKE variant, the only kinds HASH_XOF takes (R182 check 1). -/
def Config.xofVariant (c : Config) (vid : Nat) : Option Params :=
  (c.variant vid).filter fun p => decide (p.kind ≠ .fixed)

/-- The example configuration EX of spec/95_test_vectors.md section 0, with HM of 1 MiB at address 0. It is the
configuration of State.reset (log 1, DESIGN CHOICE). -/
def Config.ex : Config where
  admitRules := [{ base := 0, size := 0x100000, minLen := 0, maxLen := 0x100000 }]
  xofMaxBytes := 65520
  fxRate224 := 1152
  fxRate256 := 1088
  fxRate384 := 832
  fxRate512 := 576
  sufFixed := [false, true]
  xofRateA := 1344
  xofRateB := 1088
  sufXof := [true, true, true, true]
  khRate2Bits := 1088
  sufK1 := [true, true, true, true]
  sufK2 := [true, true, true, true]
  kshakeExtra := []
  rwBytes := 15
  rwMap := [14, 13, 12, 11, 10, 9, 8, 7, 6, 5, 4, 3, 2, 1, 0]

/-- NUM_INSTANCES of EX (spec/95_test_vectors.md section 0). -/
def Config.exInstances : Nat := 4

end Sys2Proof
end

