-- ==== Sys2Proof/Machine/State.lean ====
section
/-! DEFINITION. The machine's state as plain data, the reasons a step can stop, and the state after reset
(spec/10_state.md). -/

namespace Sys2Proof.Machine

/-- The phase marker PH (spec/10_state.md R23). -/
inductive Phase where
  | none
  | absorb
  | squeeze
  | done
deriving DecidableEq, Repr, Inhabited

/-- The status codes of spec/60_exceptions.md R240; the codes 0x08..0xFF are never produced (93 I11). -/
inductive Code where
  | ok
  | eOpcode
  | eInstance
  | eParam
  | eOrder
  | eLength
  | eSize
  | eBus
deriving DecidableEq, Repr

/-- One slot of the instance file, or a transient one (spec/10_state.md R22, R37). -/
structure Instance where
  /-- PH -/
  ph : Phase
  /-- S, the SpongeState -/
  s : Bytes200
  /-- Q, the input queue -/
  q : Bytes200
  /-- QB, the bits held in Q -/
  qb : Nat
  /-- AV, the output bytes still available -/
  av : Nat
  /-- PRM, the bound SpongeParameters -/
  prm : Params
  /-- the model's own count of PERM applications since INIT (spec/40_sponge_absorb.md R133; log 16) -/
  perms : Nat
deriving DecidableEq, Repr, Inhabited

/-- A byte memory: (address, byte) pairs in canonical form (`Memory.wf`); an unlisted address reads as 0 (log 6). -/
abbrev Memory := List Host.Cell

/-- The registers of the register space REG (spec/20_memory.md R68). -/
inductive Reg where
  | cfg
  | status
  | result
  | cmd
  | arg0
  | arg1
  | arg2
  | arg3
deriving DecidableEq, Repr

/-- One operation of the world outside the engine. The host's program is a list of them (spec/10_state.md R21; log 11). -/
inductive HostOp where
  /-- `wr <REG>, v` (spec/30_encoding.md R102); writing CMD runs a command (spec/10_state.md R31) -/
  | wr (r : Reg) (v : Word64)
  /-- `rd <REG>` (R102) -/
  | rd (r : Reg)
  /-- a write of these byte lanes at an offset of the register space (spec/20_memory.md R65, R68) -/
  | busWrite (offset : Nat) (lanes : List Byte)
  /-- a read of `size` bytes at an offset of the register space (R65, R68) -/
  | busRead (offset size : Nat)
  /-- the host writes one byte of its buffer memory HM (spec/20_memory.md R60; log 20) -/
  | memWrite (a : Word64) (b : Byte)
  /-- the host reads one byte of HM (R60; log 20) -/
  | memRead (a : Word64)
  /-- reset between commands (spec/70_reset_and_hazards.md R270; log 8) -/
  | reset
  /-- a CMD write of v whose command is abandoned by a reset (R270; log 9) -/
  | cmdThenReset (v : Word64)
  /-- a CMD write of v while another agent writes these bytes of HM (spec/20_memory.md R73; log 10) -/
  | cmdContended (v : Word64) (writes : List (Word64 × Byte))
deriving DecidableEq, Repr

/-- The machine (spec/10_state.md R20). -/
structure State where
  /-- the platform's parameters (spec/00_scope.md R5), which no step writes (log 1) -/
  config : Config
  /-- CFG.REORDER_EN (R32) -/
  reorderEn : Bool
  /-- STATUS.CODE (R33) -/
  code : Code
  /-- STATUS.FAULT (R33) -/
  fault : Bool
  /-- RESULT (R34) -/
  result : Word64
  /-- ARG[0] (R30) -/
  arg0 : Word64
  /-- ARG[1] (R30) -/
  arg1 : Word64
  /-- ARG[2] (R30) -/
  arg2 : Word64
  /-- ARG[3] (R30) -/
  arg3 : Word64
  /-- INST[0 .. NUM_INSTANCES-1] (R22; log 15) -/
  inst : List Instance
  /-- SPM (spec/20_memory.md R63) -/
  spm : Memory
  /-- HM, the host buffer memory (spec/20_memory.md R60) -/
  mem : Memory
  /-- the host's operation list (R21; log 11) -/
  program : List HostOp
  /-- the index of the host's next operation (R21; log 11) -/
  pc : Nat
  /-- the model's own: what the host's last read returned (R35; log 11) -/
  readData : Word64
  /-- the model's own: how many times free values have been drawn (log 5, 7 to 10) -/
  draws : Nat
  /-- the model's own: PERM applications since reset (spec/70_reset_and_hazards.md R290; log 16) -/
  perms : Nat
deriving DecidableEq, Repr

/-- The ways a step stops the machine with a fault: none. An error of a command is not a stop: STATUS records it and the
next command runs (spec/60_exceptions.md R245; log 13). Safe: no rule of the spec stops the machine. -/
inductive Fault where
deriving DecidableEq, Repr

/-- The ways a step gives no meaning. -/
inductive Refusal where
  /-- Raised by an arm of exec whose command has no meaning yet; no arm is such. Safe. -/
  | notModelled (mnemonic : String)
  /-- Raised by a register access that is not a 64-bit access at an offset of R68, which a model refuses
  (spec/20_memory.md R68). Safe. -/
  | registerAccess (offset size : Nat)
  /-- Raised by a step whose configuration breaks a constraint of R5, which a model refuses (spec/00_scope.md R5). Safe. -/
  | illFormedConfiguration
deriving DecidableEq, Repr

/-- An instance slot after reset: PH = NONE (spec/10_state.md R38). The other fields are unspecified there; the model
names zeros (log 4, DESIGN CHOICE). -/
def Instance.blank : Instance :=
  { ph := .none, s := zero200, q := zero200, qb := 0, av := 0,
    prm := { r := 0, c := wBits, d := [], n := 0, kind := .xof }, perms := 0 }

/-- The state after reset of a block with configuration `c` and `n` instance slots (spec/10_state.md R38). -/
def State.resetWith (c : Config) (n : Nat) : State :=
  { config := c, reorderEn := false, code := .ok, fault := false, result := 0,
    arg0 := 0, arg1 := 0, arg2 := 0, arg3 := 0,
    inst := List.replicate n Instance.blank, spm := [], mem := [],
    program := [], pc := 0, readData := 0, draws := 0, perms := 0 }

/-- The state right after reset (spec/10_state.md R38), for the example configuration (log 1, DESIGN CHOICE). -/
def State.reset : State := State.resetWith Config.ex Config.exInstances

end Sys2Proof.Machine

/-- The unspecified content of the instance slots of each draw, by draw and slot (spec/10_state.md R38;
spec/40_sponge_absorb.md R135; 93 I2). A free value: no body (log 7, 8). -/
opaque Sys2Proof.Config.freeInstance : Nat → Nat → Sys2Proof.Machine.Instance
end

