-- ==== Sys2Proof/Machine/Ops.lean ====
section
/-! DEFINITION. The named operations over memory, the instance file and the block registers: reading and writing byte
strings, completing a command with success or with an error, resetting. -/

namespace Sys2Proof.Machine

/-! ### Byte memories (spec/20_memory.md R60, R63, R64) -/

/-- The byte at an address; an unlisted address reads as 0 (log 6). -/
def Memory.read : Memory → Nat → Byte
  | [], _ => 0
  | (k, v) :: rest, a => if k = a then v else Memory.read rest a

/-- Insert a cell before the first greater address. -/
def Memory.insertCell (a : Nat) (v : Byte) : Memory → Memory
  | [] => [(a, v)]
  | (k, w) :: rest => if a < k then (a, v) :: (k, w) :: rest else (k, w) :: Memory.insertCell a v rest

/-- Write one byte, keeping the canonical form: writing 0 removes the cell. -/
def Memory.write (m : Memory) (a : Nat) (v : Byte) : Memory :=
  let others := m.filter fun cell => cell.1 ≠ a
  if v = 0 then others else Memory.insertCell a v others

/-- `MemRead(addr, n)` of spec/00_scope.md R9: byte k of the string is the byte at addr + k (R64). -/
def Memory.readBytes (m : Memory) (a n : Nat) : List Byte := (List.range n).map fun k => Memory.read m (a + k)

/-- `MemWrite(addr, n, v)` of spec/00_scope.md R9, n being the string's length. -/
def Memory.writeBytes : Memory → Nat → List Byte → Memory
  | m, _, [] => m
  | m, a, b :: rest => Memory.writeBytes (Memory.write m a b) (a + 1) rest

/-- The canonical form: addresses strictly rising and below 2^64, no entry equal to what an unlisted address reads as. -/
abbrev Memory.wf (m : Memory) : Prop :=
  m.Pairwise (fun x y => x.1 < y.1) ∧ ∀ cell ∈ m, cell.2 ≠ 0 ∧ cell.1 < 2 ^ 64

/-! ### Completing a command (spec/60_exceptions.md section 2) -/

/-- Success: CODE <- OK and RESULT <- the byte count; FAULT is left unchanged (R242). -/
def State.complete (s : State) (count : Nat) : State :=
  { s with code := .ok, result := BitVec.ofNat 64 count }

/-- Failure: CODE <- e, FAULT <- 1, RESULT <- 0, and nothing else (R243). The one way a command reports an error; it is
no trap (R245). -/
def State.raise (s : State) (e : Code) : State :=
  { s with code := e, fault := true, result := 0 }

/-! ### The instance file -/

/-- NUM_INSTANCES (spec/00_scope.md R5; log 15). -/
def State.numInstances (s : State) : Nat := s.inst.length

/-- `INST[iid] <- t`. -/
def State.setInst (s : State) (iid : Nat) (t : Instance) : State := { s with inst := s.inst.set iid t }

/-- `MemWrite` to HM. -/
def State.store (s : State) (a : Nat) (bs : List Byte) : State := { s with mem := Memory.writeBytes s.mem a bs }

/-- Count k applications of PERM (spec/70_reset_and_hazards.md R290; log 16). -/
def State.addPerms (s : State) (k : Nat) : State := { s with perms := s.perms + k }

/-- Free values were drawn: the next ones are others. -/
def State.draw (s : State) : State := { s with draws := s.draws + 1 }

/-- n free bytes of draw d. -/
def freeBytes (d n : Nat) : List Byte := (List.range n).map fun k => Config.freeByte d k

/-- An SPM of unspecified content (spec/20_memory.md R63; log 5): a free byte string, cut to the size of SPM. -/
def freeScratch (d : Nat) : Memory := Memory.writeBytes [] 0 ((Config.freeString d).take khScratchBytes)

/-- SPM after a KRYPTOHASH: its content is unspecified (R63), so it takes free values (log 5). -/
def State.forgetSpm (s : State) : State := { s with spm := freeScratch s.draws, draws := s.draws + 1 }

/-! ### The configuration (spec/00_scope.md R5) -/

/-- Every constraint of R5 holds, NUM_INSTANCES among them; a step refuses a state without it. -/
def State.configured (s : State) : Bool :=
  decide (1 ≤ s.numInstances) && decide (s.numInstances ≤ maxInstances) && s.config.wf

/-! ### Reset (spec/70_reset_and_hazards.md R270) -/

/-- An instance slot after reset: PH = NONE, the other fields unspecified (spec/10_state.md R38; log 8). -/
def freeSlot (d i : Nat) : Instance := { Config.freeInstance d i with ph := .none }

/-- Reset of the block: every register and every PH takes its reset value, and HM is not changed (R270). What R38 leaves
unspecified (the other instance fields, SPM) takes free values (log 5, 8). The host side keeps its program and pc. -/
def State.resetBlock (s : State) : State :=
  { s with
    reorderEn := false, code := .ok, fault := false, result := 0,
    arg0 := 0, arg1 := 0, arg2 := 0, arg3 := 0,
    inst := (List.range s.inst.length).map fun i => freeSlot s.draws i,
    spm := freeScratch s.draws,
    draws := s.draws + 1,
    perms := 0 }

end Sys2Proof.Machine
end

