-- ==== Sys2Proof/Machine/Flags.lean ====
section
/-! DEFINITION. The flags and status indicators (spec/10_state.md R36) and the register values they make up (R32 to R35). -/

namespace Sys2Proof.Machine

/-- The number of a status code (spec/60_exceptions.md R240). -/
def Code.value : Code → Nat
  | .ok => 0x00
  | .eOpcode => 0x01
  | .eInstance => 0x02
  | .eParam => 0x03
  | .eOrder => 0x04
  | .eLength => 0x05
  | .eSize => 0x06
  | .eBus => 0x07

/-- The 2-bit value of PH (R23). -/
def Phase.value : Phase → Nat
  | .none => 0
  | .absorb => 1
  | .squeeze => 2
  | .done => 3

/-- STATUS as the host reads it: CODE in 7:0, FAULT in 8, bits 63:9 read as 0 (R33). -/
def State.status (s : State) : Word64 := BitVec.ofNat 64 (s.fault.toNat * 2 ^ 8 + s.code.value)

/-- CFG as the host reads it: REORDER_EN in bit 0, bits 63:1 read as 0 (R32). -/
def State.cfg (s : State) : Word64 := BitVec.ofNat 64 s.reorderEn.toNat

/-- A host write of CFG: bit 0 is stored, bits 63:1 are ignored (R32, R35). -/
def State.writeCfg (s : State) (v : Word64) : State := { s with reorderEn := v.getLsbD 0 }

/-- The partial-byte condition of an instance: the last ABSORB ended on a partial byte (R24, R36). -/
def Instance.partialByte (t : Instance) : Bool := decide (t.qb % 8 ≠ 0)

end Sys2Proof.Machine
end

