-- ==== Sys2Proof/Machine/Operands.lean ====
section
/-! DEFINITION. The operand forms: addresses and lengths in the argument registers (spec/30_encoding.md R95) and the
custom parameter set of INIT (R96). -/

namespace Sys2Proof.Machine

/-- `src address` of ABSORB, HASH_FIXED, HASH_XOF, KRYPTOHASH, REORDER (R95). -/
def State.srcAddr (s : State) : Nat := s.arg0.toNat

/-- The length operand ARG[1]: bits for ABSORB, SQUEEZE and the one-shot hashes, bytes for KRYPTOHASH and REORDER (R95). -/
def State.length (s : State) : Nat := s.arg1.toNat

/-- `dst address` of FINALIZE and SQUEEZE (R95). -/
def State.dstAddr0 (s : State) : Nat := s.arg0.toNat

/-- `dst address` of HASH_FIXED, HASH_XOF, KRYPTOHASH and REORDER (R95). -/
def State.dstAddr2 (s : State) : Nat := s.arg2.toNat

/-- The requested output length of HASH_XOF in bytes (R95). -/
def State.outBytes (s : State) : Nat := s.arg3.toNat

/-- The bytes that hold an input of n bits: ceil_div(n, 8) (spec/40_sponge_absorb.md R122). -/
def inputBytes (n : Nat) : Nat := ceilDiv n 8

/-- The first n bits of the message in HM at the source address (R122; spec/00_scope.md R8). -/
def State.message (s : State) (n : Nat) : List Bool :=
  bitsOf (Memory.readBytes s.mem s.srcAddr (inputBytes n)) n

/-- The tuple that ARG[0] and ARG[1] name for INIT with VID = 0xFF (R96; R121 for KIND). -/
def customTuple (a0 a1 : Word64) : Params :=
  { r := field a0 15 0, c := field a0 31 16, n := field a0 47 32,
    d := (List.range (field a1 39 32)).map fun k => a1.getLsbD k,
    kind := if 0 < field a0 47 32 then .fixed else .xof }

/-- Check 3 of R121: the custom parameter set is legal. -/
def customOk (a0 a1 : Word64) : Bool :=
  decide (field a0 63 48 = 0) && decide (field a1 63 40 = 0)
    && decide (field a0 15 0 + field a0 31 16 = wBits)
    && rateOk (field a0 15 0)
    && decide (field a1 39 32 ≤ suffixMaxBits)
    && decide (field a1 31 0 / 2 ^ field a1 39 32 = 0)
    && decide (field a0 47 32 % 8 = 0) && decide (field a0 47 32 ≤ field a0 15 0)

/-- The parameter set that INIT binds, or `none` where checks 2 and 3 of R121 raise E_PARAM. -/
def State.initParams (s : State) (vid : Nat) : Option Params :=
  if vid = 0xFF then
    if customOk s.arg0 s.arg1 then some (customTuple s.arg0 s.arg1) else none
  else s.config.variant vid

end Sys2Proof.Machine
end

