-- ==== Sys2Proof/Machine/Sponge.lean ====
section
/-! DEFINITION. The sponge engine's internal steps on one instance: queueing, absorbing a block, padding
(spec/40_sponge_absorb.md R130, R131), squeezing (spec/41_sponge_squeeze.md R152), and the one-shot functions
(spec/42_hash_instantiator.md R181, R183). -/

namespace Sys2Proof.Machine

/-- An instance just bound to P: S and Q are 0^200, QB = AV = 0, PH = ABSORB (R121, R181, R183). -/
def Instance.fresh (p : Params) : Instance :=
  { ph := .absorb, s := zero200, q := zero200, qb := 0, av := 0, prm := p, perms := 0 }

/-- r/8, the bytes of a rate-block. -/
def Instance.rateBytes (t : Instance) : Nat := t.prm.r / 8

/-- `AbsorbBlock(T)` (R130): XOR the queue into the first r/8 bytes of S, apply PERM, empty the queue. -/
def Instance.absorbBlock (t : Instance) : Instance :=
  { t with s := Config.perm (xorFirst t.rateBytes t.s t.q), q := zero200, qb := 0, perms := t.perms + 1 }

/-- `QueueBit(T, b)` (R130). -/
def Instance.queueBit (t : Instance) (b : Bool) : Instance :=
  if t.qb + 1 = t.prm.r then Instance.absorbBlock { t with q := orBit t.q t.qb b, qb := t.qb + 1 }
  else { t with q := orBit t.q t.qb b, qb := t.qb + 1 }

/-- `QueueBit` of each bit in turn. -/
def Instance.queueBits (t : Instance) (bits : List Bool) : Instance := bits.foldl Instance.queueBit t

/-- `while T.QB != r - 1: QueueBit(T, 0)` (R131). QB counts up by one for each bit below r - 1, so the loop runs
r - 1 - QB times (log 25). -/
def Instance.zeroFill (t : Instance) : Instance := t.queueBits (List.replicate (t.prm.r - 1 - t.qb) false)

/-- `Pad(T)` (R131): the domain suffix, a 1, zero fill, and the final 1 at position r - 1. -/
def Instance.pad (t : Instance) : Instance :=
  (((t.queueBits t.prm.d).queueBit true).zeroFill).queueBit true

/-- The first half of a turn of SqueezeBytes' loop (R152): when the block is used up, apply PERM and reload AV. -/
def Instance.refill (t : Instance) : Instance :=
  if t.av = 0 then { t with s := Config.perm t.s, av := t.rateBytes, perms := t.perms + 1 } else t

/-- The next output byte, S[r/8 - AV] (spec/10_state.md R25). -/
def Instance.nextByte (t : Instance) : Byte := byteAt t.s (t.rateBytes - t.av)

/-- `SqueezeBytes(T, m)` (R152): the advanced instance and the m bytes. -/
def Instance.squeezeBytes : Nat → Instance → Instance × List Byte
  | 0, t => (t, [])
  | m + 1, t =>
    let u := t.refill
    let rest := Instance.squeezeBytes m { u with av := u.av - 1 }
    (rest.1, u.nextByte :: rest.2)

/-- The transient instance of a one-shot hash after Pad (R181, R183). -/
def absorbed (p : Params) (b : List Byte) (n : Nat) : Instance :=
  ((Instance.fresh p).queueBits (bitsOf b n)).pad

/-- `FixedFn(P, B, n)` (R181). -/
def fixedFn (p : Params) (b : List Byte) (n : Nat) : List Byte := firstBytes (absorbed p b n).s (p.n / 8)

/-- The run of `XofFn(P, B, n, m)` (R183): the transient instance at its end, and the bytes. -/
def xofRun (p : Params) (b : List Byte) (n m : Nat) : Instance × List Byte :=
  Instance.squeezeBytes m { absorbed p b n with av := p.r / 8 }

/-- `XofFn(P, B, n, m)` (R183). -/
def xofFn (p : Params) (b : List Byte) (n m : Nat) : List Byte := (xofRun p b n m).2

/-- The PERM applications of a run of XofFn (spec/43_kryptohash_pipeline.md R207; log 16). -/
def xofPerms (p : Params) (b : List Byte) (n m : Nat) : Nat := (xofRun p b n m).1.perms

end Sys2Proof.Machine
end

