-- ==== Sys2Proof/Machine/Absorber.lean ====
section
/-! DEFINITION. The keccak_sponge_absorber sub-block: INIT, ABSORB, FINALIZE, DISCARD (spec/40_sponge_absorb.md). -/

namespace Sys2Proof.Machine

open Host (Outcome)

/-- INIT (R121): checks E_INSTANCE, E_PARAM; binds the parameter set in every phase. -/
def execInit (vid iid : Nat) (s : State) : Outcome State Fault Refusal :=
  match s.inst[iid]? with
  | none => .next (s.raise .eInstance)
  | some _ =>
    match s.initParams vid with
    | none => .next (s.raise .eParam)
    | some p => .next ((s.setInst iid (Instance.fresh p)).complete 0)

/-- ABSORB (R122, R123): checks E_INSTANCE, E_ORDER, E_LENGTH, E_BUS; queues the message bits. -/
def execAbsorb (iid : Nat) (s : State) : Outcome State Fault Refusal :=
  match s.inst[iid]? with
  | none => .next (s.raise .eInstance)
  | some t =>
    if t.ph ≠ .absorb then .next (s.raise .eOrder)
    else if 0 < s.length ∧ t.partialByte = true then .next (s.raise .eLength)
    else if s.config.admits s.srcAddr (inputBytes s.length) = false then .next (s.raise .eBus)
    else
      let u := t.queueBits (s.message s.length)
      .next (((s.setInst iid u).addPerms (u.perms - t.perms)).complete 0)

/-- The instance that FINALIZE leaves (R132): padded, and DONE with its digest taken from the block or SQUEEZE with a
whole block available. -/
def Instance.finalized (t : Instance) : Instance :=
  let u := t.pad
  if 0 < t.prm.n then { u with av := t.prm.r / 8 - t.prm.n / 8, ph := .done }
  else { u with av := t.prm.r / 8, ph := .squeeze }

/-- The digest that FINALIZE writes: S[0 .. N/8) after Pad (R132). -/
def Instance.digest (t : Instance) : List Byte := firstBytes t.pad.s (t.prm.n / 8)

/-- FINALIZE (R132): checks E_INSTANCE, E_ORDER, E_BUS; pads, and writes the digest of a fixed-digest instance when an
output buffer is supplied. -/
def execFinalize (iid : Nat) (fOut : Bool) (s : State) : Outcome State Fault Refusal :=
  match s.inst[iid]? with
  | none => .next (s.raise .eInstance)
  | some t =>
    if t.ph ≠ .absorb then .next (s.raise .eOrder)
    else if 0 < t.prm.n ∧ fOut = true ∧ s.config.admits s.dstAddr0 (t.prm.n / 8) = false then .next (s.raise .eBus)
    else
      let u := t.finalized
      let after := (s.setInst iid u).addPerms (u.perms - t.perms)
      if 0 < t.prm.n ∧ fOut = true then .next ((after.store s.dstAddr0 t.digest).complete (t.prm.n / 8))
      else .next (after.complete 0)

/-- DISCARD (R135): checks E_INSTANCE; PH <- NONE. In phase NONE it changes nothing; in any other phase the other fields
become unspecified, so they take free values (log 7). -/
def execDiscard (iid : Nat) (s : State) : Outcome State Fault Refusal :=
  match s.inst[iid]? with
  | none => .next (s.raise .eInstance)
  | some t =>
    if t.ph = .none then .next (s.complete 0)
    else .next ((s.setInst iid (freeSlot s.draws iid)).draw.complete 0)

end Sys2Proof.Machine
end

