-- ==== Sys2Proof/Machine/Instantiator.lean ====
section
/-! DEFINITION. The hash_function_instantiator sub-block's one-shot commands: HASH_FIXED and HASH_XOF, on the transient
instance T0 (spec/42_hash_instantiator.md; spec/10_state.md R37). -/

namespace Sys2Proof.Machine

open Host (Outcome)

/-- HASH_FIXED (R180): checks E_PARAM, the null-output no-op, E_BUS; writes FixedFn of the message. -/
def execHashFixed (vid : Nat) (fOut : Bool) (s : State) : Outcome State Fault Refusal :=
  match s.config.fixedVariant vid with
  | none => .next (s.raise .eParam)
  | some p =>
    if fOut = false then .next (s.complete 0)
    else if (s.config.admits s.srcAddr (inputBytes s.length) && s.config.admits s.dstAddr2 (p.n / 8)) = false then
      .next (s.raise .eBus)
    else
      let b := Memory.readBytes s.mem s.srcAddr (inputBytes s.length)
      .next (((s.addPerms (absorbed p b s.length).perms).store s.dstAddr2 (fixedFn p b s.length)).complete (p.n / 8))

/-- HASH_XOF (R182): checks E_PARAM, the null-output no-op, E_BUS; writes XofFn of the message, clamped. -/
def execHashXof (vid : Nat) (fOut : Bool) (s : State) : Outcome State Fault Refusal :=
  match s.config.xofVariant vid with
  | none => .next (s.raise .eParam)
  | some p =>
    if fOut = false ∨ s.outBytes = 0 then .next (s.complete 0)
    else if (s.config.admits s.srcAddr (inputBytes s.length)
        && s.config.admits s.dstAddr2 (s.config.clamp s.outBytes)) = false then
      .next (s.raise .eBus)
    else
      let mm := s.config.clamp s.outBytes
      let b := Memory.readBytes s.mem s.srcAddr (inputBytes s.length)
      .next (((s.addPerms (xofPerms p b s.length mm)).store s.dstAddr2 (xofFn p b s.length mm)).complete mm)

end Sys2Proof.Machine
end

