-- ==== Sys2Proof/Machine/Reorder.lean ====
section
/-! DEFINITION. The byte_reorder_xform sub-block: the transform and REORDER (spec/44_byte_reorder.md). -/

namespace Sys2Proof.Machine

open Host (Outcome)

/-- `Reorder(B, len)` (R221): byte j of word w of the result is byte RW_MAP(j) of word w of B, for words of RW_BYTES
bytes. -/
def reorderBytes (c : Config) (b : List Byte) (len : Nat) : List Byte :=
  (List.range len).map fun i => b.getD (i / c.rwBytes * c.rwBytes + c.rwAt (i % c.rwBytes)) 0

/-- REORDER (R222): checks E_SIZE, E_BUS; writes the transform of the source snapshot. -/
def execReorder (s : State) : Outcome State Fault Refusal :=
  if s.length % s.config.rwBytes ≠ 0 then .next (s.raise .eSize)
  else if (s.config.admits s.srcAddr s.length && s.config.admits s.dstAddr2 s.length) = false then .next (s.raise .eBus)
  else
    let x := Memory.readBytes s.mem s.srcAddr s.length
    .next ((s.store s.dstAddr2 (reorderBytes s.config x s.length)).complete s.length)

end Sys2Proof.Machine
end

