-- ==== Sys2Proof/Machine/Pipeline.lean ====
section
/-! DEFINITION. The kryptohash_mining_pipeline sub-block: KRYPTOHASH (spec/43_kryptohash_pipeline.md). -/

namespace Sys2Proof.Machine

open Host (Outcome)

/-- Input assembly (R202 step 1, R205): the work input, reordered when CFG.REORDER_EN is set. -/
def State.workInput (s : State) : List Byte :=
  let x := Memory.readBytes s.mem s.srcAddr khInBytes
  if s.reorderEn = true then reorderBytes s.config x khInBytes else x

/-- The message of stage 2: all of SPM (R201, R203). -/
def scratchpad (spm : Memory) : List Byte := Memory.readBytes spm 0 khScratchBytes

/-- KRYPTOHASH (R201): checks E_SIZE, E_BUS; stage 1 on T0 fills SPM, stage 2 on T1 hashes all of SPM to 40 bytes.
After the command SPM is unspecified (spec/20_memory.md R63; log 5). -/
def execKryptohash (s : State) : Outcome State Fault Refusal :=
  if s.length ≠ khInBytes then .next (s.raise .eSize)
  else if (s.config.admits s.srcAddr khInBytes && s.config.admits s.dstAddr2 khOutBytes) = false then
    .next (s.raise .eBus)
  else
    let x := s.workInput
    let spm := Memory.writeBytes s.spm 0 (xofFn s.config.kshakeS1 x (8 * khInBytes) khScratchBytes)
    let dg := xofFn s.config.kshakeS2 (scratchpad spm) (8 * khScratchBytes) khOutBytes
    let count := xofPerms s.config.kshakeS1 x (8 * khInBytes) khScratchBytes
      + xofPerms s.config.kshakeS2 (scratchpad spm) (8 * khScratchBytes) khOutBytes
    .next (((s.forgetSpm.addPerms count).store s.dstAddr2 dg).complete khOutBytes)

end Sys2Proof.Machine
end

