-- ==== Sys2Proof/Machine/Squeezer.lean ====
section
/-! DEFINITION. The keccak_sponge_squeezer sub-block: SQUEEZE (spec/41_sponge_squeeze.md). -/

namespace Sys2Proof.Machine

open Host (Outcome)

/-- SQUEEZE (R150): checks E_INSTANCE, E_ORDER, E_LENGTH, the null-output no-op, E_BUS; writes the clamped number of
bytes. -/
def execSqueeze (iid : Nat) (fOut : Bool) (s : State) : Outcome State Fault Refusal :=
  match s.inst[iid]? with
  | none => .next (s.raise .eInstance)
  | some t =>
    if t.ph ≠ .squeeze then .next (s.raise .eOrder)
    else if s.length % 8 ≠ 0 then .next (s.raise .eLength)
    else if fOut = false ∨ s.length = 0 then .next (s.complete 0)
    else if s.config.admits s.dstAddr0 (s.config.clamp (s.length / 8)) = false then .next (s.raise .eBus)
    else
      let m := s.config.clamp (s.length / 8)
      let run := Instance.squeezeBytes m t
      .next ((((s.setInst iid run.1).addPerms (run.1.perms - t.perms)).store s.dstAddr0 run.2).complete m)

end Sys2Proof.Machine
end

