-- ==== Sys2Proof/Machine/Dispatch.lean ====
section
/-! DEFINITION. The meaning of each command, one arm per constructor of Instr (spec/30_encoding.md R93). -/

namespace Sys2Proof.Machine

def exec (i : Instr) (s : State) : Host.Outcome State Fault Refusal :=
  match i with
  | .init vid iid => Sys2Proof.Machine.execInit vid iid s
  | .absorb iid => Sys2Proof.Machine.execAbsorb iid s
  | .finalize iid fOut => Sys2Proof.Machine.execFinalize iid fOut s
  | .squeeze iid fOut => Sys2Proof.Machine.execSqueeze iid fOut s
  | .discard iid => Sys2Proof.Machine.execDiscard iid s
  | .hashFixed vid fOut => Sys2Proof.Machine.execHashFixed vid fOut s
  | .hashXof vid fOut => Sys2Proof.Machine.execHashXof vid fOut s
  | .kryptohash => Sys2Proof.Machine.execKryptohash s
  | .reorder => Sys2Proof.Machine.execReorder s

end Sys2Proof.Machine
end

