-- ==== Sys2Proof/Machine/HostPort.lean ====
section
/-! DEFINITION. The world outside the engine: register accesses, the register map on a bus, host accesses to HM, reset,
and other agents' writes during a command (spec/10_state.md R30 to R35; spec/20_memory.md R65, R68, R70, R73;
spec/70_reset_and_hazards.md R270). -/

namespace Sys2Proof.Machine

open Host (Outcome)

/-! ### Register accesses -/

/-- What a host read of a register returns; CMD reads as 0 (R35). No read has a side effect (R68). -/
def State.readReg (s : State) : Reg → Word64
  | .cfg => s.cfg
  | .status => s.status
  | .result => s.result
  | .cmd => 0
  | .arg0 => s.arg0
  | .arg1 => s.arg1
  | .arg2 => s.arg2
  | .arg3 => s.arg3

/-- A CMD write of v: decode and run the command, or E_OPCODE (R31; spec/30_encoding.md R92). -/
def runCommand (v : Word64) (s : State) : Outcome State Fault Refusal :=
  match decode v with
  | .error _ => .next (s.raise .eOpcode)
  | .ok i => exec i s

/-- A host write of v to a register (R35): STATUS and RESULT ignore it, CMD runs a command. -/
def writeReg (r : Reg) (v : Word64) (s : State) : Outcome State Fault Refusal :=
  match r with
  | .cfg => .next (s.writeCfg v)
  | .status => .next s
  | .result => .next s
  | .cmd => runCommand v s
  | .arg0 => .next { s with arg0 := v }
  | .arg1 => .next { s with arg1 := v }
  | .arg2 => .next { s with arg2 := v }
  | .arg3 => .next { s with arg3 := v }

/-- The host keeps the value its read returned (log 11). -/
def State.returnRead (s : State) (v : Word64) : State := { s with readData := v }

/-! ### The register map (R68) and the byte lanes of a bus (R65) -/

/-- The register at an offset (R68). -/
def regAt (offset : Nat) : Option Reg :=
  match offset with
  | 0x00 => some .cfg
  | 0x08 => some .status
  | 0x10 => some .result
  | 0x18 => some .cmd
  | 0x20 => some .arg0
  | 0x28 => some .arg1
  | 0x30 => some .arg2
  | 0x38 => some .arg3
  | _ => none

/-- The register that an access of `size` bytes at an offset reaches: a full 64-bit access at an offset of R68. -/
def accessed (offset size : Nat) : Option Reg := if size = 8 then regAt offset else none

/-- The value of byte lanes, little-endian (R65). -/
def lanesValue (lanes : List Byte) : Nat := lanes.foldr (fun b acc => b.toNat + 256 * acc) 0

/-- A bus write: a register write of the lanes' value, refused where R68 refuses it. -/
def busWrite (offset : Nat) (lanes : List Byte) (s : State) : Outcome State Fault Refusal :=
  match accessed offset lanes.length with
  | none => .refused (.registerAccess offset lanes.length)
  | some r => writeReg r (BitVec.ofNat 64 (lanesValue lanes)) s

/-- A bus read: a register read, refused where R68 refuses it. -/
def busRead (offset size : Nat) (s : State) : Outcome State Fault Refusal :=
  match accessed offset size with
  | none => .refused (.registerAccess offset size)
  | some r => .next (s.returnRead (s.readReg r))

/-! ### A command that reset or another agent meets while it executes -/

/-- The address a command's output goes to (R95; spec/30_encoding.md). -/
def destination (i : Instr) (s : State) : Nat :=
  match i with
  | .init _ _ => 0
  | .absorb _ => 0
  | .finalize _ _ => s.dstAddr0
  | .squeeze _ _ => s.dstAddr0
  | .discard _ => 0
  | .hashFixed _ _ => s.dstAddr2
  | .hashXof _ _ => s.dstAddr2
  | .kryptohash => s.dstAddr2
  | .reorder => s.dstAddr2

/-- A command abandoned by reset (R270): every byte of the range it would have written may hold any value, then the block
is reset. The range's length is the RESULT it would have left, which is 0 for a command that fails (log 9). -/
def abandon (v : Word64) (s : State) : Outcome State Fault Refusal :=
  match decode v with
  | .error _ => .next s.resetBlock
  | .ok i =>
    match exec i s with
    | .fault f => .fault f
    | .refused r => .refused r
    | .next t =>
      let n := t.result.toNat
      .next ((s.store (destination i s) (freeBytes s.draws n)).draw.resetBlock)

/-- HM as an engine reads it while another agent writes these bytes: each of them reads as any value (R73). -/
def scribble (d : Nat) : Nat → List (Word64 × Byte) → Memory → Memory
  | _, [], m => m
  | k, w :: rest, m => scribble d (k + 1) rest (Memory.write m w.1.toNat (Config.freeByte d k))

/-- HM after the command: a byte that only the other agent wrote holds its value; one that both wrote (an address in
[lo, lo + n)) holds either value (R73). `engine` is HM as the engine left it. -/
def settleWrites (engine : Memory) (lo n d : Nat) : Nat → List (Word64 × Byte) → Memory → Memory
  | _, [], m => m
  | k, w :: rest, m =>
    let a := w.1.toNat
    let b := if lo ≤ a ∧ a < lo + n ∧ Config.freeChoice d k = true then Memory.read engine a else w.2
    settleWrites engine lo n d (k + 1) rest (Memory.write m a b)

/-- A CMD write of v while another agent writes bytes of HM (R73; spec/70_reset_and_hazards.md R282; log 10). -/
def contend (v : Word64) (writes : List (Word64 × Byte)) (s : State) : Outcome State Fault Refusal :=
  let seen := { s with mem := scribble s.draws 0 writes s.mem, draws := s.draws + 1 }
  match decode v with
  | .error _ => .next { seen.raise .eOpcode with mem := settleWrites s.mem 0 0 s.draws 0 writes s.mem }
  | .ok i =>
    match exec i seen with
    | .fault f => .fault f
    | .refused r => .refused r
    | .next t =>
      .next { t with mem := settleWrites t.mem (destination i s) t.result.toNat s.draws 0 writes t.mem }

/-! ### One operation of the host's program -/

/-- What one operation of the outside world does (R21, R102). -/
def perform (op : HostOp) (s : State) : Outcome State Fault Refusal :=
  match op with
  | .wr r v => writeReg r v s
  | .rd r => .next (s.returnRead (s.readReg r))
  | .busWrite offset lanes => busWrite offset lanes s
  | .busRead offset size => busRead offset size s
  | .memWrite a b => .next { s with mem := Memory.write s.mem a.toNat b }
  | .memRead a => .next (s.returnRead ((Memory.read s.mem a.toNat).setWidth 64))
  | .reset => .next s.resetBlock
  | .cmdThenReset v => abandon v s
  | .cmdContended v writes => contend v writes s

/-- The host's program index moves to its next operation (R21). -/
def State.advance (s : State) : State := { s with pc := s.pc + 1 }

/-- The host's next operation, if its program has one (R21). -/
def State.nextOp (s : State) : Option HostOp := s.program[s.pc]?

/-- One step: refuse an ill-formed configuration (spec/00_scope.md R5); with no operation left the block holds its state
(spec/60_exceptions.md R260; log 12); else perform the host's next operation. -/
def hostStep (s : State) : Outcome State Fault Refusal :=
  if s.configured = true then
    match s.nextOp with
    | none => .next s
    | some op => perform op s.advance
  else .refused .illFormedConfiguration

/-- The host's program with this operation as its next one (log 11). -/
def State.placeOp (s : State) (op : HostOp) : State :=
  { s with program := s.program.take s.pc ++ op :: s.program.drop (s.pc + 1), pc := min s.pc s.program.length }

end Sys2Proof.Machine
end

