-- ==== Sys2Proof/Machine/Step.lean ====
section
/-! DEFINITION. One step of the machine, and the placing of a command where the next step meets it. -/

namespace Sys2Proof.Machine

/-- One step: the next operation of the host's program (spec/10_state.md R21). -/
def step (s : State) : Host.Outcome State Fault Refusal := hostStep s

/-- s with the command word w as the CMD write that is the host's next operation (log 11). -/
def State.withFetchWord (s : State) (nbits w : Nat) : State :=
  s.placeOp (.wr .cmd (BitVec.ofNat 64 (w % 2 ^ nbits)))

end Sys2Proof.Machine
end

