-- ==== Sys2Proof/Machine/Assembler.lean ====
section
/-! DEFINITION. The host-program syntax: `cmd` and the pseudo-instructions, each a list of base operations
(spec/30_encoding.md R102, R103). -/

namespace Sys2Proof.Machine.Asm

open Sys2Proof (encode Word64)

/-- `cmd <imm32>`, the same as `wr CMD, <imm32>` (R102). -/
def cmd (w : BitVec 32) : HostOp := .wr .cmd (w.setWidth 64)

/-- The command write of a command. -/
def run (i : Instr) : HostOp := cmd (encodeWord i)

/-- `init iII, VARIANT` -/
def init (iid vid : Nat) : List HostOp := [run (.init vid iid)]

/-- `init.custom iII, r, c, N, D, L` -/
def initCustom (iid r c n d l : Nat) : List HostOp :=
  [.wr .arg0 (BitVec.ofNat 64 (n <<< 32 ||| c <<< 16 ||| r)), .wr .arg1 (BitVec.ofNat 64 (l <<< 32 ||| d)),
    run (.init 0xFF iid)]

/-- `absorb iII, src, nbits` -/
def absorb (iid : Nat) (src nbits : Word64) : List HostOp :=
  [.wr .arg0 src, .wr .arg1 nbits, run (.absorb iid)]

/-- `finalize iII` -/
def finalizeNull (iid : Nat) : List HostOp := [run (.finalize iid false)]

/-- `finalize iII, dst` -/
def finalize (iid : Nat) (dst : Word64) : List HostOp := [.wr .arg0 dst, run (.finalize iid true)]

/-- `squeeze iII, dst, nbits` -/
def squeeze (iid : Nat) (dst nbits : Word64) : List HostOp :=
  [.wr .arg0 dst, .wr .arg1 nbits, run (.squeeze iid true)]

/-- `squeeze.null iII, nbits` -/
def squeezeNull (iid : Nat) (nbits : Word64) : List HostOp := [.wr .arg1 nbits, run (.squeeze iid false)]

/-- `discard iII` -/
def discard (iid : Nat) : List HostOp := [run (.discard iid)]

/-- `hash.fixed VARIANT, src, nbits, dst` -/
def hashFixed (vid : Nat) (src nbits dst : Word64) : List HostOp :=
  [.wr .arg0 src, .wr .arg1 nbits, .wr .arg2 dst, run (.hashFixed vid true)]

/-- `hash.fixed.null VARIANT, src, nbits` -/
def hashFixedNull (vid : Nat) (src nbits : Word64) : List HostOp :=
  [.wr .arg0 src, .wr .arg1 nbits, run (.hashFixed vid false)]

/-- `hash.xof VARIANT, src, nbits, dst, nbytes` -/
def hashXof (vid : Nat) (src nbits dst nbytes : Word64) : List HostOp :=
  [.wr .arg0 src, .wr .arg1 nbits, .wr .arg2 dst, .wr .arg3 nbytes, run (.hashXof vid true)]

/-- `hash.xof.null VARIANT, src, nbits, nbytes` -/
def hashXofNull (vid : Nat) (src nbits nbytes : Word64) : List HostOp :=
  [.wr .arg0 src, .wr .arg1 nbits, .wr .arg3 nbytes, run (.hashXof vid false)]

/-- `kryptohash src, len, dst` -/
def kryptohash (src len dst : Word64) : List HostOp :=
  [.wr .arg0 src, .wr .arg1 len, .wr .arg2 dst, run .kryptohash]

/-- `reorder src, len, dst` -/
def reorder (src len dst : Word64) : List HostOp :=
  [.wr .arg0 src, .wr .arg1 len, .wr .arg2 dst, run .reorder]

/-- `kshake1 src, dst`: stage 1 alone -/
def kshake1 (src dst : Word64) : List HostOp :=
  hashXof 0x10 src (BitVec.ofNat 64 khRate1Bits) dst (BitVec.ofNat 64 khScratchBytes)

/-- `kshake2 src, dst`: stage 2 alone -/
def kshake2 (src dst : Word64) : List HostOp :=
  hashXof 0x11 src (BitVec.ofNat 64 (8 * khScratchBytes)) dst (BitVec.ofNat 64 khOutBytes)

end Sys2Proof.Machine.Asm
end

