-- ==== Sys2Proof/Machine/Causes.lean ====
section
/-! DEFINITION. The causes of the status codes as spec/60_exceptions.md R240 lists them, and the order of R241, apart from
the commands' own check lists. The engine does not use these; statements compare exec with them. -/

namespace Sys2Proof.Machine

/-- The instance id of a command that names one. -/
def iidOf : Instr → Option Nat
  | .init _ iid => some iid
  | .absorb iid => some iid
  | .finalize iid _ => some iid
  | .squeeze iid _ => some iid
  | .discard iid => some iid
  | .hashFixed _ _ => none
  | .hashXof _ _ => none
  | .kryptohash => none
  | .reorder => none

/-- The instance a command operates on, where it exists. -/
def targetOf (i : Instr) (s : State) : Option Instance := (iidOf i).bind fun k => s.inst[k]?

/-- The phases in which a command is legal (spec/10_state.md R23). -/
def phaseLegal (i : Instr) (p : Phase) : Bool :=
  match i with
  | .absorb _ => decide (p = .absorb)
  | .finalize _ _ => decide (p = .absorb)
  | .squeeze _ _ => decide (p = .squeeze)
  | .init _ _ => true
  | .discard _ => true
  | .hashFixed _ _ => true
  | .hashXof _ _ => true
  | .kryptohash => true
  | .reorder => true

/-- E_INSTANCE: IID >= NUM_INSTANCES (R240). -/
def causeInstance (i : Instr) (s : State) : Bool := (iidOf i).any fun k => decide (s.numInstances ≤ k)

/-- E_PARAM: a VID not legal for the command, or illegal custom parameters (R240). -/
def causeParam (i : Instr) (s : State) : Bool :=
  match i with
  | .init vid _ => (s.initParams vid).isNone
  | .hashFixed vid _ => (s.config.fixedVariant vid).isNone
  | .hashXof vid _ => (s.config.xofVariant vid).isNone
  | _ => false

/-- E_ORDER: the instance's phase does not allow the command (R240). -/
def causeOrder (i : Instr) (s : State) : Bool := (targetOf i s).any fun t => !phaseLegal i t.ph

/-- E_LENGTH: an ABSORB with n > 0 after a partial-byte ABSORB, or a SQUEEZE bit length that is no multiple of 8 (R240). -/
def causeLength (i : Instr) (s : State) : Bool :=
  match i with
  | .absorb _ => decide (0 < s.length) && (targetOf i s).any fun t => t.partialByte
  | .squeeze _ _ => decide (s.length % 8 ≠ 0)
  | _ => false

/-- E_SIZE: KRYPTOHASH len != 120, or REORDER len not a multiple of RW_BYTES (R240). -/
def causeSize (i : Instr) (s : State) : Bool :=
  match i with
  | .kryptohash => decide (s.length ≠ khInBytes)
  | .reorder => decide (s.length % s.config.rwBytes ≠ 0)
  | _ => false

/-- The null/zero-length no-op (R241 item 7; spec/41_sponge_squeeze.md R150; spec/42_hash_instantiator.md R180, R182). -/
def nullOutput (i : Instr) (s : State) : Bool :=
  match i with
  | .squeeze _ f => !f || decide (s.length = 0)
  | .hashFixed _ f => !f
  | .hashXof _ f => !f || decide (s.outBytes = 0)
  | _ => false

/-- The ranges of HM a command needs: address and byte count (spec/20_memory.md R61, R62; spec/30_encoding.md R95). -/
def neededRanges (i : Instr) (s : State) : List (Nat × Nat) :=
  match i with
  | .init _ _ => []
  | .discard _ => []
  | .absorb _ => [(s.srcAddr, inputBytes s.length)]
  | .finalize _ f =>
    match targetOf i s with
    | none => []
    | some t => if f = true ∧ 0 < t.prm.n then [(s.dstAddr0, t.prm.n / 8)] else []
  | .squeeze _ _ => [(s.dstAddr0, s.config.clamp (s.length / 8))]
  | .hashFixed vid _ =>
    match s.config.fixedVariant vid with
    | none => []
    | some p => [(s.srcAddr, inputBytes s.length), (s.dstAddr2, p.n / 8)]
  | .hashXof _ _ => [(s.srcAddr, inputBytes s.length), (s.dstAddr2, s.config.clamp s.outBytes)]
  | .kryptohash => [(s.srcAddr, khInBytes), (s.dstAddr2, khOutBytes)]
  | .reorder => [(s.srcAddr, s.length), (s.dstAddr2, s.length)]

/-- The ranges of HM a command reads: its source buffer, if it has one (spec/20_memory.md R66, R67; spec/30_encoding.md R95). -/
def sourceRanges (i : Instr) (s : State) : List (Nat × Nat) :=
  match i with
  | .init _ _ => []
  | .absorb _ => [(s.srcAddr, inputBytes s.length)]
  | .finalize _ _ => []
  | .squeeze _ _ => []
  | .discard _ => []
  | .hashFixed _ _ => [(s.srcAddr, inputBytes s.length)]
  | .hashXof _ _ => [(s.srcAddr, inputBytes s.length)]
  | .kryptohash => [(s.srcAddr, khInBytes)]
  | .reorder => [(s.srcAddr, s.length)]

/-- E_BUS: a memory range the command needs is not admitted (R240). -/
def causeBus (i : Instr) (s : State) : Bool := (neededRanges i s).any fun w => !s.config.admits w.1 w.2

/-- The one code a decoded command reports: the first cause in the order of R241, where the null output comes before
E_BUS and completes with OK. -/
def reportedCode (i : Instr) (s : State) : Code :=
  if causeInstance i s then .eInstance
  else if causeParam i s then .eParam
  else if causeOrder i s then .eOrder
  else if causeLength i s then .eLength
  else if causeSize i s then .eSize
  else if nullOutput i s then .ok
  else if causeBus i s then .eBus
  else .ok

/-! ### Sequences of commands -/

/-- ABSORB commands on one instance, one for each (src, n): the host writes ARG[0] and ARG[1] and then the command. `none`
when one of them does not complete with OK. -/
def absorbAll (iid : Nat) : List (Word64 × Word64) → State → Option State
  | [], s => some s
  | x :: rest, s =>
    match exec (.absorb iid) { s with arg0 := x.1, arg1 := x.2 } with
    | .next t => if t.code = .ok then absorbAll iid rest t else none
    | .fault _ => none
    | .refused _ => none

/-- The bits a buffer of HM gives: `bitsOf` of n bits at address a, bit k from bit (k mod 8) of byte k div 8
(spec/00_scope.md R8). -/
def bitsAt (m : Memory) (a n : Nat) : List Bool :=
  (List.range n).map fun k => (Memory.read m (a + k / 8)).getLsbD (k % 8)

end Sys2Proof.Machine
end

