-- ==== Sys2Proof/Machine/Stream.lean ====
section
/-! DEFINITION. The sponge as the spec's stream equations give it, apart from the engine's queue and counters: the padded
stream X and the states S_b (spec/40_sponge_absorb.md R133), and the output stream Z (spec/41_sponge_squeeze.md R154).
The engine does not use these; statements compare it with them. -/

namespace Sys2Proof.Machine

/-- A bit string as 200 bytes, the rest 0: `X_b || 0^(c/8) bytes` of R133 for a block of r bits (spec/00_scope.md R8). -/
def packBits (bits : List Bool) : Bytes200 :=
  Vector.ofFn fun j : Fin stateBytes => (List.range 8).foldl
    (fun acc k => acc ||| (BitVec.ofBool (bits.getD (8 * j.val + k) false)).setWidth 8 <<< k) (0 : Byte)

/-- `X = M || D || 1 || 0^j || 1` (R133). -/
def paddedStream (d m : List Bool) (j : Nat) : List Bool := m ++ d ++ [true] ++ List.replicate j false ++ [true]

/-- `X_b`: bits b*r .. b*r + r - 1 of X (R133). -/
def blockOf (r : Nat) (x : List Bool) (b : Nat) : List Bool := (x.drop (b * r)).take r

/-- XOR of two 200-byte strings. -/
def xorBytes (s x : Bytes200) : Bytes200 := Vector.ofFn fun j : Fin stateBytes => s[j] ^^^ x[j]

/-- `S_0 = 0^200` and `S_(b+1) = PERM(S_b xor (X_b || 0^(c/8) bytes))` (R133). -/
def streamState (r : Nat) (x : List Bool) : Nat → Bytes200
  | 0 => zero200
  | b + 1 => Config.perm (xorBytes (streamState r x b) (packBits (blockOf r x b)))

/-- `PERM^k(S)`. -/
def permIter : Nat → Bytes200 → Bytes200
  | 0, s => s
  | k + 1, s => permIter k (Config.perm s)

/-- `Z[k]`: byte k of the output stream of an instance finalized with state S (R154). -/
def outputByte (r : Nat) (s : Bytes200) (k : Nat) : Byte := byteAt (permIter (k / (r / 8)) s) (k % (r / 8))

end Sys2Proof.Machine
end

