-- ==== Sys2Proof/Safety.lean ====
section
/-! DEFINITION. What counts as a good state, and the invariants the spec states between commands. -/

namespace Sys2Proof

open Sys2Proof.Machine

/-- The constraints on bound SpongeParameters (spec/10_state.md R26, R27). -/
structure Params.Legal (p : Params) : Prop where
  rate_pos : 0 < p.r
  rate_lt : p.r < wBits
  rate_granule : p.r % rateGranule = 0
  sum : p.r + p.c = wBits
  suffix_le : p.d.length ≤ suffixMaxBits
  digest_bytes : p.n % 8 = 0
  digest_le : p.n ≤ p.r
  kind_fixed : p.kind = .fixed ↔ 0 < p.n

namespace Machine

/-- The invariants of an instance in phase ABSORB, SQUEEZE or DONE between commands (spec/10_state.md R23 to R27). -/
structure Instance.Sound (t : Instance) : Prop where
  params : t.prm.Legal
  queue_lt : t.qb < t.prm.r
  queue_clear : ∀ p, t.qb ≤ p → bitAt t.q p = false
  avail_le : t.av ≤ t.prm.r / 8
  squeeze_xof : t.ph = .squeeze → t.prm.n = 0 ∧ t.qb = 0
  done_fixed : t.ph = .done → 0 < t.prm.n ∧ t.qb = 0

/-- What holds of every state between commands: the configuration is well-formed, every bound instance is sound, and both
memories are canonical, SPM within its 65520 bytes. -/
structure State.Inv (s : State) : Prop where
  configured : s.configured = true
  instances : ∀ t ∈ s.inst, t.ph ≠ .none → t.Sound
  mem_wf : Memory.wf s.mem
  spm_wf : Memory.wf s.spm
  spm_size : ∀ cell ∈ s.spm, cell.1 < khScratchBytes

/-- A good final state: no command of the run completed with an error (spec/60_exceptions.md R245). -/
def State.good (s : State) : Bool := !s.fault

end Machine

end Sys2Proof
end

