-- ==== Sys2Proof/WellFormed.lean ====
section
/-! DEFINITION. Which terms of Instr are commands: VID and IID are 8-bit fields, so naturals 0..255
(spec/30_encoding.md R90, R91). -/

namespace Sys2Proof

/-- A value of an 8-bit field of the command word (R91). -/
def Instr.byteField (x : Nat) : Bool := decide (x < 256)

/-- The command's fields fit the command word (R90, R91). -/
def Instr.wf : Instr → Bool
  | .init vid iid => byteField vid && byteField iid
  | .absorb iid => byteField iid
  | .finalize iid _ => byteField iid
  | .squeeze iid _ => byteField iid
  | .discard iid => byteField iid
  | .hashFixed vid _ => byteField vid
  | .hashXof vid _ => byteField vid
  | .kryptohash => true
  | .reorder => true

end Sys2Proof
end

