-- ==== Sys2Proof/Certificates/Slice0/Obligations.lean ====
section
/-! DEFINITION. The statements for the provers, each a proposition over the model. -/

open Sys2Proof Sys2Proof.Machine

/-! ### Encoding -/

/-- Decoding the encoding of a well-formed command gives it back, for every command and every field value
(30_encoding.md R90, R92 to R94). -/
def Obligations.DecodeOfEncode : Prop :=
  ∀ i : Instr, i.wf = true → decode (encode i) = .ok i

/-- Each CMD value has at most one meaning: a value that decodes is the encoding of the well-formed command it decodes to
(30_encoding.md R90 to R94). -/
def Obligations.EncodeOfDecode : Prop :=
  ∀ (v : Word64) (i : Instr), decode v = .ok i → i.wf = true ∧ encode i = v

/-- A command word is a row's opcode exactly when (w & mask) == match (30_encoding.md R94). -/
def Obligations.TableRowsSelectCommands : Prop :=
  ∀ (w : BitVec 32) (row : Instr),
    w &&& (matchMask row).2 = (matchMask row).1 ↔
      ∃ i, decode (w.setWidth 64) = .ok i ∧ matchMask i = matchMask row

/-- The first failing check of R92 rejects, and a value that fails none is a command. The must-be-zero fields are those of
R94's table: VID, IID or F_OUT where the row says 0. -/
def Obligations.FirstFailingDecodeCheckRejects : Prop :=
  ∀ v : Word64,
    let op := field v 31 24
    let mustBeZero :=
      (op ∈ [0x02, 0x03, 0x04, 0x05, 0x20, 0x21] ∧ field v 23 16 ≠ 0)
        ∨ (op ∈ [0x10, 0x11, 0x20, 0x21] ∧ field v 15 8 ≠ 0)
        ∨ (op ∈ [0x01, 0x02, 0x05, 0x20, 0x21] ∧ field v 0 0 ≠ 0)
    if field v 63 32 ≠ 0 then decode v = .error .highWord
    else if op ∉ [0x01, 0x02, 0x03, 0x04, 0x05, 0x10, 0x11, 0x20, 0x21] then decode v = .error .reservedOpcode
    else if field v 7 1 ≠ 0 then decode v = .error .reservedBits
    else (mustBeZero → decode v = .error .mustBeZero) ∧ (¬mustBeZero → ∃ i, decode v = .ok i)

/-- One word of each command, written out from R90 and R93, and words that R101 makes illegal. -/
def Obligations.SpecWordsDecode : Prop :=
  decode 0x01020000 = .ok (.init 0x02 0x00) ∧ decode 0x01FF0300 = .ok (.init 0xFF 0x03)
    ∧ decode 0x02000100 = .ok (.absorb 1) ∧ decode 0x03000001 = .ok (.finalize 0 true)
    ∧ decode 0x04000201 = .ok (.squeeze 2 true) ∧ decode 0x05000300 = .ok (.discard 3)
    ∧ decode 0x10020000 = .ok (.hashFixed 0x02 false) ∧ decode 0x11080001 = .ok (.hashXof 0x08 true)
    ∧ decode 0x20000000 = .ok .kryptohash ∧ decode 0x21000000 = .ok .reorder
    ∧ decode 0 = .error .reservedOpcode ∧ decode 0x06000000 = .error .reservedOpcode
    ∧ decode 0x0000000101020000 = .error .highWord ∧ decode 0x01020002 = .error .reservedBits
    ∧ decode 0x01020001 = .error .mustBeZero ∧ decode 0x02010000 = .error .mustBeZero
    ∧ decode 0x20000001 = .error .mustBeZero

/-! ### Steps and the register interface -/

/-- When the host's next operation is a CMD write whose value decodes to i, the step is exec of i at the state in which the
host's program index has moved on (10_state.md R31, R21; the program in State is the model's form, log 11). -/
def Obligations.StepRunsDecodedCommand : Prop :=
  ∀ (s : State) (v : Word64) (i : Instr),
    s.configured = true → s.program[s.pc]? = some (.wr .cmd v) → decode v = .ok i →
      step s = exec i { s with pc := s.pc + 1 }

/-- The word of a well-formed command, placed as the host's next operation, is run by the very next step (the placing is the model's
own, log 11). -/
def Obligations.PlacedCommandRuns : Prop :=
  ∀ (s : State) (i : Instr), s.configured = true → i.wf = true →
    ∃ u : State, step (s.withFetchWord 32 (encodeWord i).toNat) = exec i u
      ∧ u = { s with program := u.program, pc := min s.pc s.program.length + 1 }

/-- An illegal encoding ends the command with E_OPCODE and no other effect (30_encoding.md R101): a reserved OP, a non-zero
v[63:32], a non-zero RSV or a non-zero must-be-zero field. -/
def Obligations.IllegalEncodingEndsWithEOpcode : Prop :=
  ∀ (s : State) (v : Word64),
    s.configured = true → s.program[s.pc]? = some (.wr .cmd v) →
    (field v 63 32 ≠ 0
      ∨ field v 31 24 ∉ [0x01, 0x02, 0x03, 0x04, 0x05, 0x10, 0x11, 0x20, 0x21]
      ∨ field v 7 1 ≠ 0
      ∨ (field v 31 24 ∈ [0x02, 0x03, 0x04, 0x05, 0x20, 0x21] ∧ field v 23 16 ≠ 0)
      ∨ (field v 31 24 ∈ [0x10, 0x11, 0x20, 0x21] ∧ field v 15 8 ≠ 0)
      ∨ (field v 31 24 ∈ [0x01, 0x02, 0x05, 0x20, 0x21] ∧ field v 0 0 ≠ 0)) →
      step s = .next { s with pc := s.pc + 1, code := .eOpcode, fault := true, result := 0 }

/-- Host writes of the registers other than CMD (10_state.md R35): CFG stores bit 0, STATUS and RESULT ignore the write,
ARG[k] stores the value. -/
def Obligations.RegisterWritesFollowAccessRights : Prop :=
  ∀ (s : State) (r : Reg) (v : Word64),
    s.configured = true → s.program[s.pc]? = some (.wr r v) → r ≠ .cmd →
      step s = .next
        { s with
          pc := s.pc + 1
          reorderEn := if r = .cfg then decide (v.toNat % 2 = 1) else s.reorderEn
          arg0 := if r = .arg0 then v else s.arg0
          arg1 := if r = .arg1 then v else s.arg1
          arg2 := if r = .arg2 then v else s.arg2
          arg3 := if r = .arg3 then v else s.arg3 }

/-- Host reads (10_state.md R32 to R35): the value read, with the fields of CFG and STATUS at their bits, reserved bits 0
and CMD 0; a read has no other effect. -/
def Obligations.RegisterReadsReturnFields : Prop :=
  ∀ (s : State) (r : Reg), s.configured = true → s.program[s.pc]? = some (.rd r) →
    ∃ v : Word64, step s = .next { s with pc := s.pc + 1, readData := v } ∧
      (r = .cfg → field v 0 0 = s.reorderEn.toNat ∧ field v 63 1 = 0) ∧
      (r = .status → field v 7 0 = s.code.value ∧ field v 8 8 = s.fault.toNat ∧ field v 63 9 = 0) ∧
      (r = .result → v = s.result) ∧ (r = .cmd → v = 0) ∧
      (r = .arg0 → v = s.arg0) ∧ (r = .arg1 → v = s.arg1) ∧ (r = .arg2 → v = s.arg2) ∧ (r = .arg3 → v = s.arg3)

/-- Only a full 64-bit access at an offset of R68's map reaches a register; any other is refused (20_memory.md R68). A write
puts lane k into bits 8k+7 .. 8k of the register's value (R65), and a read is the register's read. -/
def Obligations.BusAccessesAreFullRegisters : Prop :=
  (∀ (s : State) (offset size : Nat),
    s.configured = true → s.program[s.pc]? = some (.busRead offset size) →
      (size ≠ 8 ∨ offset ∉ [0x00, 0x08, 0x10, 0x18, 0x20, 0x28, 0x30, 0x38] →
        step s = .refused (.registerAccess offset size)) ∧
      ∀ r : Reg,
        size = 8 → [(0x00, Reg.cfg), (0x08, .status), (0x10, .result), (0x18, .cmd), (0x20, .arg0), (0x28, .arg1),
          (0x30, .arg2), (0x38, .arg3)].lookup offset = some r →
        step s = .next { s with pc := s.pc + 1, readData := s.readReg r }) ∧
  ∀ (s : State) (offset : Nat) (lanes : List Byte),
    s.configured = true → s.program[s.pc]? = some (.busWrite offset lanes) →
      (lanes.length ≠ 8 ∨ offset ∉ [0x00, 0x08, 0x10, 0x18, 0x20, 0x28, 0x30, 0x38] →
        step s = .refused (.registerAccess offset lanes.length)) ∧
      (lanes.length = 8 → offset ∈ [0x00, 0x08, 0x10, 0x18, 0x20, 0x28, 0x30, 0x38] →
        ∃ (r : Reg) (v : Word64),
          [(0x00, Reg.cfg), (0x08, .status), (0x10, .result), (0x18, .cmd), (0x20, .arg0), (0x28, .arg1),
            (0x30, .arg2), (0x38, .arg3)].lookup offset = some r ∧
          (∀ k < 8, field v (8 * k + 7) (8 * k) = (lanes.getD k 0).toNat) ∧
          step s = writeReg r v s.advance)

/-- A step refuses an ill-formed configuration (00_scope.md R5), and a block with no host operation left holds its state
(60_exceptions.md R260; the model's choice of log 12). -/
def Obligations.StepRefusesOrIdles : Prop :=
  ∀ s : State,
    (s.configured = false → step s = .refused .illFormedConfiguration) ∧
    (s.configured = true → s.program.length ≤ s.pc → step s = .next s)

/-! ### Reset -/

/-- Reset between commands: every register and every PH at its reset value, HM unchanged (70_reset_and_hazards.md R270;
10_state.md R38). That the host's program goes on is the model's choice (log 8). -/
def Obligations.ResetClearsRegistersAndPhases : Prop :=
  ∀ s : State, s.configured = true → s.program[s.pc]? = some .reset →
    ∃ t : State, step s = .next t ∧ t.reorderEn = false ∧ t.code = .ok ∧ t.fault = false ∧ t.result = 0
      ∧ t.arg0 = 0 ∧ t.arg1 = 0 ∧ t.arg2 = 0 ∧ t.arg3 = 0
      ∧ t.inst.length = s.inst.length ∧ (∀ u ∈ t.inst, u.ph = .none)
      ∧ t.mem = s.mem ∧ t.config = s.config ∧ t.program = s.program ∧ t.pc = s.pc + 1

/-- The state after reset has the values R38 gives, for every configuration and number of instances. -/
def Obligations.ResetStateValues : Prop :=
  ∀ (c : Config) (n : Nat),
    let s := State.resetWith c n
    s.cfg = 0 ∧ s.status = 0 ∧ s.result = 0 ∧ s.arg0 = 0 ∧ s.arg1 = 0 ∧ s.arg2 = 0 ∧ s.arg3 = 0
      ∧ s.inst.length = n ∧ ∀ u ∈ s.inst, u.ph = .none

/-- The state after reset meets the invariant, for every well-formed configuration and number of instances, State.reset
among them (the values it names where R38 gives none are the model's: log 1, 4, 5, 6). -/
def Obligations.ResetStateMeetsInvariant : Prop :=
  (∀ (c : Config) (n : Nat), c.wf = true → 1 ≤ n → n ≤ 256 → (State.resetWith c n).Inv) ∧ State.reset.Inv

/-- Every step keeps the invariant: the configuration stays well-formed, every bound instance keeps r + c = 1600, the
constraints of R26, QB < r, clear bits above QB and AV <= r/8 (10_state.md R23 to R27), and both memories stay
canonical. -/
def Obligations.StepKeepsInvariant : Prop :=
  ∀ s t : State, s.Inv → step s = .next t → t.Inv

/-- A command abandoned by reset changes no byte of HM outside the range it would have written, none at all where its
encoding is illegal, and the block is reset: every register and every PH at its reset value (70_reset_and_hazards.md R270;
10_state.md R38). The range's length is the model's reading (log 9), and so is that the host's program goes on (log 8). -/
def Obligations.AbandonedCommandTouchesOnlyDestination : Prop :=
  ∀ (s t : State) (v : Word64),
    s.configured = true → s.program[s.pc]? = some (.cmdThenReset v) → step s = .next t →
      (∀ (i : Instr) (u : State), decode v = .ok i → exec i { s with pc := s.pc + 1 } = .next u →
        ∀ a, ¬(destination i s ≤ a ∧ a < destination i s + u.result.toNat) → Memory.read t.mem a = Memory.read s.mem a)
      ∧ (∀ e : Reject, decode v = .error e → t.mem = s.mem)
      ∧ t.reorderEn = false ∧ t.code = .ok ∧ t.fault = false ∧ t.result = 0
      ∧ t.arg0 = 0 ∧ t.arg1 = 0 ∧ t.arg2 = 0 ∧ t.arg3 = 0
      ∧ t.inst.length = s.inst.length ∧ (∀ w ∈ t.inst, w.ph = .none)
      ∧ t.config = s.config ∧ t.program = s.program ∧ t.pc = s.pc + 1

/-- A byte that another agent writes while a command executes: outside the command's destination it holds the agent's
value; inside, the engine's or the agent's (20_memory.md R73). Every other byte is as the command left it.
The form of the operation is the model's (log 10). -/
def Obligations.ContendedByteHoldsEitherValue : Prop :=
  ∀ (s t : State) (v : Word64) (i : Instr) (a : Word64) (b : Byte),
    s.configured = true → s.program[s.pc]? = some (.cmdContended v [(a, b)]) → decode v = .ok i →
    step s = .next t →
      ∃ u : State,
        exec i { s with
          pc := s.pc + 1, draws := s.draws + 1
          mem := Memory.write s.mem a.toNat (Config.freeByte s.draws 0) } = .next u ∧
        (Memory.read t.mem a.toNat = b
          ∨ (destination i s ≤ a.toNat ∧ a.toNat < destination i s + u.result.toNat
              ∧ Memory.read t.mem a.toNat = Memory.read u.mem a.toNat)) ∧
        (∀ x, x ≠ a.toNat → Memory.read t.mem x = Memory.read u.mem x) ∧
        t.inst = u.inst ∧ t.code = u.code ∧ t.result = u.result

/-! ### Completion, status codes and frames -/

/-- Every command completes: no command is stopped by the model (60_exceptions.md R240, R245). -/
def Obligations.EveryCommandCompletes : Prop :=
  ∀ (i : Instr) (s : State), ∃ t : State, exec i s = .next t

/-- A command that fails writes CODE, FAULT and RESULT and nothing else (60_exceptions.md R243): for every command, and for
every CMD value, the illegal ones among them. -/
def Obligations.FailedCommandWritesOnlyStatus : Prop :=
  (∀ (i : Instr) (s t : State), exec i s = .next t → t.code ≠ .ok →
    t = { s with code := t.code, fault := true, result := 0 }) ∧
  ∀ (v : Word64) (s t : State), runCommand v s = .next t → t.code ≠ .ok →
    t = { s with code := t.code, fault := true, result := 0 }

/-- The code a CMD write of v reports is the first cause in the order of R241: E_OPCODE for a value that does not decode, else
the first of the command's causes as R240 states them, the null output before E_BUS. -/
def Obligations.ReportedCodeIsFirstCause : Prop :=
  (∀ (v : Word64) (r : Reject) (s t : State), decode v = .error r → runCommand v s = .next t → t.code = .eOpcode) ∧
  (∀ (v : Word64) (i : Instr) (s t : State), decode v = .ok i → runCommand v s = .next t → t.code = reportedCode i s) ∧
  ∀ (i : Instr) (s t : State), exec i s = .next t → t.code = reportedCode i s

/-- A success leaves STATUS.FAULT unchanged (60_exceptions.md R242), and RESULT is the number of bytes written: 0 for INIT,
ABSORB, DISCARD and the null outputs, N/8 for a digest, the clamped count for an extendable output, 40 for KRYPTOHASH, len
for REORDER. -/
def Obligations.SuccessReportsByteCount : Prop :=
  ∀ (i : Instr) (s t : State), exec i s = .next t → t.code = .ok →
    t.fault = s.fault ∧
    t.result = BitVec.ofNat 64
      (match i with
        | .init _ _ => 0
        | .absorb _ => 0
        | .discard _ => 0
        | .finalize iid f => if f then ((s.inst[iid]?).elim 0 fun u => u.prm.n / 8) else 0
        | .squeeze _ f => if f then min (s.arg1.toNat / 8) s.config.xofMaxBytes else 0
        | .hashFixed vid f => if f then ((s.config.variant vid).elim 0 fun p => p.n / 8) else 0
        | .hashXof _ f => if f then min s.arg3.toNat s.config.xofMaxBytes else 0
        | .kryptohash => 40
        | .reorder => s.arg1.toNat)

/-- Frame, registers: no command writes ARG[0..3], CFG, the configuration or the host's program, index and last read
(10_state.md R30, R35, R170). -/
def Obligations.CommandsLeaveHostRegisters : Prop :=
  ∀ (i : Instr) (s t : State), exec i s = .next t →
    t.arg0 = s.arg0 ∧ t.arg1 = s.arg1 ∧ t.arg2 = s.arg2 ∧ t.arg3 = s.arg3 ∧ t.reorderEn = s.reorderEn
      ∧ t.config = s.config ∧ t.program = s.program ∧ t.pc = s.pc ∧ t.readData = s.readData

/-- Frame, memory of the commands that store nothing: INIT, ABSORB, DISCARD, and the forms with F_OUT = 0, leave every byte
of HM, and only KRYPTOHASH writes SPM (20_memory.md R63, R66). -/
def Obligations.NonStoringFormsLeaveMemory : Prop :=
  ∀ (i : Instr) (s t : State), exec i s = .next t →
    (match i with
      | .init _ _ => True
      | .absorb _ => True
      | .discard _ => True
      | .finalize _ f => f = false
      | .squeeze _ f => f = false
      | .hashFixed _ f => f = false
      | .hashXof _ f => f = false
      | .kryptohash => False
      | .reorder => False) →
      t.mem = s.mem ∧ t.spm = s.spm

/-- Frame, memory of the commands that store: every byte of HM outside the destination range of the form is unchanged. The
range starts at ARG[0] for FINALIZE and SQUEEZE and at ARG[2] for the others; its length is the form's byte count
(20_memory.md R66; 30_encoding.md R95). -/
def Obligations.StoringFormsWriteOnlyDestination : Prop :=
  ∀ (i : Instr) (s t : State) (lo n : Nat), exec i s = .next t →
    (match i with
      | .init _ _ => False
      | .absorb _ => False
      | .discard _ => False
      | .finalize iid _ => lo = s.arg0.toNat ∧ n = (s.inst[iid]?).elim 0 fun u => u.prm.n / 8
      | .squeeze _ _ => lo = s.arg0.toNat ∧ n = min (s.arg1.toNat / 8) s.config.xofMaxBytes
      | .hashFixed vid _ => lo = s.arg2.toNat ∧ n = (s.config.variant vid).elim 0 fun p => p.n / 8
      | .hashXof _ _ => lo = s.arg2.toNat ∧ n = min s.arg3.toNat s.config.xofMaxBytes
      | .kryptohash => lo = s.arg2.toNat ∧ n = 40
      | .reorder => lo = s.arg2.toNat ∧ n = s.arg1.toNat) →
      (∀ a, ¬(lo ≤ a ∧ a < lo + n) → Memory.read t.mem a = Memory.read s.mem a)
      ∧ ((∀ a, Memory.read t.mem a = Memory.read s.mem a) ∨ s.config.admits lo n = true)
      ∧ (i ≠ .kryptohash → t.spm = s.spm)

/-- Frame, instance file (10_state.md R29, a table that the spec marks as derived): the one-shot commands, KRYPTOHASH and
REORDER change no instance; the others change at most the instance they name, ABSORB only its Q, QB, S, FINALIZE not its
PRM, SQUEEZE only its S and AV (the PERM count is the model's own, log 16). INIT writes every field. DISCARD is excepted:
its row lists PH alone, but R135 makes the other fields unspecified, and the model frees them (log 7). -/
def Obligations.InstanceFieldsWrittenAsListed : Prop :=
  ∀ (i : Instr) (s t : State), exec i s = .next t →
    t.inst.length = s.inst.length ∧
    (∀ k, iidOf i ≠ some k → t.inst[k]? = s.inst[k]?) ∧
    ∀ k u w, iidOf i = some k → s.inst[k]? = some u → t.inst[k]? = some w →
      match i with
      | .absorb _ => w = { u with q := w.q, qb := w.qb, s := w.s, perms := w.perms }
      | .finalize _ _ => w = { u with q := w.q, qb := w.qb, s := w.s, av := w.av, ph := w.ph, perms := w.perms }
      | .squeeze _ _ => w = { u with s := w.s, av := w.av, perms := w.perms }
      | _ => True

/-- The phases move only forward, NONE -> ABSORB -> SQUEEZE or DONE, except by INIT and DISCARD, and no squeezed or finalized
instance absorbs again (10_state.md R23). -/
def Obligations.PhasesMoveForward : Prop :=
  ∀ (i : Instr) (s t : State) (k : Nat) (u w : Instance),
    exec i s = .next t → s.inst[k]? = some u → t.inst[k]? = some w → w.ph ≠ u.ph →
      (∃ vid, i = .init vid k ∧ w.ph = .absorb) ∨ (i = .discard k ∧ w.ph = .none) ∨
      (∃ f, i = .finalize k f ∧ u.ph = .absorb ∧ w.ph = if 0 < u.prm.n then .done else .squeeze)

/-- STATUS.FAULT, once set, is cleared by nothing except reset (10_state.md R33, R36). -/
def Obligations.FaultIsStickyExceptReset : Prop :=
  ∀ s t : State, s.fault = true → step s = .next t → t.fault = false →
    s.program[s.pc]? = some .reset ∨ ∃ v, s.program[s.pc]? = some (.cmdThenReset v)

/-! ### INIT and DISCARD -/

/-- INIT of a named variant (40_sponge_absorb.md R121), legal in every phase. The field perms is the model's own (log 16). -/
def Obligations.InitBindsNamedVariant : Prop :=
  ∀ (s : State) (vid iid : Nat) (p : Params),
    iid < s.inst.length → vid ≠ 0xFF → s.config.variant vid = some p →
      exec (.init vid iid) s = .next
        { s with
          inst := s.inst.set iid
            { ph := .absorb, s := zero200, q := zero200, qb := 0, av := 0, prm := p, perms := 0 }
          code := .ok
          result := 0 }

/-- INIT of a custom parameter set (30_encoding.md R96; 40_sponge_absorb.md R121 check 3): a set that meets every condition is
bound, with D[k] = ARG[1][k] and KIND by N; any other ends with E_PARAM. The field perms is the model's own (log 16). -/
def Obligations.InitBindsLegalCustomSet : Prop :=
  ∀ (s : State) (iid : Nat), iid < s.inst.length →
    let r := field s.arg0 15 0
    let c := field s.arg0 31 16
    let n := field s.arg0 47 32
    let l := field s.arg1 39 32
    let legal := field s.arg0 63 48 = 0 ∧ field s.arg1 63 40 = 0 ∧ r + c = 1600 ∧ 0 < r ∧ r < 1600 ∧ r % 64 = 0
      ∧ l ≤ 32 ∧ (∀ k, l ≤ k → k < 32 → s.arg1.getLsbD k = false) ∧ n % 8 = 0 ∧ n ≤ r
    (legal → ∃ d : List Bool, d.length = l ∧ (∀ k < l, d[k]? = some (s.arg1.getLsbD k)) ∧
      exec (.init 0xFF iid) s = .next
        { s with
          inst := s.inst.set iid
            { ph := .absorb, s := zero200, q := zero200, qb := 0, av := 0, perms := 0
              prm := { r := r, c := c, d := d, n := n, kind := if 0 < n then .fixed else .xof } }
          code := .ok
          result := 0 }) ∧
    (¬legal → exec (.init 0xFF iid) s = .next { s with code := .eParam, fault := true, result := 0 })

/-- Under a well-formed configuration VARIANT is the table of 42_hash_instantiator.md R171, row by row, it is defined for the
ids of the table and for no others (30_encoding.md R100), and every tuple meets the constraints of R26 and R27. That a
fixed-digest rate is below 1600 is deduced from R26 (log 18). -/
def Obligations.VariantsAreLegalTuples : Prop :=
  ∀ c : Config, c.wf = true →
    c.variant 0x01 = some { r := c.fxRate224, c := 1600 - c.fxRate224, d := c.sufFixed, n := 224, kind := .fixed } ∧
    c.variant 0x02 = some { r := c.fxRate256, c := 1600 - c.fxRate256, d := c.sufFixed, n := 256, kind := .fixed } ∧
    c.variant 0x03 = some { r := c.fxRate384, c := 1600 - c.fxRate384, d := c.sufFixed, n := 384, kind := .fixed } ∧
    c.variant 0x04 = some { r := c.fxRate512, c := 1600 - c.fxRate512, d := c.sufFixed, n := 512, kind := .fixed } ∧
    c.variant 0x08 = some { r := c.xofRateA, c := 1600 - c.xofRateA, d := c.sufXof, n := 0, kind := .xof } ∧
    c.variant 0x09 = some { r := c.xofRateB, c := 1600 - c.xofRateB, d := c.sufXof, n := 0, kind := .xof } ∧
    c.variant 0x10 = some { r := 960, c := 640, d := c.sufK1, n := 0, kind := .kshake } ∧
    c.variant 0x11 = some { r := c.khRate2Bits, c := 1600 - c.khRate2Bits, d := c.sufK2, n := 0, kind := .kshake } ∧
    (∀ vid, 0x12 ≤ vid → vid ≤ 0x1F → ∀ p, c.variant vid = some p ↔
      ∃ e ∈ c.kshakeExtra, e.vid = vid ∧
        p = { r := e.rate, c := 1600 - e.rate, d := e.suffix, n := 0, kind := .kshake }) ∧
    (∀ vid, vid ∉ [0x01, 0x02, 0x03, 0x04, 0x08, 0x09, 0x10, 0x11] → ¬(0x12 ≤ vid ∧ vid ≤ 0x1F) → c.variant vid = none) ∧
    ∀ vid p, c.variant vid = some p → p.Legal

/-- DISCARD sets PH to NONE in every phase (40_sponge_absorb.md R135); in phase NONE it changes nothing. The other fields of a
discarded instance are free (log 7). -/
def Obligations.DiscardReleasesInstance : Prop :=
  ∀ (s : State) (iid : Nat) (u : Instance), s.inst[iid]? = some u →
    ∃ (w : Instance) (d : Nat), w.ph = .none ∧ (u.ph = .none → w = u) ∧
      exec (.discard iid) s = .next { s with inst := s.inst.set iid w, draws := d, code := .ok, result := 0 }

/-! ### ABSORB, padding and FINALIZE -/

/-- ABSORB appends the n bits at HM[src ..] to the instance's stream, LSB first (40_sponge_absorb.md R122; 00_scope.md R8),
and writes nothing else. -/
def Obligations.AbsorbQueuesMessageBits : Prop :=
  ∀ (s : State) (iid : Nat) (u : Instance),
    s.inst[iid]? = some u → u.ph = .absorb → (s.arg1.toNat = 0 ∨ u.qb % 8 = 0) →
    s.config.admits s.arg0.toNat ((s.arg1.toNat + 7) / 8) = true →
      ∃ k : Nat, exec (.absorb iid) s = .next
        { s with
          inst := s.inst.set iid (u.queueBits (bitsAt s.mem s.arg0.toNat s.arg1.toNat))
          perms := k
          code := .ok
          result := 0 }

/-- Absorbing within one rate-block: S keeps its bytes, and the queue holds its old bits, then the message bits, then zeros
(10_state.md R24; 40_sponge_absorb.md R130). -/
def Obligations.QueueHoldsAbsorbedBits : Prop :=
  ∀ (u : Instance) (bits : List Bool), u.Sound → u.qb + bits.length < u.prm.r →
    let w := u.queueBits bits
    w.s = u.s ∧ w.qb = u.qb + bits.length ∧ w.perms = u.perms ∧
    (∀ p < u.qb, bitAt w.q p = bitAt u.q p) ∧
    (∀ k b, bits[k]? = some b → bitAt w.q (u.qb + k) = b) ∧
    (∀ p, w.qb ≤ p → bitAt w.q p = false)

/-- The bit that completes a rate-block XORs the block into the first r/8 bytes of S, leaves the capacity bytes, applies PERM
once and empties the queue (40_sponge_absorb.md R130; 10_state.md R28). R130 marks the XOR as general knowledge. -/
def Obligations.FullBlockIsXoredAndPermuted : Prop :=
  ∀ (u : Instance) (bits : List Bool), u.Sound → u.qb + bits.length = u.prm.r →
    ∃ before : Bytes200,
      (u.queueBits bits).s = Config.perm before ∧
      (∀ p < u.qb, bitAt before p = (bitAt u.s p ^^ bitAt u.q p)) ∧
      (∀ k b, bits[k]? = some b → bitAt before (u.qb + k) = (bitAt u.s (u.qb + k) ^^ b)) ∧
      (∀ p, u.prm.r ≤ p → bitAt before p = bitAt u.s p) ∧
      (u.queueBits bits).q = zero200 ∧ (u.queueBits bits).qb = 0 ∧ (u.queueBits bits).perms = u.perms + 1

/-- How a byte-aligned message is split over two ABSORBs does not change the instance (40_sponge_absorb.md R133, the
spec's inference). -/
def Obligations.AbsorbSplitDoesNotMatter : Prop :=
  ∀ (s t1 t2 t : State) (iid : Nat) (src n1 n2 : Word64),
    n1.toNat % 8 = 0 → n1.toNat + n2.toNat < 2 ^ 64 → src.toNat + n1.toNat / 8 < 2 ^ 64 →
    exec (.absorb iid) { s with arg0 := src, arg1 := n1 } = .next t1 → t1.code = .ok →
    exec (.absorb iid) { t1 with arg0 := BitVec.ofNat 64 (src.toNat + n1.toNat / 8), arg1 := n2 } = .next t2 →
    t2.code = .ok →
    exec (.absorb iid) { s with arg0 := src, arg1 := BitVec.ofNat 64 (n1.toNat + n2.toNat) } = .next t → t.code = .ok →
      t2.inst = t.inst ∧ t2.perms = t.perms

/-- The partial-byte restriction (40_sponge_absorb.md R123): on an instance whose last ABSORB left QB mod 8 != 0, an ABSORB with
n > 0 ends with E_LENGTH and changes nothing, one with n = 0 is accepted and changes nothing, and FINALIZE is accepted and
appends the suffix from bit position QB. R123 calls this the spec's own choice. -/
def Obligations.PartialByteRestriction : Prop :=
  ∀ (s : State) (iid : Nat) (u : Instance), s.inst[iid]? = some u → u.ph = .absorb → u.qb % 8 ≠ 0 →
    (0 < s.arg1.toNat → exec (.absorb iid) s = .next { s with code := .eLength, fault := true, result := 0 }) ∧
    (s.arg1.toNat = 0 → exec (.absorb iid) s = .next { s with code := .ok, result := 0 }) ∧
    (∀ fOut : Bool, (fOut = true → 0 < u.prm.n → s.config.admits s.arg0.toNat (u.prm.n / 8) = true) →
      ∃ t w zeros, exec (.finalize iid fOut) s = .next t ∧ t.code = .ok ∧ t.inst[iid]? = some w ∧
        w.s = (u.queueBits (u.prm.d ++ [true] ++ List.replicate zeros false ++ [true])).s)

/-- Pad (40_sponge_absorb.md R131): the suffix, a 1, the least number of zeros that ends on a rate boundary, and a 1; it applies
ceil((QB + L + 2) / r) PERMs, one more than ceil((QB + L + 1) / r) exactly in the spill case (QB + L) mod r = r - 1
(R132; 70_reset_and_hazards.md R290). The leading 1 is the spec's choice (R131, D36). -/
def Obligations.PadEndsOnRateBoundary : Prop :=
  ∀ (u : Instance) (j : Nat), u.Sound →
    (u.qb + u.prm.d.length + 2 + j) % u.prm.r = 0 →
    (∀ j' < j, (u.qb + u.prm.d.length + 2 + j') % u.prm.r ≠ 0) →
      u.pad = u.queueBits (u.prm.d ++ [true] ++ List.replicate j false ++ [true]) ∧
      u.pad.qb = 0 ∧ u.pad.q = zero200 ∧
      u.pad.perms = u.perms + ceilDiv (u.qb + u.prm.d.length + 2) u.prm.r ∧
      (ceilDiv (u.qb + u.prm.d.length + 2) u.prm.r = ceilDiv (u.qb + u.prm.d.length + 1) u.prm.r + 1
        ↔ (u.qb + u.prm.d.length) % u.prm.r = u.prm.r - 1)

/-- The stream equivalence (40_sponge_absorb.md R133): after INIT of P, ABSORBs that succeed and a FINALIZE that succeeds, S is
S_t of the padded stream of the concatenated messages, and exactly t PERMs have been applied since INIT. The spec marks R133 as its inference;
the counter is the model's own (log 16). -/
def Obligations.StreamEquivalence : Prop :=
  ∀ (s s0 s1 s2 : State) (vid iid : Nat) (fOut : Bool) (inputs : List (Word64 × Word64)) (p : Params) (w : Instance) (j : Nat),
    p.Legal →
    exec (.init vid iid) s = .next s0 → s0.code = .ok → (∀ u, s0.inst[iid]? = some u → u.prm = p) →
    absorbAll iid inputs s0 = some s1 →
    exec (.finalize iid fOut) s1 = .next s2 → s2.code = .ok → s2.inst[iid]? = some w →
    let m := inputs.flatMap fun x => bitsAt s.mem x.1.toNat x.2.toNat
    (m.length + p.d.length + 2 + j) % p.r = 0 →
    (∀ j' < j, (m.length + p.d.length + 2 + j') % p.r ≠ 0) →
      let x := paddedStream p.d m j
      let t := ceilDiv (m.length + p.d.length + 2) p.r
      x.length = t * p.r ∧ w.s = streamState p.r x t ∧ w.perms = t ∧
      (t = ceilDiv (m.length + p.d.length + 1) p.r + 1 ↔ (m.length + p.d.length) % p.r = p.r - 1)

/-- FINALIZE of a fixed-digest instance with an output buffer: the digest S[0 .. N/8) is stored at ARG[0], PH = DONE,
AV = r/8 - N/8, RESULT = N/8 (40_sponge_absorb.md R132). -/
def Obligations.FinalizeWritesFixedDigest : Prop :=
  ∀ (s : State) (iid : Nat) (u : Instance),
    s.inst[iid]? = some u → u.ph = .absorb → 0 < u.prm.n → s.config.admits s.arg0.toNat (u.prm.n / 8) = true →
      ∃ k : Nat, exec (.finalize iid true) s = .next
        { s with
          inst := s.inst.set iid { u.pad with av := u.prm.r / 8 - u.prm.n / 8, ph := .done }
          mem := Memory.writeBytes s.mem s.arg0.toNat ((List.range (u.prm.n / 8)).map fun b => byteAt u.pad.s b)
          perms := k
          code := .ok
          result := BitVec.ofNat 64 (u.prm.n / 8) }

/-- FINALIZE that stores nothing: a null output of a fixed-digest instance still completes it (PH = DONE), and an
extendable-output instance moves to SQUEEZE with a whole block available, F_OUT and ARG[0] ignored (40_sponge_absorb.md R132). -/
def Obligations.FinalizeWithoutOutputCompletes : Prop :=
  ∀ (s : State) (iid : Nat) (fOut : Bool) (u : Instance),
    s.inst[iid]? = some u → u.ph = .absorb → (u.prm.n = 0 ∨ fOut = false) →
      ∃ k : Nat, exec (.finalize iid fOut) s = .next
        { s with
          inst := s.inst.set iid
            (if 0 < u.prm.n then { u.pad with av := u.prm.r / 8 - u.prm.n / 8, ph := .done }
             else { u.pad with av := u.prm.r / 8, ph := .squeeze })
          perms := k
          code := .ok
          result := 0 }

/-! ### SQUEEZE -/

/-- SQUEEZE stores the next min(n/8, XOF_MAX_BYTES) bytes of the output stream at ARG[0] and advances S and AV, one PERM for each
time AV is 0 before a byte is needed (41_sponge_squeeze.md R150 to R152, R154; 70_reset_and_hazards.md R290). -/
def Obligations.SqueezeStoresOutputStream : Prop :=
  ∀ (s : State) (iid : Nat) (u : Instance) (m perms : Nat),
    s.inst[iid]? = some u → u.ph = .squeeze → u.Sound →
    s.arg1.toNat % 8 = 0 → s.arg1.toNat ≠ 0 → m = min (s.arg1.toNat / 8) s.config.xofMaxBytes →
    s.config.admits s.arg0.toNat m = true →
    perms = (if m ≤ u.av then 0 else ceilDiv (m - u.av) (u.prm.r / 8)) →
      exec (.squeeze iid true) s = .next
        { s with
          inst := s.inst.set iid
            { u with
              s := permIter perms u.s
              av := u.av + perms * (u.prm.r / 8) - m
              perms := u.perms + perms }
          mem := Memory.writeBytes s.mem s.arg0.toNat
            ((List.range m).map fun k => outputByte u.prm.r u.s (u.prm.r / 8 - u.av + k))
          perms := s.perms + perms
          code := .ok
          result := BitVec.ofNat 64 m }

/-- Incremental squeeze equals batch squeeze (41_sponge_squeeze.md R153, the spec's inference from R152): a bytes and then b bytes are the a + b bytes of one
SQUEEZE from the same instance, and leave the same instance. -/
def Obligations.IncrementalSqueezeEqualsBatch : Prop :=
  ∀ (s t1 t2 t : State) (iid a b : Nat) (d1 d2 d : Word64),
    a + b ≤ s.config.xofMaxBytes → 8 * (a + b) < 2 ^ 64 →
    exec (.squeeze iid true) { s with arg0 := d1, arg1 := BitVec.ofNat 64 (8 * a) } = .next t1 → t1.code = .ok →
    exec (.squeeze iid true) { t1 with arg0 := d2, arg1 := BitVec.ofNat 64 (8 * b) } = .next t2 → t2.code = .ok →
    exec (.squeeze iid true) { s with arg0 := d, arg1 := BitVec.ofNat 64 (8 * (a + b)) } = .next t → t.code = .ok →
      Memory.readBytes t1.mem d1.toNat a ++ Memory.readBytes t2.mem d2.toNat b = Memory.readBytes t.mem d.toNat (a + b)
      ∧ t2.inst = t.inst

/-- A null or zero-length SQUEEZE of a legal length is a no-op that completes with OK (41_sponge_squeeze.md R150 check 4). -/
def Obligations.NullSqueezeIsNoOp : Prop :=
  ∀ (s : State) (iid : Nat) (fOut : Bool) (u : Instance),
    s.inst[iid]? = some u → u.ph = .squeeze → s.arg1.toNat % 8 = 0 → (fOut = false ∨ s.arg1.toNat = 0) →
      exec (.squeeze iid fOut) s = .next { s with code := .ok, result := 0 }

/-- The capacity part of S is never read out: the bytes still available in the current block do not depend on it
(10_state.md R28). -/
def Obligations.CapacityBytesAreNotReadOut : Prop :=
  ∀ (u w : Instance) (m : Nat),
    w = { u with s := w.s } → (∀ j < u.prm.r / 8, byteAt w.s j = byteAt u.s j) →
    u.av ≤ u.prm.r / 8 → m ≤ u.av →
      (Instance.squeezeBytes m u).2 = (Instance.squeezeBytes m w).2

/-! ### HASH_FIXED and HASH_XOF -/

/-- FixedFn is the prefix of length N/8 of S_t of the padded message (42_hash_instantiator.md R181; 40_sponge_absorb.md R133;
41_sponge_squeeze.md R154). -/
def Obligations.FixedFnIsStreamPrefix : Prop :=
  ∀ (p : Params) (b : List Byte) (n j : Nat), p.Legal → n ≤ 8 * b.length →
    (n + p.d.length + 2 + j) % p.r = 0 → (∀ j' < j, (n + p.d.length + 2 + j') % p.r ≠ 0) →
      let final := streamState p.r (paddedStream p.d (bitsOf b n) j) (ceilDiv (n + p.d.length + 2) p.r)
      fixedFn p b n = (List.range (p.n / 8)).map fun k => byteAt final k

/-- XofFn is the prefix of length m of the stream Z (42_hash_instantiator.md R183; 41_sponge_squeeze.md R154). -/
def Obligations.XofFnIsStreamPrefix : Prop :=
  ∀ (p : Params) (b : List Byte) (n m j : Nat), p.Legal → n ≤ 8 * b.length →
    (n + p.d.length + 2 + j) % p.r = 0 → (∀ j' < j, (n + p.d.length + 2 + j') % p.r ≠ 0) →
      let final := streamState p.r (paddedStream p.d (bitsOf b n) j) (ceilDiv (n + p.d.length + 2) p.r)
      xofFn p b n m = (List.range m).map (fun k => outputByte p.r final k) ∧
      xofPerms p b n m = ceilDiv (n + p.d.length + 2) p.r + (ceilDiv m (p.r / 8) - 1)

/-- HASH_FIXED stores FixedFn of the message at ARG[2] and changes no instance (42_hash_instantiator.md R180). -/
def Obligations.HashFixedStoresDigest : Prop :=
  ∀ (s : State) (vid : Nat) (p : Params),
    s.config.variant vid = some p → p.kind = .fixed →
    s.config.admits s.arg0.toNat ((s.arg1.toNat + 7) / 8) = true → s.config.admits s.arg2.toNat (p.n / 8) = true →
      ∃ k : Nat, exec (.hashFixed vid true) s = .next
        { s with
          mem := Memory.writeBytes s.mem s.arg2.toNat
            (fixedFn p (Memory.readBytes s.mem s.arg0.toNat ((s.arg1.toNat + 7) / 8)) s.arg1.toNat)
          perms := k
          code := .ok
          result := BitVec.ofNat 64 (p.n / 8) }

/-- HASH_XOF stores XofFn of the message, clamped to XOF_MAX_BYTES, at ARG[2] and changes no instance
(42_hash_instantiator.md R182; 41_sponge_squeeze.md R151). -/
def Obligations.HashXofStoresClampedOutput : Prop :=
  ∀ (s : State) (vid m : Nat) (p : Params),
    s.config.variant vid = some p → p.kind ≠ .fixed → s.arg3.toNat ≠ 0 → m = min s.arg3.toNat s.config.xofMaxBytes →
    s.config.admits s.arg0.toNat ((s.arg1.toNat + 7) / 8) = true → s.config.admits s.arg2.toNat m = true →
      ∃ k : Nat, exec (.hashXof vid true) s = .next
        { s with
          mem := Memory.writeBytes s.mem s.arg2.toNat
            (xofFn p (Memory.readBytes s.mem s.arg0.toNat ((s.arg1.toNat + 7) / 8)) s.arg1.toNat m)
          perms := k
          code := .ok
          result := BitVec.ofNat 64 m }

/-- A null output request of a one-shot hash is a no-op that completes with OK, whatever the buffers
(42_hash_instantiator.md R180 check 2, R182 check 2). -/
def Obligations.NullOneShotIsNoOp : Prop :=
  ∀ (s : State) (vid : Nat) (p : Params), s.config.variant vid = some p →
    (p.kind = .fixed → exec (.hashFixed vid false) s = .next { s with code := .ok, result := 0 }) ∧
    (p.kind ≠ .fixed → exec (.hashXof vid false) s = .next { s with code := .ok, result := 0 }) ∧
    (p.kind ≠ .fixed → s.arg3.toNat = 0 → exec (.hashXof vid true) s = .next { s with code := .ok, result := 0 })

/-- HASH_FIXED gives the bytes of INIT, one ABSORB and FINALIZE with an output buffer on any instance
(42_hash_instantiator.md R181). -/
def Obligations.HashFixedEqualsInitAbsorbFinalize : Prop :=
  ∀ (s t s1 s2 s3 : State) (vid iid : Nat),
    exec (.hashFixed vid true) s = .next t → t.code = .ok →
    exec (.init vid iid) s = .next s1 → s1.code = .ok →
    exec (.absorb iid) s1 = .next s2 → s2.code = .ok →
    exec (.finalize iid true) { s2 with arg0 := s.arg2 } = .next s3 → s3.code = .ok →
      s3.mem = t.mem ∧ s3.result = t.result ∧ s3.perms = t.perms

/-- HASH_XOF gives the bytes of INIT, one ABSORB, FINALIZE and one SQUEEZE on any instance (42_hash_instantiator.md R183). -/
def Obligations.HashXofEqualsInitAbsorbFinalizeSqueeze : Prop :=
  ∀ (s t s1 s2 s3 s4 : State) (vid iid : Nat),
    s.arg3.toNat ≠ 0 → 8 * s.arg3.toNat < 2 ^ 64 →
    exec (.hashXof vid true) s = .next t → t.code = .ok →
    exec (.init vid iid) s = .next s1 → s1.code = .ok →
    exec (.absorb iid) s1 = .next s2 → s2.code = .ok →
    exec (.finalize iid false) s2 = .next s3 → s3.code = .ok →
    exec (.squeeze iid true) { s3 with arg0 := s.arg2, arg1 := BitVec.ofNat 64 (8 * s.arg3.toNat) } = .next s4 →
    s4.code = .ok →
      s4.mem = t.mem ∧ s4.result = t.result ∧ s4.perms = t.perms

/-- The output of a command is a function of its operands, the bytes it reads, the bound parameters and instance fields, the
configuration and CFG, and of nothing else (42_hash_instantiator.md R172): two states that agree on these get the same code,
the same RESULT and the same bytes at the destination. -/
def Obligations.OutputDependsOnlyOnInputs : Prop :=
  ∀ (i : Instr) (s s' t t' : State),
    s.config = s'.config → s.reorderEn = s'.reorderEn → s.arg0 = s'.arg0 → s.arg1 = s'.arg1 → s.arg2 = s'.arg2 →
    s.arg3 = s'.arg3 → s.inst = s'.inst →
    (∀ w ∈ sourceRanges i s, ∀ k < w.2, Memory.read s.mem (w.1 + k) = Memory.read s'.mem (w.1 + k)) →
    exec i s = .next t → exec i s' = .next t' →
      t.code = t'.code ∧ t.result = t'.result ∧
      (∀ k < t.result.toNat, Memory.read t.mem (destination i s + k) = Memory.read t'.mem (destination i s + k)) ∧
      ((∀ k, i ≠ .discard k) → t.inst = t'.inst)

/-! ### REORDER and KRYPTOHASH -/

/-- Reorder is its own inverse on every length that is a multiple of RW_BYTES (44_byte_reorder.md R223). -/
def Obligations.ReorderIsInvolution : Prop :=
  ∀ (c : Config) (b : List Byte), c.wf = true → b.length % c.rwBytes = 0 →
    reorderBytes c (reorderBytes c b b.length) b.length = b

/-- REORDER stores, at ARG[2], byte RW_MAP(j) of each word as byte j of that word, computed from the source as it was before the
command, in place or overlapping too (44_byte_reorder.md R221, R222; 20_memory.md R67). -/
def Obligations.ReorderPermutesEachWord : Prop :=
  ∀ s : State, s.config.wf = true → s.arg1.toNat % s.config.rwBytes = 0 →
    s.config.admits s.arg0.toNat s.arg1.toNat = true → s.config.admits s.arg2.toNat s.arg1.toNat = true →
      ∃ m : Memory,
        exec .reorder s = .next { s with mem := m, code := .ok, result := s.arg1 } ∧
        (∀ w j, j < s.config.rwBytes → w * s.config.rwBytes + j < s.arg1.toNat →
          Memory.read m (s.arg2.toNat + (w * s.config.rwBytes + j))
            = Memory.read s.mem (s.arg0.toNat + (w * s.config.rwBytes + s.config.rwMap.getD j 0))) ∧
        (∀ a, ¬(s.arg2.toNat ≤ a ∧ a < s.arg2.toNat + s.arg1.toNat) → Memory.read m a = Memory.read s.mem a)

/-- KRYPTOHASH (43_kryptohash_pipeline.md R201, R202): stage 1 of the possibly reordered work input gives the 65520 bytes of the
scratchpad, stage 2 of those gives the 40 bytes stored at ARG[2]. SPM itself is free after the command (R63; log 5). -/
def Obligations.KryptohashStoresDigest : Prop :=
  ∀ s : State, s.arg1.toNat = 120 → s.config.admits s.arg0.toNat 120 = true → s.config.admits s.arg2.toNat 40 = true →
    let x := Memory.readBytes s.mem s.arg0.toNat 120
    let work := if s.reorderEn = true then reorderBytes s.config x 120 else x
    let scratch := xofFn { r := 960, c := 640, d := s.config.sufK1, n := 0, kind := .kshake } work 960 65520
    let stage2 : Params :=
      { r := s.config.khRate2Bits, c := 1600 - s.config.khRate2Bits, d := s.config.sufK2, n := 0, kind := .kshake }
    ∃ (m : Memory) (d k : Nat),
      exec .kryptohash s = .next
        { s with
          spm := m
          draws := d
          mem := Memory.writeBytes s.mem s.arg2.toNat (xofFn stage2 scratch 524160 40)
          perms := k
          code := .ok
          result := 40 } ∧
      scratch.length = 65520

/-- The PERM applications of KRYPTOHASH: 547 for stage 1, and those of stage 2 (43_kryptohash_pipeline.md R207, which the spec
marks as its inference). The counter is the model's own (log 16). -/
def Obligations.KryptohashPermCount : Prop :=
  ∀ s t : State, s.config.wf = true → exec .kryptohash s = .next t → t.code = .ok →
    t.perms = s.perms + 547 + (ceilDiv (524160 + s.config.sufK2.length + 2) s.config.khRate2Bits
      + (ceilDiv 40 (s.config.khRate2Bits / 8) - 1))

/-- KRYPTOHASH equals REORDER into w (when CFG.REORDER_EN is set), stage 1 alone and stage 2 alone over a scratch buffer: the
same 40 bytes at the destination, the same RESULT, and the same memory outside w and the scratch buffer, whatever the
buffers' overlaps (43_kryptohash_pipeline.md R204, the spec's inference). -/
def Obligations.KryptohashEqualsStageCommands : Prop :=
  ∀ (s t s0 s1 s2 : State) (w scratch : Word64),
    s.config.wf = true → exec .kryptohash s = .next t → t.code = .ok →
    (if s.reorderEn = true then exec .reorder { s with arg2 := w } = .next s0 ∧ s0.code = .ok
     else s0 = s ∧ w = s.arg0) →
    exec (.hashXof 0x10 true) { s0 with arg0 := w, arg1 := 960, arg2 := scratch, arg3 := 65520 } = .next s1 →
    s1.code = .ok →
    exec (.hashXof 0x11 true) { s1 with arg0 := scratch, arg1 := 524160, arg2 := s.arg2, arg3 := 40 } = .next s2 →
    s2.code = .ok →
      Memory.readBytes s2.mem s.arg2.toNat 40 = Memory.readBytes t.mem s.arg2.toNat 40 ∧ s2.result = t.result ∧
      (∀ a, (s.reorderEn = true → ¬(w.toNat ≤ a ∧ a < w.toNat + 120)) →
        ¬(scratch.toNat ≤ a ∧ a < scratch.toNat + 65520) → Memory.read s2.mem a = Memory.read t.mem a) ∧
      s2.inst = t.inst
end

