-- ==== Sys2Proof/Laws/Bits.lean ====
section
/-! SUPPORT. The laws of bit fields, bit strings and 200-byte strings (spec/00_scope.md R7, R8). -/

namespace Sys2Proof.Machine

/-! ### Numbers -/

theorem field_lt (v : Word64) (hi lo : Nat) : field v hi lo < 2 ^ (hi + 1 - lo) :=
  Nat.mod_lt _ (by positivity)

theorem ceilDiv_le_iff (a b q : Nat) (hb : 0 < b) : ceilDiv a b ≤ q ↔ a ≤ q * b := by
  unfold ceilDiv
  constructor
  · intro h
    have : (a + b - 1) / b < q + 1 := by omega
    have := (Nat.div_lt_iff_lt_mul hb).1 this
    rw [Nat.add_mul] at this; omega
  · intro h
    have : (a + b - 1) / b < q + 1 := (Nat.div_lt_iff_lt_mul hb).2 (by rw [Nat.add_mul]; omega)
    omega

theorem ceilDiv_eight (n : Nat) : ceilDiv n 8 = (n + 7) / 8 := rfl

/-- A multiple divides exactly. -/
theorem ceilDiv_mul (q b : Nat) (hb : 0 < b) : ceilDiv (q * b) b = q := by
  apply Nat.le_antisymm
  · exact (ceilDiv_le_iff _ _ _ hb).2 le_rfl
  · have := (ceilDiv_le_iff (q * b) b (ceilDiv (q * b) b) hb).1 le_rfl
    exact Nat.le_of_mul_le_mul_right this hb

/-! ### Bytes and bits of a 200-byte string -/

/-- STATE_BYTES = W_BITS/8, without a remainder (spec/00_scope.md R5). -/
theorem mul_stateBytes : 8 * stateBytes = wBits := rfl

/-- A bit of the state stands in a byte of it. -/
theorem div_lt_stateBytes (p : Nat) : p / 8 < stateBytes ↔ p < wBits := by
  rw [← mul_stateBytes]; omega

theorem byteAt_of_lt (v : Bytes200) (j : Nat) (h : j < stateBytes) : byteAt v j = v[j] := by
  simp [byteAt, Vector.getD, h]

theorem byteAt_of_ge (v : Bytes200) (j : Nat) (h : stateBytes ≤ j) : byteAt v j = 0 := by
  simp [byteAt, Vector.getD, Nat.not_lt.2 h]

/-- Strings with the same bytes are equal. -/
theorem bytes_ext (v w : Bytes200) (h : ∀ j < stateBytes, byteAt v j = byteAt w j) : v = w := by
  apply Vector.ext
  intro j hj
  have := h j hj
  rwa [byteAt_of_lt v j hj, byteAt_of_lt w j hj] at this

/-- Strings with the same bits are equal (R8). -/
theorem bits_ext (v w : Bytes200) (h : ∀ p < wBits, bitAt v p = bitAt w p) : v = w := by
  refine bytes_ext v w fun j hj => BitVec.eq_of_getLsbD_eq fun i hi => ?_
  have := h (8 * j + i) (by rw [← mul_stateBytes]; omega)
  simpa [bitAt, show (8 * j + i) / 8 = j by omega, show (8 * j + i) % 8 = i by omega] using this

@[simp] theorem byteAt_zero200 (j : Nat) : byteAt zero200 j = 0 := by
  by_cases h : j < stateBytes
  · simp [byteAt_of_lt _ _ h, zero200]
  · exact byteAt_of_ge _ _ (by omega)

@[simp] theorem bitAt_zero200 (p : Nat) : bitAt zero200 p = false := by
  simp [bitAt]

theorem bitAt_of_ge (v : Bytes200) (p : Nat) (h : wBits ≤ p) : bitAt v p = false := by
  simp [bitAt, byteAt_of_ge v (p / 8) (Nat.not_lt.1 fun hp => Nat.not_lt.2 h ((div_lt_stateBytes p).1 hp))]

theorem byteAt_orBit (v : Bytes200) (p : Nat) (b : Bool) (j : Nat) (hp : p < wBits) :
    byteAt (orBit v p b) j
      = if j = p / 8 then byteAt v j ||| (BitVec.ofBool b).setWidth 8 <<< (p % 8) else byteAt v j := by
  by_cases hj : j < stateBytes
  · simp only [byteAt_of_lt _ j hj, orBit]
    by_cases h : j = p / 8
    · subst h; simp [byteAt_of_lt _ _ hj]
    · simp [h, Ne.symm h]
  · have h : j ≠ p / 8 := by rintro rfl; exact hj ((div_lt_stateBytes p).2 hp)
    simp [byteAt_of_ge _ j (by omega : stateBytes ≤ j), h]

/-- Setting bit p ORs b into it and leaves every other bit (spec/40_sponge_absorb.md R130). -/
theorem bitAt_orBit (v : Bytes200) (p p' : Nat) (b : Bool) (hp : p < wBits) :
    bitAt (orBit v p b) p' = (bitAt v p' || (decide (p' = p) && b)) := by
  unfold bitAt
  rw [byteAt_orBit _ _ _ _ hp]
  have hm : p' % 8 < 8 := Nat.mod_lt _ (by omega)
  by_cases h : p' / 8 = p / 8
  · simp only [h, if_true, BitVec.getLsbD_or, BitVec.getLsbD_shiftLeft, hm, decide_true, Bool.true_and,
      BitVec.getLsbD_setWidth, BitVec.getLsbD_ofBool]
    by_cases h2 : p' = p
    · subst h2
      simp
    · have h3 : p' % 8 ≠ p % 8 := by omega
      by_cases h4 : p' % 8 < p % 8
      · simp [h4, h2]
      · have h5 : p' % 8 - p % 8 ≠ 0 := by omega
        simp [h2, h5]
  · have h2 : p' ≠ p := by rintro rfl; exact h rfl
    simp [h, h2]

theorem byteAt_xorFirst (k : Nat) (s q : Bytes200) (j : Nat) (hj : j < stateBytes) :
    byteAt (xorFirst k s q) j = if j < k then byteAt s j ^^^ byteAt q j else byteAt s j := by
  rw [byteAt_of_lt _ _ hj, byteAt_of_lt s _ hj, byteAt_of_lt q _ hj]
  simp [xorFirst]

/-- The capacity bytes are untouched by the XOR of a block (spec/10_state.md R28). -/
theorem byteAt_xorFirst_capacity (k : Nat) (s q : Bytes200) (j : Nat) (hk : k ≤ j) :
    byteAt (xorFirst k s q) j = byteAt s j := by
  by_cases hj : j < stateBytes
  · simp [byteAt_xorFirst _ _ _ _ hj, Nat.not_lt.2 hk]
  · rw [byteAt_of_ge _ j (by omega), byteAt_of_ge _ j (by omega)]

theorem bitAt_xorFirst (k : Nat) (s q : Bytes200) (p : Nat) (hp : p < wBits) :
    bitAt (xorFirst k s q) p = if p / 8 < k then bitAt s p ^^ bitAt q p else bitAt s p := by
  unfold bitAt
  rw [byteAt_xorFirst _ _ _ _ ((div_lt_stateBytes p).2 hp)]
  by_cases h : p / 8 < k <;> simp [h]

@[simp] theorem length_firstBytes (v : Bytes200) (k : Nat) : (firstBytes v k).length = k := by
  simp [firstBytes]

theorem getD_firstBytes (v : Bytes200) (k j : Nat) (h : j < k) : (firstBytes v k).getD j 0 = byteAt v j := by
  simp [firstBytes, List.getD_eq_getElem?_getD, h]

/-! ### The bits of a byte string (R8) -/

@[simp] theorem length_byteBits (b : Byte) : (byteBits b).length = 8 := by simp [byteBits]

theorem length_flatMap_byteBits (bs : List Byte) : (bs.flatMap byteBits).length = 8 * bs.length := by
  induction bs with
  | nil => rfl
  | cons b rest ih => simp only [List.flatMap_cons, List.length_append, length_byteBits, ih, List.length_cons]; omega

theorem length_bitsOf (bs : List Byte) (n : Nat) (h : n ≤ 8 * bs.length) : (bitsOf bs n).length = n := by
  rw [bitsOf, List.length_take, length_flatMap_byteBits, Nat.min_eq_left h]

theorem getElem?_flatMap_byteBits (bs : List Byte) (k : Nat) (h : k < 8 * bs.length) :
    (bs.flatMap byteBits)[k]? = some ((bs.getD (k / 8) 0).getLsbD (k % 8)) := by
  induction bs generalizing k with
  | nil => simp at h
  | cons b rest ih =>
    rw [List.flatMap_cons]
    by_cases hk : k < 8
    · rw [List.getElem?_append_left (by simpa using hk)]
      simp [byteBits, hk, Nat.div_eq_of_lt hk, Nat.mod_eq_of_lt hk]
    · rw [List.getElem?_append_right (by simpa using hk)]
      have : k - 8 < 8 * rest.length := by simp only [List.length_cons] at h; omega
      rw [length_byteBits, ih _ this, show k / 8 = (k - 8) / 8 + 1 by omega, show (k - 8) % 8 = k % 8 by omega]
      simp

/-- Bit k of a byte string is bit (k mod 8) of byte k div 8 (R8). -/
theorem getElem?_bitsOf (bs : List Byte) (n k : Nat) (hk : k < n) (h : n ≤ 8 * bs.length) :
    (bitsOf bs n)[k]? = some ((bs.getD (k / 8) 0).getLsbD (k % 8)) := by
  rw [bitsOf, List.getElem?_take_of_lt hk, getElem?_flatMap_byteBits _ _ (by omega)]

/-- Byte-aligned inputs concatenate bitwise as they do bytewise. -/
theorem bitsOf_append (b1 b2 : List Byte) (n : Nat) :
    bitsOf (b1 ++ b2) (8 * b1.length + n) = bitsOf b1 (8 * b1.length) ++ bitsOf b2 n := by
  simp only [bitsOf, List.flatMap_append, ← length_flatMap_byteBits, List.take_length_add_append, List.take_length]

/-- Only the first ceil(n / 8) bytes matter. -/
theorem bitsOf_congr (b1 b2 : List Byte) (n : Nat) (h1 : n ≤ 8 * b1.length) (h2 : n ≤ 8 * b2.length)
    (h : ∀ k < n, (b1.getD (k / 8) 0).getLsbD (k % 8) = (b2.getD (k / 8) 0).getLsbD (k % 8)) :
    bitsOf b1 n = bitsOf b2 n := by
  apply List.ext_getElem?
  intro k
  by_cases hk : k < n
  · rw [getElem?_bitsOf _ _ _ hk h1, getElem?_bitsOf _ _ _ hk h2, h k hk]
  · rw [List.getElem?_eq_none (by rw [length_bitsOf _ _ h1]; omega),
      List.getElem?_eq_none (by rw [length_bitsOf _ _ h2]; omega)]

end Sys2Proof.Machine
end

