-- ==== Sys2Proof/Laws/Memory.lean ====
section
/-! SUPPORT. The laws of byte memories: a read after a write, what a write leaves alone, and the canonical form. -/

namespace Sys2Proof.Machine

/-! ### One byte -/

theorem Memory.read_filter_ne (m : Memory) (a b : Nat) (h : b ≠ a) :
    Memory.read (m.filter fun cell => cell.1 ≠ a) b = Memory.read m b := by
  induction m with
  | nil => rfl
  | cons cell rest ih =>
    obtain ⟨k, v⟩ := cell
    by_cases hk : k = a
    · subst hk; simpa [Memory.read, Ne.symm h] using ih
    · by_cases hb : k = b <;> simp_all [Memory.read]

theorem Memory.read_filter_self (m : Memory) (a : Nat) :
    Memory.read (m.filter fun cell => cell.1 ≠ a) a = 0 := by
  induction m with
  | nil => rfl
  | cons cell rest ih =>
    obtain ⟨k, v⟩ := cell
    by_cases hk : k = a <;> simp_all [Memory.read]

theorem Memory.read_insertCell_ne (m : Memory) (a b : Nat) (v : Byte) (h : b ≠ a) :
    Memory.read (Memory.insertCell a v m) b = Memory.read m b := by
  induction m with
  | nil => simp [Memory.insertCell, Memory.read, Ne.symm h]
  | cons cell rest ih =>
    obtain ⟨k, w⟩ := cell
    by_cases hk : a < k
    · simp [Memory.insertCell, hk, Memory.read, Ne.symm h]
    · simp [Memory.insertCell, hk, Memory.read, ih]

theorem Memory.read_insertCell_self (m : Memory) (a : Nat) (v : Byte) (h : ∀ cell ∈ m, cell.1 ≠ a) :
    Memory.read (Memory.insertCell a v m) a = v := by
  induction m with
  | nil => simp [Memory.insertCell, Memory.read]
  | cons cell rest ih =>
    obtain ⟨k, w⟩ := cell
    have hk : k ≠ a := h (k, w) (by simp)
    by_cases hlt : a < k
    · simp [Memory.insertCell, hlt, Memory.read]
    · simp [Memory.insertCell, hlt, Memory.read, hk, ih fun c hc => h c (by simp [hc])]

/-- A write leaves every other address alone. -/
theorem Memory.read_write_ne (m : Memory) (a b : Nat) (v : Byte) (h : b ≠ a) :
    Memory.read (Memory.write m a v) b = Memory.read m b := by
  unfold Memory.write
  by_cases hv : v = 0
  · simp only [hv, if_true]; exact Memory.read_filter_ne m a b h
  · simp only [hv, if_false]; rw [Memory.read_insertCell_ne _ _ _ _ h, Memory.read_filter_ne m a b h]

/-- A read after a write gives the byte written. -/
@[simp] theorem Memory.read_write_self (m : Memory) (a : Nat) (v : Byte) :
    Memory.read (Memory.write m a v) a = v := by
  unfold Memory.write
  by_cases hv : v = 0
  · simp only [hv, if_true]; exact Memory.read_filter_self m a
  · simp only [hv, if_false]
    exact Memory.read_insertCell_self _ a v fun c hc => by simpa using (List.mem_filter.1 hc).2

theorem Memory.read_write (m : Memory) (a b : Nat) (v : Byte) :
    Memory.read (Memory.write m a v) b = if b = a then v else Memory.read m b := by
  by_cases h : b = a
  · simp [h]
  · simp [h, Memory.read_write_ne]

/-! ### Byte strings -/

/-- What every address holds after a byte string is written. -/
theorem Memory.read_writeBytes (m : Memory) (a b : Nat) (bs : List Byte) :
    Memory.read (Memory.writeBytes m a bs) b
      = if a ≤ b ∧ b < a + bs.length then bs.getD (b - a) 0 else Memory.read m b := by
  induction bs generalizing m a with
  | nil => have : ¬(a ≤ b ∧ b < a) := by omega
           simp [Memory.writeBytes, this]
  | cons x rest ih =>
    simp only [Memory.writeBytes, ih, Memory.read_write, List.length_cons]
    by_cases h1 : a + 1 ≤ b ∧ b < a + 1 + rest.length
    · have h2 : a ≤ b ∧ b < a + (rest.length + 1) := by omega
      obtain ⟨d, rfl⟩ : ∃ d, b = a + 1 + d := ⟨b - (a + 1), by omega⟩
      have h3 : a + 1 + d - a = d + 1 := by omega
      simp only [h1, h2, and_self, if_true, h3, List.getD_cons_succ]
      congr 1; omega
    · by_cases hb : b = a
      · subst hb; simp
      · have h2 : ¬(a ≤ b ∧ b < a + (rest.length + 1)) := by omega
        rw [if_neg h1, if_neg hb, if_neg h2]

/-- A byte outside the stored range is unchanged. -/
theorem Memory.read_writeBytes_outside (m : Memory) (a b : Nat) (bs : List Byte)
    (h : ¬(a ≤ b ∧ b < a + bs.length)) : Memory.read (Memory.writeBytes m a bs) b = Memory.read m b := by
  simp [Memory.read_writeBytes, h]

@[simp] theorem Memory.length_readBytes (m : Memory) (a n : Nat) : (Memory.readBytes m a n).length = n := by
  simp [Memory.readBytes]

theorem Memory.getElem?_readBytes (m : Memory) (a n k : Nat) (h : k < n) :
    (Memory.readBytes m a n)[k]? = some (Memory.read m (a + k)) := by
  simp [Memory.readBytes, h]

theorem Memory.getD_readBytes (m : Memory) (a n k : Nat) (h : k < n) :
    (Memory.readBytes m a n).getD k 0 = Memory.read m (a + k) := by
  simp [Memory.readBytes, List.getD_eq_getElem?_getD, h]

/-- Reading back exactly the string that was written. -/
@[simp] theorem Memory.readBytes_writeBytes (m : Memory) (a : Nat) (bs : List Byte) :
    Memory.readBytes (Memory.writeBytes m a bs) a bs.length = bs := by
  apply List.ext_getElem?
  intro k
  by_cases hk : k < bs.length
  · rw [Memory.getElem?_readBytes _ _ _ _ hk, Memory.read_writeBytes, if_pos (by omega)]
    simp [List.getD_eq_getElem?_getD, hk]
  · rw [List.getElem?_eq_none (by simp; omega), List.getElem?_eq_none (by omega)]

/-- A string is read the same from memories that agree on its range. -/
theorem Memory.readBytes_congr (m m' : Memory) (a n : Nat)
    (h : ∀ k < n, Memory.read m (a + k) = Memory.read m' (a + k)) :
    Memory.readBytes m a n = Memory.readBytes m' a n := by
  simp only [Memory.readBytes]
  exact List.map_congr_left fun k hk => h k (List.mem_range.1 hk)

/-! ### The canonical form -/

theorem Memory.wf_nil : Memory.wf [] := by simp [Memory.wf]

theorem Memory.mem_insertCell (m : Memory) (a : Nat) (v : Byte) (c : Host.Cell) :
    c ∈ Memory.insertCell a v m ↔ c = (a, v) ∨ c ∈ m := by
  induction m with
  | nil => simp [Memory.insertCell]
  | cons cell rest ih =>
    obtain ⟨k, w⟩ := cell
    by_cases h : a < k
    · simp [Memory.insertCell, h]
    · simp [Memory.insertCell, h, ih]; tauto

theorem Memory.pairwise_insertCell (m : Memory) (a : Nat) (v : Byte)
    (hs : m.Pairwise fun x y => x.1 < y.1) (hne : ∀ cell ∈ m, cell.1 ≠ a) :
    (Memory.insertCell a v m).Pairwise fun x y => x.1 < y.1 := by
  induction m with
  | nil => simp [Memory.insertCell]
  | cons cell rest ih =>
    obtain ⟨k, w⟩ := cell
    rw [List.pairwise_cons] at hs
    have hk : k ≠ a := hne (k, w) (by simp)
    by_cases h : a < k
    · simp only [Memory.insertCell, h, if_true, List.pairwise_cons, List.mem_cons]
      refine ⟨?_, hs⟩
      rintro c (rfl | hc)
      · exact h
      · exact lt_trans h (hs.1 c hc)
    · simp only [Memory.insertCell, h, if_false, List.pairwise_cons]
      refine ⟨fun c hc => ?_, ih hs.2 fun c hc => hne c (by simp [hc])⟩
      rcases (Memory.mem_insertCell rest a v c).1 hc with rfl | hc
      · simp only; omega
      · exact hs.1 c hc

/-- Writing a byte below 2^64 keeps the canonical form. -/
theorem Memory.wf_write (m : Memory) (a : Nat) (v : Byte) (h : Memory.wf m) (ha : a < 2 ^ 64) :
    Memory.wf (Memory.write m a v) := by
  obtain ⟨hs, hc⟩ := h
  have hs' : (m.filter fun cell => cell.1 ≠ a).Pairwise fun x y => x.1 < y.1 := hs.filter _
  have hc' : ∀ cell ∈ m.filter (fun cell => cell.1 ≠ a), cell.2 ≠ 0 ∧ cell.1 < 2 ^ 64 := fun c h =>
    hc c (List.mem_filter.1 h).1
  unfold Memory.write
  by_cases hv : v = 0
  · simp only [hv, if_true]; exact ⟨hs', hc'⟩
  · simp only [hv, if_false]
    refine ⟨Memory.pairwise_insertCell _ a v hs' (by simp), fun c hmem => ?_⟩
    rcases (Memory.mem_insertCell _ a v c).1 hmem with rfl | hmem
    · exact ⟨hv, ha⟩
    · exact hc' c hmem

/-- Writing a byte string that ends at or below 2^64 keeps the canonical form. -/
theorem Memory.wf_writeBytes (m : Memory) (a : Nat) (bs : List Byte) (h : Memory.wf m)
    (ha : a + bs.length ≤ 2 ^ 64) : Memory.wf (Memory.writeBytes m a bs) := by
  induction bs generalizing m a with
  | nil => exact h
  | cons x rest ih =>
    simp only [List.length_cons] at ha
    exact ih _ _ (Memory.wf_write m a x h (by omega)) (by omega)

/-- Every address a write lists is the one written or was listed before. -/
theorem Memory.keys_write (m : Memory) (a : Nat) (v : Byte) (c : Host.Cell) (h : c ∈ Memory.write m a v) :
    c.1 = a ∨ c ∈ m := by
  unfold Memory.write at h
  by_cases hv : v = 0
  · simp only [hv, if_true] at h; exact .inr (List.mem_filter.1 h).1
  · simp only [hv, if_false] at h
    rcases (Memory.mem_insertCell _ a v c).1 h with rfl | h
    · exact .inl rfl
    · exact .inr (List.mem_filter.1 h).1

theorem Memory.keys_writeBytes (m : Memory) (a : Nat) (bs : List Byte) (c : Host.Cell)
    (h : c ∈ Memory.writeBytes m a bs) : (a ≤ c.1 ∧ c.1 < a + bs.length) ∨ c ∈ m := by
  induction bs generalizing m a with
  | nil => exact .inr h
  | cons x rest ih =>
    rcases ih _ _ h with h | h
    · simp only [List.length_cons]; omega
    · rcases Memory.keys_write m a x c h with h | h
      · simp only [List.length_cons]; omega
      · exact .inr h

theorem Memory.read_eq_zero (m : Memory) (a : Nat) (h : ∀ cell ∈ m, a < cell.1) : Memory.read m a = 0 := by
  induction m with
  | nil => rfl
  | cons cell rest ih =>
    have := h cell (by simp)
    simp [Memory.read, show cell.1 ≠ a by omega, ih fun c hc => h c (by simp [hc])]

/-- Canonical memories that hold the same bytes are equal data. -/
theorem Memory.wf_ext (m m' : Memory) (h : Memory.wf m) (h' : Memory.wf m')
    (hr : ∀ a, Memory.read m a = Memory.read m' a) : m = m' := by
  induction m generalizing m' with
  | nil =>
    cases m' with
    | nil => rfl
    | cons c rest =>
      have := hr c.1
      simp only [Memory.read] at this
      exact absurd this.symm (by simpa using (h'.2 c (by simp)).1)
  | cons c rest ih =>
    obtain ⟨hs, hc⟩ := h
    rw [List.pairwise_cons] at hs
    cases m' with
    | nil =>
      have := hr c.1
      simp only [Memory.read] at this
      exact absurd this (by simpa using (hc c (by simp)).1)
    | cons c' rest' =>
      obtain ⟨hs', hc'⟩ := h'
      rw [List.pairwise_cons] at hs'
      have hkey : c.1 = c'.1 := by
        rcases lt_trichotomy c.1 c'.1 with hlt | heq | hgt
        · have := hr c.1
          rw [Memory.read_eq_zero (c' :: rest') c.1 (by
            intro d hd
            rcases List.mem_cons.1 hd with rfl | hd
            · exact hlt
            · exact lt_trans hlt (hs'.1 d hd))] at this
          simp only [Memory.read] at this
          exact absurd this (by simpa using (hc c (by simp)).1)
        · exact heq
        · have := hr c'.1
          rw [Memory.read_eq_zero (c :: rest) c'.1 (by
            intro d hd
            rcases List.mem_cons.1 hd with rfl | hd
            · exact hgt
            · exact lt_trans hgt (hs.1 d hd))] at this
          simp only [Memory.read] at this
          exact absurd this.symm (by simpa using (hc' c' (by simp)).1)
      have hval : c.2 = c'.2 := by
        have := hr c.1
        simpa [Memory.read, hkey] using this
      have hrest : rest = rest' := by
        refine ih rest' ⟨hs.2, fun d hd => hc d (by simp [hd])⟩ ⟨hs'.2, fun d hd => hc' d (by simp [hd])⟩ fun a => ?_
        by_cases ha : c.1 = a
        · rw [Memory.read_eq_zero rest a (fun d hd => ha ▸ hs.1 d hd),
            Memory.read_eq_zero rest' a (fun d hd => ha ▸ hkey ▸ hs'.1 d hd)]
        · have := hr a
          simpa [Memory.read, ha, ← hkey] using this
      rw [hrest]
      exact congrArg (· :: rest') (Prod.ext hkey hval)

end Sys2Proof.Machine
end

