-- ==== Sys2Proof/Laws/Sponge.lean ====
section
/-! SUPPORT. What the engine's internal steps can do to an instance: queueing bits, padding and squeezing keep its
parameters and phase, keep the queue within one block, and count PERM applications
(spec/40_sponge_absorb.md R130, R131; spec/41_sponge_squeeze.md R152). -/

namespace Sys2Proof.Machine

/-! ### `QueueBit` -/

/-- The two cases of QueueBit (R130). -/
theorem Instance.queueBit_of_lt (t : Instance) (b : Bool) (h : t.qb + 1 ≠ t.prm.r) :
    t.queueBit b = { t with q := orBit t.q t.qb b, qb := t.qb + 1 } := by
  simp [Instance.queueBit, h]

theorem Instance.queueBit_of_full (t : Instance) (b : Bool) (h : t.qb + 1 = t.prm.r) :
    t.queueBit b = { t with
      s := Config.perm (xorFirst t.rateBytes t.s (orBit t.q t.qb b)), q := zero200, qb := 0, perms := t.perms + 1 } := by
  simp [Instance.queueBit, h, Instance.absorbBlock, Instance.rateBytes]

@[simp] theorem Instance.queueBit_prm (t : Instance) (b : Bool) : (t.queueBit b).prm = t.prm := by
  unfold Instance.queueBit; split <;> rfl

@[simp] theorem Instance.queueBit_ph (t : Instance) (b : Bool) : (t.queueBit b).ph = t.ph := by
  unfold Instance.queueBit; split <;> rfl

@[simp] theorem Instance.queueBit_av (t : Instance) (b : Bool) : (t.queueBit b).av = t.av := by
  unfold Instance.queueBit; split <;> rfl

theorem Instance.queueBit_qb (t : Instance) (b : Bool) :
    (t.queueBit b).qb = if t.qb + 1 = t.prm.r then 0 else t.qb + 1 := by
  unfold Instance.queueBit; split <;> simp [Instance.absorbBlock]

theorem Instance.queueBit_perms (t : Instance) (b : Bool) :
    (t.queueBit b).perms = if t.qb + 1 = t.prm.r then t.perms + 1 else t.perms := by
  unfold Instance.queueBit; split <;> simp [Instance.absorbBlock]

/-! ### `QueueBit` of several bits -/

@[simp] theorem Instance.queueBits_nil (t : Instance) : t.queueBits [] = t := rfl

@[simp] theorem Instance.queueBits_cons (t : Instance) (b : Bool) (bs : List Bool) :
    t.queueBits (b :: bs) = (t.queueBit b).queueBits bs := rfl

/-- Queueing a split bit string is queueing its parts in turn. -/
theorem Instance.queueBits_append (t : Instance) (xs ys : List Bool) :
    t.queueBits (xs ++ ys) = (t.queueBits xs).queueBits ys := by
  simp [Instance.queueBits]

@[simp] theorem Instance.queueBits_prm (t : Instance) (bs : List Bool) : (t.queueBits bs).prm = t.prm := by
  induction bs generalizing t with
  | nil => rfl
  | cons b bs ih => simp [ih]

@[simp] theorem Instance.queueBits_ph (t : Instance) (bs : List Bool) : (t.queueBits bs).ph = t.ph := by
  induction bs generalizing t with
  | nil => rfl
  | cons b bs ih => simp [ih]

@[simp] theorem Instance.queueBits_av (t : Instance) (bs : List Bool) : (t.queueBits bs).av = t.av := by
  induction bs generalizing t with
  | nil => rfl
  | cons b bs ih => simp [ih]

/-- The queue's fill and the PERM count after n bits (spec/70_reset_and_hazards.md R290, ABSORB). -/
theorem Instance.queueBits_count (t : Instance) (bs : List Bool) (h : t.qb < t.prm.r) :
    (t.queueBits bs).qb = (t.qb + bs.length) % t.prm.r
      ∧ (t.queueBits bs).perms = t.perms + (t.qb + bs.length) / t.prm.r := by
  induction bs generalizing t with
  | nil => simp [Nat.mod_eq_of_lt h, Nat.div_eq_of_lt h]
  | cons b bs ih =>
    have hlt : (t.queueBit b).qb < (t.queueBit b).prm.r := by
      rw [Instance.queueBit_prm, Instance.queueBit_qb]; split <;> omega
    obtain ⟨h1, h2⟩ := ih (t.queueBit b) hlt
    rw [Instance.queueBits_cons, h1, h2, Instance.queueBit_prm, Instance.queueBit_qb, Instance.queueBit_perms,
      List.length_cons]
    by_cases hf : t.qb + 1 = t.prm.r
    · rw [if_pos hf, if_pos hf, show t.qb + (bs.length + 1) = bs.length + t.prm.r by omega, Nat.add_mod_right,
        Nat.add_div_right _ (by omega)]
      exact ⟨by simp, by simp; omega⟩
    · rw [if_neg hf, if_neg hf, show t.qb + 1 + bs.length = t.qb + (bs.length + 1) by omega]
      exact ⟨rfl, rfl⟩

theorem Instance.queueBits_qb_lt (t : Instance) (bs : List Bool) (h : t.qb < t.prm.r) :
    (t.queueBits bs).qb < t.prm.r := by
  rw [(t.queueBits_count bs h).1]; exact Nat.mod_lt _ (by omega)

theorem Instance.perms_le_queueBits (t : Instance) (bs : List Bool) : t.perms ≤ (t.queueBits bs).perms := by
  induction bs generalizing t with
  | nil => exact le_rfl
  | cons b bs ih =>
    refine le_trans ?_ (ih (t.queueBit b))
    rw [Instance.queueBit_perms]; split <;> omega

/-- The bits of Q at and above QB stay 0 (spec/10_state.md R24). -/
theorem Instance.queueBit_clear (t : Instance) (b : Bool) (hr : t.prm.r ≤ wBits) (hq : t.qb < t.prm.r)
    (h : ∀ p, t.qb ≤ p → bitAt t.q p = false) : ∀ p, (t.queueBit b).qb ≤ p → bitAt (t.queueBit b).q p = false := by
  by_cases hf : t.qb + 1 = t.prm.r
  · rw [Instance.queueBit_of_full t b hf]; intro p _; simp
  · rw [Instance.queueBit_of_lt t b hf]
    intro p hp
    simp only at hp ⊢
    rw [bitAt_orBit _ _ _ _ (by omega), h p (by omega)]
    simp [show p ≠ t.qb by omega]

theorem Instance.queueBits_clear (t : Instance) (bs : List Bool) (hr : t.prm.r ≤ wBits) (hq : t.qb < t.prm.r)
    (h : ∀ p, t.qb ≤ p → bitAt t.q p = false) :
    ∀ p, (t.queueBits bs).qb ≤ p → bitAt (t.queueBits bs).q p = false := by
  induction bs generalizing t with
  | nil => exact h
  | cons b bs ih =>
    refine ih (t.queueBit b) (by simpa using hr) ?_ (t.queueBit_clear b hr hq h)
    rw [Instance.queueBit_prm, Instance.queueBit_qb]; split <;> omega

/-! ### `Pad` -/

/-- ORing a 0 into a string changes nothing. -/
theorem orBit_false (v : Bytes200) (p : Nat) : orBit v p false = v := by
  refine bytes_ext _ _ fun j hj => ?_
  by_cases h : j = p / 8
  · subst h
    simp [orBit, byteAt_of_lt _ _ hj, BitVec.ofBool]
  · simp [orBit, byteAt_of_lt _ _ hj, Ne.symm h]

/-- Queueing zeros that do not fill the block only moves QB. -/
theorem Instance.queueBits_zeros (t : Instance) (k : Nat) (h : t.qb + k < t.prm.r) :
    t.queueBits (List.replicate k false) = { t with qb := t.qb + k } := by
  induction k generalizing t with
  | zero => rfl
  | succ k ih =>
    rw [List.replicate_succ, Instance.queueBits_cons, Instance.queueBit_of_lt _ _ (by omega), ih _ (by simp; omega)]
    simp [orBit_false]; omega

/-- The zero fill leaves QB = r - 1 and nothing else changed (R131). -/
theorem Instance.zeroFill_eq (t : Instance) (h : t.qb < t.prm.r) : t.zeroFill = { t with qb := t.prm.r - 1 } := by
  rw [Instance.zeroFill, Instance.queueBits_zeros _ _ (by omega)]
  congr 1; omega

/-- Pad queues the suffix, a 1, the fewest zeros and a 1. -/
theorem Instance.pad_eq_queueBits (t : Instance) :
    t.pad = t.queueBits (t.prm.d ++ [true]
      ++ List.replicate (t.prm.r - 1 - (t.queueBits (t.prm.d ++ [true])).qb) false ++ [true]) := by
  simp [Instance.pad, Instance.zeroFill, Instance.queueBits_append]

@[simp] theorem Instance.pad_prm (t : Instance) : t.pad.prm = t.prm := by
  rw [Instance.pad_eq_queueBits, Instance.queueBits_prm]

@[simp] theorem Instance.pad_ph (t : Instance) : t.pad.ph = t.ph := by
  rw [Instance.pad_eq_queueBits, Instance.queueBits_ph]

@[simp] theorem Instance.pad_av (t : Instance) : t.pad.av = t.av := by
  rw [Instance.pad_eq_queueBits, Instance.queueBits_av]

theorem Instance.perms_le_pad (t : Instance) : t.perms ≤ t.pad.perms := by
  rw [Instance.pad_eq_queueBits]; exact t.perms_le_queueBits _

/-- After Pad the absorbed stream ends exactly on a rate boundary: the queue is empty (R131). -/
theorem Instance.pad_queue (t : Instance) (h : t.qb < t.prm.r) : t.pad.qb = 0 ∧ t.pad.q = zero200 := by
  have h1 : ((t.queueBits t.prm.d).queueBit true).qb < ((t.queueBits t.prm.d).queueBit true).prm.r := by
    have := t.queueBits_qb_lt t.prm.d h
    rw [Instance.queueBit_prm, Instance.queueBits_prm, Instance.queueBit_qb, Instance.queueBits_prm]; split <;> omega
  rw [Instance.pad, Instance.zeroFill_eq _ h1, Instance.queueBit_of_full]
  · exact ⟨rfl, rfl⟩
  · simp only [Instance.queueBit_prm, Instance.queueBits_prm] at h1 ⊢; omega

/-! ### `SqueezeBytes` -/

@[simp] theorem Instance.refill_prm (t : Instance) : t.refill.prm = t.prm := by
  unfold Instance.refill; split <;> rfl

@[simp] theorem Instance.refill_ph (t : Instance) : t.refill.ph = t.ph := by
  unfold Instance.refill; split <;> rfl

@[simp] theorem Instance.refill_qb (t : Instance) : t.refill.qb = t.qb := by
  unfold Instance.refill; split <;> rfl

@[simp] theorem Instance.refill_q (t : Instance) : t.refill.q = t.q := by
  unfold Instance.refill; split <;> rfl

theorem Instance.refill_av_le (t : Instance) (h : t.av ≤ t.rateBytes) : t.refill.av ≤ t.rateBytes := by
  unfold Instance.refill; split <;> simp [h]

theorem Instance.perms_le_refill (t : Instance) : t.perms ≤ t.refill.perms := by
  unfold Instance.refill; split <;> simp

/-- Squeezing changes S, AV and the PERM count only (spec/10_state.md R29), and gives m bytes. -/
theorem Instance.squeezeBytes_frame (m : Nat) (t : Instance) :
    (Instance.squeezeBytes m t).1.ph = t.ph ∧ (Instance.squeezeBytes m t).1.prm = t.prm
      ∧ (Instance.squeezeBytes m t).1.q = t.q ∧ (Instance.squeezeBytes m t).1.qb = t.qb
      ∧ (Instance.squeezeBytes m t).2.length = m := by
  induction m generalizing t with
  | zero => simp [Instance.squeezeBytes]
  | succ m ih =>
    obtain ⟨h1, h2, h3, h4, h5⟩ := ih { t.refill with av := t.refill.av - 1 }
    exact ⟨by simpa [Instance.squeezeBytes] using h1, by simpa [Instance.squeezeBytes] using h2,
      by simpa [Instance.squeezeBytes] using h3, by simpa [Instance.squeezeBytes] using h4,
      by simpa [Instance.squeezeBytes] using h5⟩

@[simp] theorem Instance.length_squeezeBytes (m : Nat) (t : Instance) : (Instance.squeezeBytes m t).2.length = m :=
  (Instance.squeezeBytes_frame m t).2.2.2.2

theorem Instance.squeezeBytes_av_le (m : Nat) (t : Instance) (h : t.av ≤ t.rateBytes) :
    (Instance.squeezeBytes m t).1.av ≤ t.rateBytes := by
  induction m generalizing t with
  | zero => exact h
  | succ m ih =>
    have := t.refill_av_le h
    have hr : t.refill.rateBytes = t.rateBytes := by simp [Instance.rateBytes]
    refine le_trans (ih { t.refill with av := t.refill.av - 1 } ?_) (le_of_eq hr)
    show t.refill.av - 1 ≤ t.refill.rateBytes
    omega

theorem Instance.perms_le_squeezeBytes (m : Nat) (t : Instance) : t.perms ≤ (Instance.squeezeBytes m t).1.perms := by
  induction m generalizing t with
  | zero => exact le_rfl
  | succ m ih => exact le_trans t.perms_le_refill (ih { t.refill with av := t.refill.av - 1 })

@[simp] theorem length_fixedFn (p : Params) (b : List Byte) (n : Nat) : (fixedFn p b n).length = p.n / 8 := by
  simp [fixedFn]

@[simp] theorem length_xofFn (p : Params) (b : List Byte) (n m : Nat) : (xofFn p b n m).length = m := by
  simp [xofFn, xofRun]

@[simp] theorem absorbed_prm (p : Params) (b : List Byte) (n : Nat) : (absorbed p b n).prm = p := by
  simp [absorbed, Instance.fresh]

end Sys2Proof.Machine
end

