-- ==== Sys2Proof/Laws/State.lean ====
section
/-! SUPPORT. One lemma per field per named update of State, true by rfl: later proofs never unfold a record update. -/

namespace Sys2Proof.Machine

/-! ### `State.complete` -/

@[simp] theorem State.complete_config (s : State) (n : Nat) : (s.complete n).config = s.config := rfl
@[simp] theorem State.complete_reorderEn (s : State) (n : Nat) : (s.complete n).reorderEn = s.reorderEn := rfl
@[simp] theorem State.complete_code (s : State) (n : Nat) : (s.complete n).code = .ok := rfl
@[simp] theorem State.complete_fault (s : State) (n : Nat) : (s.complete n).fault = s.fault := rfl
@[simp] theorem State.complete_result (s : State) (n : Nat) : (s.complete n).result = BitVec.ofNat 64 n := rfl
@[simp] theorem State.complete_arg0 (s : State) (n : Nat) : (s.complete n).arg0 = s.arg0 := rfl
@[simp] theorem State.complete_arg1 (s : State) (n : Nat) : (s.complete n).arg1 = s.arg1 := rfl
@[simp] theorem State.complete_arg2 (s : State) (n : Nat) : (s.complete n).arg2 = s.arg2 := rfl
@[simp] theorem State.complete_arg3 (s : State) (n : Nat) : (s.complete n).arg3 = s.arg3 := rfl
@[simp] theorem State.complete_inst (s : State) (n : Nat) : (s.complete n).inst = s.inst := rfl
@[simp] theorem State.complete_spm (s : State) (n : Nat) : (s.complete n).spm = s.spm := rfl
@[simp] theorem State.complete_mem (s : State) (n : Nat) : (s.complete n).mem = s.mem := rfl
@[simp] theorem State.complete_program (s : State) (n : Nat) : (s.complete n).program = s.program := rfl
@[simp] theorem State.complete_pc (s : State) (n : Nat) : (s.complete n).pc = s.pc := rfl
@[simp] theorem State.complete_readData (s : State) (n : Nat) : (s.complete n).readData = s.readData := rfl
@[simp] theorem State.complete_draws (s : State) (n : Nat) : (s.complete n).draws = s.draws := rfl
@[simp] theorem State.complete_perms (s : State) (n : Nat) : (s.complete n).perms = s.perms := rfl

/-! ### `State.raise` -/

@[simp] theorem State.raise_config (s : State) (e : Code) : (s.raise e).config = s.config := rfl
@[simp] theorem State.raise_reorderEn (s : State) (e : Code) : (s.raise e).reorderEn = s.reorderEn := rfl
@[simp] theorem State.raise_code (s : State) (e : Code) : (s.raise e).code = e := rfl
@[simp] theorem State.raise_fault (s : State) (e : Code) : (s.raise e).fault = true := rfl
@[simp] theorem State.raise_result (s : State) (e : Code) : (s.raise e).result = 0 := rfl
@[simp] theorem State.raise_arg0 (s : State) (e : Code) : (s.raise e).arg0 = s.arg0 := rfl
@[simp] theorem State.raise_arg1 (s : State) (e : Code) : (s.raise e).arg1 = s.arg1 := rfl
@[simp] theorem State.raise_arg2 (s : State) (e : Code) : (s.raise e).arg2 = s.arg2 := rfl
@[simp] theorem State.raise_arg3 (s : State) (e : Code) : (s.raise e).arg3 = s.arg3 := rfl
@[simp] theorem State.raise_inst (s : State) (e : Code) : (s.raise e).inst = s.inst := rfl
@[simp] theorem State.raise_spm (s : State) (e : Code) : (s.raise e).spm = s.spm := rfl
@[simp] theorem State.raise_mem (s : State) (e : Code) : (s.raise e).mem = s.mem := rfl
@[simp] theorem State.raise_program (s : State) (e : Code) : (s.raise e).program = s.program := rfl
@[simp] theorem State.raise_pc (s : State) (e : Code) : (s.raise e).pc = s.pc := rfl
@[simp] theorem State.raise_readData (s : State) (e : Code) : (s.raise e).readData = s.readData := rfl
@[simp] theorem State.raise_draws (s : State) (e : Code) : (s.raise e).draws = s.draws := rfl
@[simp] theorem State.raise_perms (s : State) (e : Code) : (s.raise e).perms = s.perms := rfl

/-! ### `State.setInst` -/

@[simp] theorem State.setInst_config (s : State) (k : Nat) (t : Instance) : (s.setInst k t).config = s.config := rfl
@[simp] theorem State.setInst_reorderEn (s : State) (k : Nat) (t : Instance) : (s.setInst k t).reorderEn = s.reorderEn := rfl
@[simp] theorem State.setInst_code (s : State) (k : Nat) (t : Instance) : (s.setInst k t).code = s.code := rfl
@[simp] theorem State.setInst_fault (s : State) (k : Nat) (t : Instance) : (s.setInst k t).fault = s.fault := rfl
@[simp] theorem State.setInst_result (s : State) (k : Nat) (t : Instance) : (s.setInst k t).result = s.result := rfl
@[simp] theorem State.setInst_arg0 (s : State) (k : Nat) (t : Instance) : (s.setInst k t).arg0 = s.arg0 := rfl
@[simp] theorem State.setInst_arg1 (s : State) (k : Nat) (t : Instance) : (s.setInst k t).arg1 = s.arg1 := rfl
@[simp] theorem State.setInst_arg2 (s : State) (k : Nat) (t : Instance) : (s.setInst k t).arg2 = s.arg2 := rfl
@[simp] theorem State.setInst_arg3 (s : State) (k : Nat) (t : Instance) : (s.setInst k t).arg3 = s.arg3 := rfl
@[simp] theorem State.setInst_inst (s : State) (k : Nat) (t : Instance) : (s.setInst k t).inst = s.inst.set k t := rfl
@[simp] theorem State.setInst_spm (s : State) (k : Nat) (t : Instance) : (s.setInst k t).spm = s.spm := rfl
@[simp] theorem State.setInst_mem (s : State) (k : Nat) (t : Instance) : (s.setInst k t).mem = s.mem := rfl
@[simp] theorem State.setInst_program (s : State) (k : Nat) (t : Instance) : (s.setInst k t).program = s.program := rfl
@[simp] theorem State.setInst_pc (s : State) (k : Nat) (t : Instance) : (s.setInst k t).pc = s.pc := rfl
@[simp] theorem State.setInst_readData (s : State) (k : Nat) (t : Instance) : (s.setInst k t).readData = s.readData := rfl
@[simp] theorem State.setInst_draws (s : State) (k : Nat) (t : Instance) : (s.setInst k t).draws = s.draws := rfl
@[simp] theorem State.setInst_perms (s : State) (k : Nat) (t : Instance) : (s.setInst k t).perms = s.perms := rfl

/-! ### `State.store` -/

@[simp] theorem State.store_config (s : State) (a : Nat) (bs : List Byte) : (s.store a bs).config = s.config := rfl
@[simp] theorem State.store_reorderEn (s : State) (a : Nat) (bs : List Byte) : (s.store a bs).reorderEn = s.reorderEn := rfl
@[simp] theorem State.store_code (s : State) (a : Nat) (bs : List Byte) : (s.store a bs).code = s.code := rfl
@[simp] theorem State.store_fault (s : State) (a : Nat) (bs : List Byte) : (s.store a bs).fault = s.fault := rfl
@[simp] theorem State.store_result (s : State) (a : Nat) (bs : List Byte) : (s.store a bs).result = s.result := rfl
@[simp] theorem State.store_arg0 (s : State) (a : Nat) (bs : List Byte) : (s.store a bs).arg0 = s.arg0 := rfl
@[simp] theorem State.store_arg1 (s : State) (a : Nat) (bs : List Byte) : (s.store a bs).arg1 = s.arg1 := rfl
@[simp] theorem State.store_arg2 (s : State) (a : Nat) (bs : List Byte) : (s.store a bs).arg2 = s.arg2 := rfl
@[simp] theorem State.store_arg3 (s : State) (a : Nat) (bs : List Byte) : (s.store a bs).arg3 = s.arg3 := rfl
@[simp] theorem State.store_inst (s : State) (a : Nat) (bs : List Byte) : (s.store a bs).inst = s.inst := rfl
@[simp] theorem State.store_spm (s : State) (a : Nat) (bs : List Byte) : (s.store a bs).spm = s.spm := rfl
@[simp] theorem State.store_mem (s : State) (a : Nat) (bs : List Byte) : (s.store a bs).mem = Memory.writeBytes s.mem a bs := rfl
@[simp] theorem State.store_program (s : State) (a : Nat) (bs : List Byte) : (s.store a bs).program = s.program := rfl
@[simp] theorem State.store_pc (s : State) (a : Nat) (bs : List Byte) : (s.store a bs).pc = s.pc := rfl
@[simp] theorem State.store_readData (s : State) (a : Nat) (bs : List Byte) : (s.store a bs).readData = s.readData := rfl
@[simp] theorem State.store_draws (s : State) (a : Nat) (bs : List Byte) : (s.store a bs).draws = s.draws := rfl
@[simp] theorem State.store_perms (s : State) (a : Nat) (bs : List Byte) : (s.store a bs).perms = s.perms := rfl

/-! ### `State.forgetSpm` -/

@[simp] theorem State.forgetSpm_config (s : State) : s.forgetSpm.config = s.config := rfl
@[simp] theorem State.forgetSpm_reorderEn (s : State) : s.forgetSpm.reorderEn = s.reorderEn := rfl
@[simp] theorem State.forgetSpm_code (s : State) : s.forgetSpm.code = s.code := rfl
@[simp] theorem State.forgetSpm_fault (s : State) : s.forgetSpm.fault = s.fault := rfl
@[simp] theorem State.forgetSpm_result (s : State) : s.forgetSpm.result = s.result := rfl
@[simp] theorem State.forgetSpm_arg0 (s : State) : s.forgetSpm.arg0 = s.arg0 := rfl
@[simp] theorem State.forgetSpm_arg1 (s : State) : s.forgetSpm.arg1 = s.arg1 := rfl
@[simp] theorem State.forgetSpm_arg2 (s : State) : s.forgetSpm.arg2 = s.arg2 := rfl
@[simp] theorem State.forgetSpm_arg3 (s : State) : s.forgetSpm.arg3 = s.arg3 := rfl
@[simp] theorem State.forgetSpm_inst (s : State) : s.forgetSpm.inst = s.inst := rfl
@[simp] theorem State.forgetSpm_spm (s : State) : s.forgetSpm.spm = freeScratch s.draws := rfl
@[simp] theorem State.forgetSpm_mem (s : State) : s.forgetSpm.mem = s.mem := rfl
@[simp] theorem State.forgetSpm_program (s : State) : s.forgetSpm.program = s.program := rfl
@[simp] theorem State.forgetSpm_pc (s : State) : s.forgetSpm.pc = s.pc := rfl
@[simp] theorem State.forgetSpm_readData (s : State) : s.forgetSpm.readData = s.readData := rfl
@[simp] theorem State.forgetSpm_draws (s : State) : s.forgetSpm.draws = s.draws + 1 := rfl
@[simp] theorem State.forgetSpm_perms (s : State) : s.forgetSpm.perms = s.perms := rfl

/-! ### `State.addPerms` -/

@[simp] theorem State.addPerms_config (s : State) (k : Nat) : (s.addPerms k).config = s.config := rfl
@[simp] theorem State.addPerms_reorderEn (s : State) (k : Nat) : (s.addPerms k).reorderEn = s.reorderEn := rfl
@[simp] theorem State.addPerms_code (s : State) (k : Nat) : (s.addPerms k).code = s.code := rfl
@[simp] theorem State.addPerms_fault (s : State) (k : Nat) : (s.addPerms k).fault = s.fault := rfl
@[simp] theorem State.addPerms_result (s : State) (k : Nat) : (s.addPerms k).result = s.result := rfl
@[simp] theorem State.addPerms_arg0 (s : State) (k : Nat) : (s.addPerms k).arg0 = s.arg0 := rfl
@[simp] theorem State.addPerms_arg1 (s : State) (k : Nat) : (s.addPerms k).arg1 = s.arg1 := rfl
@[simp] theorem State.addPerms_arg2 (s : State) (k : Nat) : (s.addPerms k).arg2 = s.arg2 := rfl
@[simp] theorem State.addPerms_arg3 (s : State) (k : Nat) : (s.addPerms k).arg3 = s.arg3 := rfl
@[simp] theorem State.addPerms_inst (s : State) (k : Nat) : (s.addPerms k).inst = s.inst := rfl
@[simp] theorem State.addPerms_spm (s : State) (k : Nat) : (s.addPerms k).spm = s.spm := rfl
@[simp] theorem State.addPerms_mem (s : State) (k : Nat) : (s.addPerms k).mem = s.mem := rfl
@[simp] theorem State.addPerms_program (s : State) (k : Nat) : (s.addPerms k).program = s.program := rfl
@[simp] theorem State.addPerms_pc (s : State) (k : Nat) : (s.addPerms k).pc = s.pc := rfl
@[simp] theorem State.addPerms_readData (s : State) (k : Nat) : (s.addPerms k).readData = s.readData := rfl
@[simp] theorem State.addPerms_draws (s : State) (k : Nat) : (s.addPerms k).draws = s.draws := rfl
@[simp] theorem State.addPerms_perms (s : State) (k : Nat) : (s.addPerms k).perms = s.perms + k := rfl

/-! ### `State.draw` -/

@[simp] theorem State.draw_config (s : State) : s.draw.config = s.config := rfl
@[simp] theorem State.draw_reorderEn (s : State) : s.draw.reorderEn = s.reorderEn := rfl
@[simp] theorem State.draw_code (s : State) : s.draw.code = s.code := rfl
@[simp] theorem State.draw_fault (s : State) : s.draw.fault = s.fault := rfl
@[simp] theorem State.draw_result (s : State) : s.draw.result = s.result := rfl
@[simp] theorem State.draw_arg0 (s : State) : s.draw.arg0 = s.arg0 := rfl
@[simp] theorem State.draw_arg1 (s : State) : s.draw.arg1 = s.arg1 := rfl
@[simp] theorem State.draw_arg2 (s : State) : s.draw.arg2 = s.arg2 := rfl
@[simp] theorem State.draw_arg3 (s : State) : s.draw.arg3 = s.arg3 := rfl
@[simp] theorem State.draw_inst (s : State) : s.draw.inst = s.inst := rfl
@[simp] theorem State.draw_spm (s : State) : s.draw.spm = s.spm := rfl
@[simp] theorem State.draw_mem (s : State) : s.draw.mem = s.mem := rfl
@[simp] theorem State.draw_program (s : State) : s.draw.program = s.program := rfl
@[simp] theorem State.draw_pc (s : State) : s.draw.pc = s.pc := rfl
@[simp] theorem State.draw_readData (s : State) : s.draw.readData = s.readData := rfl
@[simp] theorem State.draw_draws (s : State) : s.draw.draws = s.draws + 1 := rfl
@[simp] theorem State.draw_perms (s : State) : s.draw.perms = s.perms := rfl

/-! ### `State.writeCfg` -/

@[simp] theorem State.writeCfg_config (s : State) (v : Word64) : (s.writeCfg v).config = s.config := rfl
@[simp] theorem State.writeCfg_reorderEn (s : State) (v : Word64) : (s.writeCfg v).reorderEn = v.getLsbD 0 := rfl
@[simp] theorem State.writeCfg_code (s : State) (v : Word64) : (s.writeCfg v).code = s.code := rfl
@[simp] theorem State.writeCfg_fault (s : State) (v : Word64) : (s.writeCfg v).fault = s.fault := rfl
@[simp] theorem State.writeCfg_result (s : State) (v : Word64) : (s.writeCfg v).result = s.result := rfl
@[simp] theorem State.writeCfg_arg0 (s : State) (v : Word64) : (s.writeCfg v).arg0 = s.arg0 := rfl
@[simp] theorem State.writeCfg_arg1 (s : State) (v : Word64) : (s.writeCfg v).arg1 = s.arg1 := rfl
@[simp] theorem State.writeCfg_arg2 (s : State) (v : Word64) : (s.writeCfg v).arg2 = s.arg2 := rfl
@[simp] theorem State.writeCfg_arg3 (s : State) (v : Word64) : (s.writeCfg v).arg3 = s.arg3 := rfl
@[simp] theorem State.writeCfg_inst (s : State) (v : Word64) : (s.writeCfg v).inst = s.inst := rfl
@[simp] theorem State.writeCfg_spm (s : State) (v : Word64) : (s.writeCfg v).spm = s.spm := rfl
@[simp] theorem State.writeCfg_mem (s : State) (v : Word64) : (s.writeCfg v).mem = s.mem := rfl
@[simp] theorem State.writeCfg_program (s : State) (v : Word64) : (s.writeCfg v).program = s.program := rfl
@[simp] theorem State.writeCfg_pc (s : State) (v : Word64) : (s.writeCfg v).pc = s.pc := rfl
@[simp] theorem State.writeCfg_readData (s : State) (v : Word64) : (s.writeCfg v).readData = s.readData := rfl
@[simp] theorem State.writeCfg_draws (s : State) (v : Word64) : (s.writeCfg v).draws = s.draws := rfl
@[simp] theorem State.writeCfg_perms (s : State) (v : Word64) : (s.writeCfg v).perms = s.perms := rfl

/-! ### `State.returnRead` -/

@[simp] theorem State.returnRead_config (s : State) (v : Word64) : (s.returnRead v).config = s.config := rfl
@[simp] theorem State.returnRead_reorderEn (s : State) (v : Word64) : (s.returnRead v).reorderEn = s.reorderEn := rfl
@[simp] theorem State.returnRead_code (s : State) (v : Word64) : (s.returnRead v).code = s.code := rfl
@[simp] theorem State.returnRead_fault (s : State) (v : Word64) : (s.returnRead v).fault = s.fault := rfl
@[simp] theorem State.returnRead_result (s : State) (v : Word64) : (s.returnRead v).result = s.result := rfl
@[simp] theorem State.returnRead_arg0 (s : State) (v : Word64) : (s.returnRead v).arg0 = s.arg0 := rfl
@[simp] theorem State.returnRead_arg1 (s : State) (v : Word64) : (s.returnRead v).arg1 = s.arg1 := rfl
@[simp] theorem State.returnRead_arg2 (s : State) (v : Word64) : (s.returnRead v).arg2 = s.arg2 := rfl
@[simp] theorem State.returnRead_arg3 (s : State) (v : Word64) : (s.returnRead v).arg3 = s.arg3 := rfl
@[simp] theorem State.returnRead_inst (s : State) (v : Word64) : (s.returnRead v).inst = s.inst := rfl
@[simp] theorem State.returnRead_spm (s : State) (v : Word64) : (s.returnRead v).spm = s.spm := rfl
@[simp] theorem State.returnRead_mem (s : State) (v : Word64) : (s.returnRead v).mem = s.mem := rfl
@[simp] theorem State.returnRead_program (s : State) (v : Word64) : (s.returnRead v).program = s.program := rfl
@[simp] theorem State.returnRead_pc (s : State) (v : Word64) : (s.returnRead v).pc = s.pc := rfl
@[simp] theorem State.returnRead_readData (s : State) (v : Word64) : (s.returnRead v).readData = v := rfl
@[simp] theorem State.returnRead_draws (s : State) (v : Word64) : (s.returnRead v).draws = s.draws := rfl
@[simp] theorem State.returnRead_perms (s : State) (v : Word64) : (s.returnRead v).perms = s.perms := rfl

/-! ### `State.advance` -/

@[simp] theorem State.advance_config (s : State) : s.advance.config = s.config := rfl
@[simp] theorem State.advance_reorderEn (s : State) : s.advance.reorderEn = s.reorderEn := rfl
@[simp] theorem State.advance_code (s : State) : s.advance.code = s.code := rfl
@[simp] theorem State.advance_fault (s : State) : s.advance.fault = s.fault := rfl
@[simp] theorem State.advance_result (s : State) : s.advance.result = s.result := rfl
@[simp] theorem State.advance_arg0 (s : State) : s.advance.arg0 = s.arg0 := rfl
@[simp] theorem State.advance_arg1 (s : State) : s.advance.arg1 = s.arg1 := rfl
@[simp] theorem State.advance_arg2 (s : State) : s.advance.arg2 = s.arg2 := rfl
@[simp] theorem State.advance_arg3 (s : State) : s.advance.arg3 = s.arg3 := rfl
@[simp] theorem State.advance_inst (s : State) : s.advance.inst = s.inst := rfl
@[simp] theorem State.advance_spm (s : State) : s.advance.spm = s.spm := rfl
@[simp] theorem State.advance_mem (s : State) : s.advance.mem = s.mem := rfl
@[simp] theorem State.advance_program (s : State) : s.advance.program = s.program := rfl
@[simp] theorem State.advance_pc (s : State) : s.advance.pc = s.pc + 1 := rfl
@[simp] theorem State.advance_readData (s : State) : s.advance.readData = s.readData := rfl
@[simp] theorem State.advance_draws (s : State) : s.advance.draws = s.draws := rfl
@[simp] theorem State.advance_perms (s : State) : s.advance.perms = s.perms := rfl

/-! ### `State.resetBlock` (spec/70_reset_and_hazards.md R270) -/

@[simp] theorem State.resetBlock_config (s : State) : s.resetBlock.config = s.config := rfl
@[simp] theorem State.resetBlock_reorderEn (s : State) : s.resetBlock.reorderEn = false := rfl
@[simp] theorem State.resetBlock_code (s : State) : s.resetBlock.code = .ok := rfl
@[simp] theorem State.resetBlock_fault (s : State) : s.resetBlock.fault = false := rfl
@[simp] theorem State.resetBlock_result (s : State) : s.resetBlock.result = 0 := rfl
@[simp] theorem State.resetBlock_arg0 (s : State) : s.resetBlock.arg0 = 0 := rfl
@[simp] theorem State.resetBlock_arg1 (s : State) : s.resetBlock.arg1 = 0 := rfl
@[simp] theorem State.resetBlock_arg2 (s : State) : s.resetBlock.arg2 = 0 := rfl
@[simp] theorem State.resetBlock_arg3 (s : State) : s.resetBlock.arg3 = 0 := rfl
@[simp] theorem State.resetBlock_inst (s : State) : s.resetBlock.inst =
    (List.range s.inst.length).map fun i => freeSlot s.draws i := rfl
@[simp] theorem State.resetBlock_spm (s : State) : s.resetBlock.spm =
    freeScratch s.draws := rfl
@[simp] theorem State.resetBlock_mem (s : State) : s.resetBlock.mem = s.mem := rfl
@[simp] theorem State.resetBlock_program (s : State) : s.resetBlock.program = s.program := rfl
@[simp] theorem State.resetBlock_pc (s : State) : s.resetBlock.pc = s.pc := rfl
@[simp] theorem State.resetBlock_readData (s : State) : s.resetBlock.readData = s.readData := rfl
@[simp] theorem State.resetBlock_draws (s : State) : s.resetBlock.draws = s.draws + 1 := rfl
@[simp] theorem State.resetBlock_perms (s : State) : s.resetBlock.perms = 0 := rfl

/-! ### The operands read argument registers only -/

@[simp] theorem State.length_eq (s : State) : s.length = s.arg1.toNat := rfl
@[simp] theorem State.srcAddr_eq (s : State) : s.srcAddr = s.arg0.toNat := rfl
@[simp] theorem State.dstAddr0_eq (s : State) : s.dstAddr0 = s.arg0.toNat := rfl
@[simp] theorem State.dstAddr2_eq (s : State) : s.dstAddr2 = s.arg2.toNat := rfl
@[simp] theorem State.outBytes_eq (s : State) : s.outBytes = s.arg3.toNat := rfl
@[simp] theorem State.numInstances_eq (s : State) : s.numInstances = s.inst.length := rfl
@[simp] theorem inputBytes_eq (n : Nat) : inputBytes n = (n + 7) / 8 := rfl

/-! ### One step -/

theorem State.configured_iff (s : State) :
    s.configured = true ↔ 1 ≤ s.inst.length ∧ s.inst.length ≤ 256 ∧ s.config.wf = true := by
  unfold State.configured State.numInstances maxInstances
  rw [Bool.and_eq_true, Bool.and_eq_true, decide_eq_true_iff, decide_eq_true_iff, and_assoc]

theorem step_refuses (s : State) (h : s.configured = false) : step s = .refused .illFormedConfiguration := by
  simp [step, hostStep, h]

theorem step_idle (s : State) (h : s.configured = true) (hp : s.nextOp = none) : step s = .next s := by
  simp [step, hostStep, h, hp]

theorem step_performs (s : State) (op : HostOp) (h : s.configured = true) (hp : s.nextOp = some op) :
    step s = perform op s.advance := by
  simp [step, hostStep, h, hp]

end Sys2Proof.Machine
end

