-- ==== Sys2Proof/Laws/Exec.lean ====
section
/-! SUPPORT. Each meaning said once: it reports an error with no other effect, or it has one of the effects listed. Later
proofs cite these and do not unfold a meaning. -/

namespace Sys2Proof.Machine

/-- The command ends with an error code and no other effect (spec/60_exceptions.md R243). -/
def Fails (o : Host.Outcome State Fault Refusal) (s : State) : Prop :=
  ∃ e, e ≠ Code.ok ∧ o = .next (s.raise e)

theorem execInit_cases (vid iid : Nat) (s : State) :
    Fails (execInit vid iid s) s ∨
    ∃ t p, s.inst[iid]? = some t ∧ s.initParams vid = some p ∧
      execInit vid iid s = .next ((s.setInst iid (Instance.fresh p)).complete 0) := by
  unfold execInit Fails
  split
  · exact .inl ⟨.eInstance, by simp, rfl⟩
  · rename_i t ht
    split
    · exact .inl ⟨.eParam, by simp, rfl⟩
    · rename_i p hp
      exact .inr ⟨t, p, ht, hp, rfl⟩

theorem execAbsorb_cases (iid : Nat) (s : State) :
    Fails (execAbsorb iid s) s ∨
    ∃ t, s.inst[iid]? = some t ∧ t.ph = .absorb ∧ (0 < s.length → t.partialByte = false) ∧
      s.config.admits s.srcAddr (inputBytes s.length) = true ∧
      execAbsorb iid s = .next (((s.setInst iid (t.queueBits (s.message s.length))).addPerms
        ((t.queueBits (s.message s.length)).perms - t.perms)).complete 0) := by
  unfold execAbsorb Fails
  split
  · exact .inl ⟨.eInstance, by simp, rfl⟩
  · rename_i t ht
    split
    · exact .inl ⟨.eOrder, by simp, rfl⟩
    · rename_i hph
      split
      · exact .inl ⟨.eLength, by simp, rfl⟩
      · rename_i hlen
        split
        · exact .inl ⟨.eBus, by simp, rfl⟩
        · rename_i hbus
          refine .inr ⟨t, ht, not_not.1 hph, fun h => ?_, by rwa [Bool.not_eq_false] at hbus, rfl⟩
          by_contra hp
          exact hlen ⟨h, by rwa [Bool.not_eq_false] at hp⟩

theorem execFinalize_cases (iid : Nat) (fOut : Bool) (s : State) :
    Fails (execFinalize iid fOut s) s ∨
    ∃ t, s.inst[iid]? = some t ∧ t.ph = .absorb ∧
      ((0 < t.prm.n ∧ fOut = true ∧ s.config.admits s.dstAddr0 (t.prm.n / 8) = true ∧
        execFinalize iid fOut s = .next ((((s.setInst iid t.finalized).addPerms (t.finalized.perms - t.perms)).store
          s.dstAddr0 t.digest).complete (t.prm.n / 8))) ∨
      (¬(0 < t.prm.n ∧ fOut = true) ∧
        execFinalize iid fOut s
          = .next (((s.setInst iid t.finalized).addPerms (t.finalized.perms - t.perms)).complete 0))) := by
  unfold execFinalize Fails
  split
  · exact .inl ⟨.eInstance, by simp, rfl⟩
  · rename_i t ht
    split
    · exact .inl ⟨.eOrder, by simp, rfl⟩
    · rename_i hph
      split
      · exact .inl ⟨.eBus, by simp, rfl⟩
      · rename_i hbus
        refine .inr ⟨t, ht, not_not.1 hph, ?_⟩
        by_cases h : 0 < t.prm.n ∧ fOut = true
        · refine .inl ⟨h.1, h.2, ?_, by simp only [h, and_self, if_true]⟩
          by_contra hb
          exact hbus ⟨h.1, h.2, by rwa [Bool.not_eq_true] at hb⟩
        · exact .inr ⟨h, by simp only [h, if_false]⟩

theorem execDiscard_cases (iid : Nat) (s : State) :
    Fails (execDiscard iid s) s ∨
    ∃ t, s.inst[iid]? = some t ∧
      ((t.ph = .none ∧ execDiscard iid s = .next (s.complete 0)) ∨
       (t.ph ≠ .none ∧ execDiscard iid s = .next ((s.setInst iid (freeSlot s.draws iid)).draw.complete 0))) := by
  unfold execDiscard Fails
  split
  · exact .inl ⟨.eInstance, by simp, rfl⟩
  · rename_i t ht
    refine .inr ⟨t, ht, ?_⟩
    by_cases h : t.ph = .none <;> simp [h]

theorem execSqueeze_cases (iid : Nat) (fOut : Bool) (s : State) :
    Fails (execSqueeze iid fOut s) s ∨
    ∃ t, s.inst[iid]? = some t ∧ t.ph = .squeeze ∧ s.length % 8 = 0 ∧
      (((fOut = false ∨ s.length = 0) ∧ execSqueeze iid fOut s = .next (s.complete 0)) ∨
       (fOut = true ∧ s.length ≠ 0 ∧ s.config.admits s.dstAddr0 (s.config.clamp (s.length / 8)) = true ∧
        execSqueeze iid fOut s = .next ((((s.setInst iid
            (Instance.squeezeBytes (s.config.clamp (s.length / 8)) t).1).addPerms
          ((Instance.squeezeBytes (s.config.clamp (s.length / 8)) t).1.perms - t.perms)).store s.dstAddr0
            (Instance.squeezeBytes (s.config.clamp (s.length / 8)) t).2).complete (s.config.clamp (s.length / 8))))) := by
  unfold execSqueeze Fails
  split
  · exact .inl ⟨.eInstance, by simp, rfl⟩
  · rename_i t ht
    split
    · exact .inl ⟨.eOrder, by simp, rfl⟩
    · rename_i hph
      split
      · exact .inl ⟨.eLength, by simp, rfl⟩
      · rename_i hlen
        split
        · rename_i hnull
          exact .inr ⟨t, ht, not_not.1 hph, not_not.1 hlen, .inl ⟨hnull, rfl⟩⟩
        · rename_i hnull
          rw [not_or, Bool.not_eq_false] at hnull
          split
          · exact .inl ⟨.eBus, by simp, rfl⟩
          · rename_i hbus
            exact .inr ⟨t, ht, not_not.1 hph, not_not.1 hlen,
              .inr ⟨hnull.1, hnull.2, by rwa [Bool.not_eq_false] at hbus, rfl⟩⟩

theorem execHashFixed_cases (vid : Nat) (fOut : Bool) (s : State) :
    Fails (execHashFixed vid fOut s) s ∨
    ∃ p, s.config.fixedVariant vid = some p ∧
      ((fOut = false ∧ execHashFixed vid fOut s = .next (s.complete 0)) ∨
       (fOut = true ∧ s.config.admits s.srcAddr (inputBytes s.length) = true ∧
        s.config.admits s.dstAddr2 (p.n / 8) = true ∧
        execHashFixed vid fOut s = .next (((s.addPerms
            (absorbed p (Memory.readBytes s.mem s.srcAddr (inputBytes s.length)) s.length).perms).store s.dstAddr2
          (fixedFn p (Memory.readBytes s.mem s.srcAddr (inputBytes s.length)) s.length)).complete (p.n / 8)))) := by
  unfold execHashFixed Fails
  split
  · exact .inl ⟨.eParam, by simp, rfl⟩
  · rename_i p hp
    split
    · rename_i hf
      exact .inr ⟨p, hp, .inl ⟨hf, rfl⟩⟩
    · rename_i hf
      rw [Bool.not_eq_false] at hf
      split
      · exact .inl ⟨.eBus, by simp, rfl⟩
      · rename_i hbus
        rw [Bool.not_eq_false, Bool.and_eq_true] at hbus
        exact .inr ⟨p, hp, .inr ⟨hf, hbus.1, hbus.2, rfl⟩⟩

theorem execHashXof_cases (vid : Nat) (fOut : Bool) (s : State) :
    Fails (execHashXof vid fOut s) s ∨
    ∃ p, s.config.xofVariant vid = some p ∧
      (((fOut = false ∨ s.outBytes = 0) ∧ execHashXof vid fOut s = .next (s.complete 0)) ∨
       (fOut = true ∧ s.outBytes ≠ 0 ∧ s.config.admits s.srcAddr (inputBytes s.length) = true ∧
        s.config.admits s.dstAddr2 (s.config.clamp s.outBytes) = true ∧
        execHashXof vid fOut s = .next (((s.addPerms
            (xofPerms p (Memory.readBytes s.mem s.srcAddr (inputBytes s.length)) s.length
              (s.config.clamp s.outBytes))).store s.dstAddr2
          (xofFn p (Memory.readBytes s.mem s.srcAddr (inputBytes s.length)) s.length
            (s.config.clamp s.outBytes))).complete (s.config.clamp s.outBytes)))) := by
  unfold execHashXof Fails
  split
  · exact .inl ⟨.eParam, by simp, rfl⟩
  · rename_i p hp
    split
    · rename_i hf
      exact .inr ⟨p, hp, .inl ⟨hf, rfl⟩⟩
    · rename_i hf
      rw [not_or, Bool.not_eq_false] at hf
      split
      · exact .inl ⟨.eBus, by simp, rfl⟩
      · rename_i hbus
        rw [Bool.not_eq_false, Bool.and_eq_true] at hbus
        exact .inr ⟨p, hp, .inr ⟨hf.1, hf.2, hbus.1, hbus.2, rfl⟩⟩

/-- SPM as stage 1 leaves it (spec/43_kryptohash_pipeline.md R201). -/
def stageOneSpm (s : State) : Memory :=
  Memory.writeBytes s.spm 0 (xofFn s.config.kshakeS1 s.workInput (8 * khInBytes) khScratchBytes)

theorem execKryptohash_cases (s : State) :
    Fails (execKryptohash s) s ∨
    (s.length = khInBytes ∧ s.config.admits s.srcAddr khInBytes = true ∧ s.config.admits s.dstAddr2 khOutBytes = true ∧
      execKryptohash s = .next (((s.forgetSpm.addPerms
          (xofPerms s.config.kshakeS1 s.workInput (8 * khInBytes) khScratchBytes
            + xofPerms s.config.kshakeS2 (scratchpad (stageOneSpm s)) (8 * khScratchBytes) khOutBytes)).store s.dstAddr2
        (xofFn s.config.kshakeS2 (scratchpad (stageOneSpm s)) (8 * khScratchBytes) khOutBytes)).complete khOutBytes)) := by
  unfold execKryptohash Fails
  split
  · exact .inl ⟨.eSize, by simp, rfl⟩
  · rename_i hlen
    split
    · exact .inl ⟨.eBus, by simp, rfl⟩
    · rename_i hbus
      rw [Bool.not_eq_false, Bool.and_eq_true] at hbus
      exact .inr ⟨not_not.1 hlen, hbus.1, hbus.2, rfl⟩

/-- Stage 2 reads exactly what stage 1 wrote (spec/70_reset_and_hazards.md R286). -/
theorem scratchpad_stageOneSpm (s : State) :
    scratchpad (stageOneSpm s) = xofFn s.config.kshakeS1 s.workInput (8 * khInBytes) khScratchBytes := by
  have h := Memory.readBytes_writeBytes s.spm 0
    (xofFn s.config.kshakeS1 s.workInput (8 * khInBytes) khScratchBytes)
  rw [length_xofFn] at h
  exact h

theorem execReorder_cases (s : State) :
    Fails (execReorder s) s ∨
    (s.length % s.config.rwBytes = 0 ∧ s.config.admits s.srcAddr s.length = true ∧
      s.config.admits s.dstAddr2 s.length = true ∧
      execReorder s = .next ((s.store s.dstAddr2
        (reorderBytes s.config (Memory.readBytes s.mem s.srcAddr s.length) s.length)).complete s.length)) := by
  unfold execReorder Fails
  split
  · exact .inl ⟨.eSize, by simp, rfl⟩
  · rename_i hlen
    split
    · exact .inl ⟨.eBus, by simp, rfl⟩
    · rename_i hbus
      rw [Bool.not_eq_false, Bool.and_eq_true] at hbus
      exact .inr ⟨not_not.1 hlen, hbus.1, hbus.2, rfl⟩

@[simp] theorem length_reorderBytes (c : Config) (b : List Byte) (n : Nat) : (reorderBytes c b n).length = n := by
  simp [reorderBytes]

end Sys2Proof.Machine
end

