-- ==== Sys2Proof/Laws/PerInstr.lean ====
section
/-! SUPPORT. Statements made once per command: where the fields of a command word stand (spec/30_encoding.md R90, R93). -/

namespace Sys2Proof.Laws.WordFields

open Sys2Proof

/-- The opcode of a command (R93). -/
def opcode : Instr → Nat
  | .init _ _ => 0x01
  | .absorb _ => 0x02
  | .finalize _ _ => 0x03
  | .squeeze _ _ => 0x04
  | .discard _ => 0x05
  | .hashFixed _ _ => 0x10
  | .hashXof _ _ => 0x11
  | .kryptohash => 0x20
  | .reorder => 0x21

/-- The variant id of a command, 0 where R94 makes it a must-be-zero field. -/
def vid : Instr → Nat
  | .init v _ => v
  | .absorb _ => 0
  | .finalize _ _ => 0
  | .squeeze _ _ => 0
  | .discard _ => 0
  | .hashFixed v _ => v
  | .hashXof v _ => v
  | .kryptohash => 0
  | .reorder => 0

/-- The instance id of a command, 0 where R94 makes it a must-be-zero field. -/
def iid : Instr → Nat
  | .init _ k => k
  | .absorb k => k
  | .finalize k _ => k
  | .squeeze k _ => k
  | .discard k => k
  | .hashFixed _ _ => 0
  | .hashXof _ _ => 0
  | .kryptohash => 0
  | .reorder => 0

/-- The word of a well-formed command holds OP in bits 31:24, VID in 23:16, IID in 15:8, and 0 in RSV, bits 7:1. -/
def Statement (i : Instr) : Prop :=
  i.wf = true →
    (encodeWord i).toNat / 2 ^ 24 = opcode i ∧ (encodeWord i).toNat / 2 ^ 16 % 256 = vid i ∧
      (encodeWord i).toNat / 2 ^ 8 % 256 = iid i ∧ (encodeWord i).toNat / 2 % 128 = 0

theorem toNat_commandWord (op v k : Nat) (f : Bool) (ho : op < 256) (hv : v < 256) (hk : k < 256) :
    (commandWord op v k f).toNat / 2 ^ 24 = op ∧ (commandWord op v k f).toNat / 2 ^ 16 % 256 = v ∧
      (commandWord op v k f).toNat / 2 ^ 8 % 256 = k ∧ (commandWord op v k f).toNat / 2 % 128 = 0 := by
  have hf : f.toNat ≤ 1 := Bool.toNat_le f
  have : (commandWord op v k f).toNat = op * 2 ^ 24 + v * 2 ^ 16 + k * 2 ^ 8 + f.toNat := by
    rw [commandWord, BitVec.toNat_ofNat]; apply Nat.mod_eq_of_lt; omega
  omega

theorem init (v k : Nat) : Statement (.init v k) := fun h => by
  simp only [Instr.wf, Instr.byteField, Bool.and_eq_true, decide_eq_true_iff] at h
  exact toNat_commandWord _ _ _ _ (by decide) h.1 h.2

theorem absorb (k : Nat) : Statement (.absorb k) := fun h =>
  toNat_commandWord _ _ _ _ (by decide) (by decide) (of_decide_eq_true h)

theorem finalize (k : Nat) (f : Bool) : Statement (.finalize k f) := fun h =>
  toNat_commandWord _ _ _ _ (by decide) (by decide) (of_decide_eq_true h)

theorem squeeze (k : Nat) (f : Bool) : Statement (.squeeze k f) := fun h =>
  toNat_commandWord _ _ _ _ (by decide) (by decide) (of_decide_eq_true h)

theorem discard (k : Nat) : Statement (.discard k) := fun h =>
  toNat_commandWord _ _ _ _ (by decide) (by decide) (of_decide_eq_true h)

theorem hashFixed (v : Nat) (f : Bool) : Statement (.hashFixed v f) := fun h =>
  toNat_commandWord _ _ _ _ (by decide) (of_decide_eq_true h) (by decide)

theorem hashXof (v : Nat) (f : Bool) : Statement (.hashXof v f) := fun h =>
  toNat_commandWord _ _ _ _ (by decide) (of_decide_eq_true h) (by decide)

theorem kryptohash : Statement .kryptohash := fun _ =>
  toNat_commandWord _ _ _ _ (by decide) (by decide) (by decide)

theorem reorder : Statement .reorder := fun _ =>
  toNat_commandWord _ _ _ _ (by decide) (by decide) (by decide)

end Sys2Proof.Laws.WordFields
end

