-- ==== Sys2Proof/Laws/Platform.lean ====
section
/-! SUPPORT. The laws of Admit (spec/20_memory.md R61; spec/00_scope.md R5) and of the clamp. -/

namespace Sys2Proof

open Machine

/-- Admit(a, 0) holds for every a (R5, R61). -/
@[simp] theorem Config.admit_zero (c : Config) (a : Nat) : c.admits a 0 = true := by simp [Config.admits]

/-- An admitted non-empty range ends at or below 2^64 (R5, R61). -/
theorem Config.admit_le (c : Config) (a n : Nat) (h : c.admits a n = true) (hn : n ≠ 0) : a + n ≤ 2 ^ 64 := by
  unfold Config.admits at h
  rw [Bool.or_eq_true, decide_eq_true_iff, Bool.and_eq_true, decide_eq_true_iff] at h
  rcases h with h | h
  · exact absurd h hn
  · exact h.1

/-- The rules of a configuration can say every admission predicate that R5 allows: for any P that is true on empty ranges
and false on ranges past 2^64 there is a list of rules whose Admit is P (log 3). -/
theorem Config.admit_general (c : Config) (P : Nat → Nat → Bool) (h0 : ∀ a, P a 0 = true)
    (hle : ∀ a n, P a n = true → n ≠ 0 → a + n ≤ 2 ^ 64) :
    ∃ rules : List AdmitRule, ∀ a n, Config.admits { c with admitRules := rules } a n = P a n := by
  obtain ⟨top, htop⟩ : ∃ top : Nat, top = 2 ^ 64 + 1 := ⟨_, rfl⟩
  refine ⟨((List.range top ×ˢ List.range top).filter fun w => P w.1 w.2).map fun w =>
    { base := w.1, size := w.2, minLen := w.2, maxLen := w.2 }, fun a n => ?_⟩
  rw [Bool.eq_iff_iff]
  by_cases hn : n = 0
  · subst hn; simp [h0]
  · constructor
    · intro h
      unfold Config.admits at h
      simp only [hn, decide_false, Bool.false_or, Bool.and_eq_true, List.any_eq_true, List.mem_map,
        List.mem_filter, decide_eq_true_eq] at h
      obtain ⟨-, w, ⟨v, ⟨-, hv⟩, rfl⟩, hw⟩ := h
      simp only at hw
      have h1 : v.1 = a := by omega
      have h2 : v.2 = n := by omega
      rwa [h1, h2] at hv
    · intro h
      have hle' := hle a n h hn
      unfold Config.admits
      simp only [hn, decide_false, Bool.false_or, Bool.and_eq_true, List.any_eq_true, List.mem_map,
        List.mem_filter, decide_eq_true_eq]
      refine ⟨hle', { base := a, size := n, minLen := n, maxLen := n }, ⟨(a, n), ⟨?_, h⟩, rfl⟩, ?_⟩
      · simp only [List.mem_product, List.mem_range]; omega
      · simp

@[simp] theorem Config.clamp_le_max (c : Config) (m : Nat) : c.clamp m ≤ c.xofMaxBytes := Nat.min_le_right _ _

@[simp] theorem Config.clamp_le (c : Config) (m : Nat) : c.clamp m ≤ m := Nat.min_le_left _ _

theorem Config.clamp_of_le (c : Config) (m : Nat) (h : m ≤ c.xofMaxBytes) : c.clamp m = m := Nat.min_eq_left h

end Sys2Proof
end

