-- ==== Sys2Proof/Laws/Stream.lean ====
section
/-! SUPPORT. The engine's queue and counters against the stream equations: what a run of QueueBit leaves in the queue and in
S (spec/40_sponge_absorb.md R130, R133), and what SqueezeBytes emits (spec/41_sponge_squeeze.md R152, R154). -/

namespace Sys2Proof.Machine

/-! ### Packing and XOR, bit by bit -/

theorem getLsbD_packByte (bits : List Bool) (j n k : Nat) (hn : n ≤ 8) :
    ((List.range n).foldl
      (fun acc i => acc ||| (BitVec.ofBool (bits.getD (8 * j + i) false)).setWidth 8 <<< i) (0 : Byte)).getLsbD k
      = (decide (k < n) && bits.getD (8 * j + k) false) := by
  induction n with
  | zero => simp
  | succ n ih =>
    have h := ih (by omega)
    rw [List.range_succ, List.foldl_append, List.foldl_cons, List.foldl_nil, BitVec.getLsbD_or, h]
    rw [BitVec.getLsbD_shiftLeft, BitVec.getLsbD_setWidth, BitVec.getLsbD_ofBool]
    rcases lt_trichotomy k n with hk | hk | hk
    · simp [hk, show k < n + 1 by omega]
    · subst hk; simp [show k < 8 by omega]
    · simp [show ¬k < n + 1 by omega, show ¬k < n by omega, show k - n ≠ 0 by omega]

/-- Bit p of a packed bit string (spec/00_scope.md R8). -/
theorem bitAt_packBits (bits : List Bool) (p : Nat) (hp : p < wBits) : bitAt (packBits bits) p = bits.getD p false := by
  unfold bitAt packBits
  rw [byteAt_of_lt _ _ ((div_lt_stateBytes p).2 hp), Vector.getElem_ofFn, getLsbD_packByte _ _ _ _ (by omega)]
  simp [show p % 8 < 8 by omega, show 8 * (p / 8) + p % 8 = p by omega]

theorem bitAt_xorBytes (s x : Bytes200) (p : Nat) (hp : p < wBits) :
    bitAt (xorBytes s x) p = (bitAt s p ^^ bitAt x p) := by
  have hj := (div_lt_stateBytes p).2 hp
  unfold bitAt xorBytes
  rw [byteAt_of_lt _ _ hj, Vector.getElem_ofFn, byteAt_of_lt s _ hj, byteAt_of_lt x _ hj]
  simp

/-! ### Queueing -/

/-- Bits that do not fill the block go into the queue at QB and above, and S is untouched. -/
theorem Instance.queueBits_short (t : Instance) (bits : List Bool) (hr : t.prm.r ≤ wBits)
    (h : t.qb + bits.length < t.prm.r) :
    (t.queueBits bits).s = t.s ∧ (t.queueBits bits).qb = t.qb + bits.length ∧ (t.queueBits bits).perms = t.perms ∧
    ∀ p, bitAt (t.queueBits bits).q p = (bitAt t.q p || (decide (t.qb ≤ p) && bits.getD (p - t.qb) false)) := by
  induction bits generalizing t with
  | nil => simp
  | cons b bits ih =>
    rw [List.length_cons] at h
    have hq := t.queueBit_of_lt b (by omega)
    obtain ⟨h1, h2, h3, h4⟩ := ih (t.queueBit b) (by simpa using hr) (by rw [hq]; simp only; omega)
    rw [Instance.queueBits_cons]
    refine ⟨by rw [h1, hq], by rw [h2, hq, List.length_cons]; simp only; omega, by rw [h3, hq], fun p => ?_⟩
    rw [h4 p, hq]
    simp only
    rw [bitAt_orBit _ _ _ _ (by omega)]
    rcases lt_trichotomy p t.qb with hp | hp | hp
    · simp [show p ≠ t.qb by omega, show ¬t.qb ≤ p by omega, show ¬t.qb + 1 ≤ p by omega]
    · subst hp; simp
    · simp [show p ≠ t.qb by omega, show t.qb ≤ p by omega, show t.qb + 1 ≤ p by omega,
        show p - t.qb = (p - (t.qb + 1)) + 1 by omega]

/-- The bits that complete a block XOR the queue, with them, into S, and PERM follows. -/
theorem Instance.queueBits_full (t : Instance) (bits : List Bool) (hr : t.prm.r ≤ wBits) (h8 : t.prm.r % 8 = 0)
    (hq : t.qb < t.prm.r) (hc : ∀ p, t.qb ≤ p → bitAt t.q p = false) (h : t.qb + bits.length = t.prm.r) :
    ∃ before : Bytes200,
      t.queueBits bits = { t with s := Config.perm before, q := zero200, qb := 0, perms := t.perms + 1 } ∧
      ∀ p, bitAt before p
        = (bitAt t.s p ^^ (bitAt t.q p || (decide (t.qb ≤ p) && bits.getD (p - t.qb) false))) := by
  obtain ⟨init, last, rfl⟩ : ∃ init last, bits = init ++ [last] :=
    ⟨bits.dropLast, bits.getLast (by rintro rfl; simp at h; omega), (List.dropLast_append_getLast _).symm⟩
  rw [List.length_append, List.length_singleton] at h
  obtain ⟨h1, h2, h3, h4⟩ := t.queueBits_short init hr (by omega)
  have hf : (t.queueBits init).qb + 1 = (t.queueBits init).prm.r := by rw [h2, Instance.queueBits_prm]; omega
  refine ⟨xorFirst (t.queueBits init).rateBytes (t.queueBits init).s (orBit (t.queueBits init).q (t.queueBits init).qb last),
    ?_, fun p => ?_⟩
  · rw [Instance.queueBits_append, Instance.queueBits_cons, Instance.queueBits_nil, Instance.queueBit_of_full _ _ hf, h3]
    cases hu : t.queueBits init
    have e1 := t.queueBits_prm init
    have e2 := t.queueBits_ph init
    have e3 := t.queueBits_av init
    rw [hu] at e1 e2 e3
    simp only at e1 e2 e3
    subst e1 e2 e3
    rfl
  · by_cases hp : p < wBits
    · rw [bitAt_xorFirst _ _ _ _ hp, Instance.rateBytes, Instance.queueBits_prm, h1, bitAt_orBit _ _ _ _ (by rw [h2]; omega),
        h4 p, h2]
      have hsplit : (init ++ [last]).getD (p - t.qb) false
          = (init.getD (p - t.qb) false || (decide (p - t.qb = init.length) && last)) := by
        rcases lt_trichotomy (p - t.qb) init.length with hl | hl | hl
        · simp [List.getD_eq_getElem?_getD, hl, List.getElem?_append_left, show p - t.qb ≠ init.length by omega]
        · simp [List.getD_eq_getElem?_getD, hl]
        · rw [List.getD_eq_default _ _ (by simp; omega), List.getD_eq_default _ _ (by omega)]
          simp [show p - t.qb ≠ init.length by omega]
      rw [hsplit]
      by_cases hk : p / 8 < t.prm.r / 8
      · rw [if_pos hk]
        by_cases hl : t.qb ≤ p
        · simp only [hl, decide_true, Bool.true_and]
          rw [show (decide (p = t.qb + init.length)) = decide (p - t.qb = init.length) by
            rw [decide_eq_decide]; omega]
          rw [Bool.or_assoc]
        · simp [hl, show p ≠ t.qb + init.length by omega]
      · rw [if_neg hk, hc p (by omega), List.getD_eq_default _ _ (show init.length ≤ p - t.qb by omega)]
        simp [show p - t.qb ≠ init.length by omega]
    · rw [bitAt_of_ge _ _ (by omega), bitAt_of_ge _ _ (by omega), bitAt_of_ge t.q _ (by omega),
        List.getD_eq_default _ _ (by simp; omega)]
      simp

/-- A whole rate-block on an empty queue: one step of the stream equation (R133). -/
theorem Instance.queueBits_block (t : Instance) (bits : List Bool) (hr : t.prm.r ≤ wBits) (h8 : t.prm.r % 8 = 0)
    (hpos : 0 < t.prm.r) (hqb : t.qb = 0) (hq : t.q = zero200) (h : bits.length = t.prm.r) :
    t.queueBits bits = { t with s := Config.perm (xorBytes t.s (packBits bits)), perms := t.perms + 1 } := by
  obtain ⟨before, he, hb⟩ := t.queueBits_full bits hr h8 (by omega) (fun p _ => by rw [hq]; simp) (by omega)
  have : before = xorBytes t.s (packBits bits) := by
    refine bits_ext _ _ fun p hp => ?_
    rw [hb p, bitAt_xorBytes _ _ _ hp, bitAt_packBits _ _ hp, hq, hqb]
    simp
  rw [he, this, hq, hqb]

/-- After b whole rate-blocks on a fresh instance S is S_b, and b PERMs have been applied (R133). -/
theorem queueBits_blocks (p : Params) (x : List Bool) (b : Nat) (hr : p.r ≤ wBits) (h8 : p.r % 8 = 0) (hpos : 0 < p.r)
    (h : b * p.r ≤ x.length) :
    (Instance.fresh p).queueBits (x.take (b * p.r))
      = { Instance.fresh p with s := streamState p.r x b, perms := b } := by
  induction b with
  | zero => simp [streamState, Instance.fresh]
  | succ b ih =>
    have hle : b * p.r ≤ x.length := le_trans (Nat.mul_le_mul_right _ (by omega)) h
    have e : (b + 1) * p.r = b * p.r + p.r := Nat.succ_mul b p.r
    have hs : x.take ((b + 1) * p.r) = x.take (b * p.r) ++ blockOf p.r x b := by
      rw [e, List.take_add, blockOf]
    rw [hs, Instance.queueBits_append, ih hle, Instance.queueBits_block]
    · rfl
    · exact hr
    · exact h8
    · exact hpos
    · rfl
    · rfl
    · rw [blockOf, List.length_take, List.length_drop]
      show min p.r (x.length - b * p.r) = p.r
      omega

/-- A whole padded stream on a fresh instance (R133). -/
theorem queueBits_stream (p : Params) (x : List Bool) (b : Nat) (hr : p.r ≤ wBits) (h8 : p.r % 8 = 0) (hpos : 0 < p.r)
    (h : x.length = b * p.r) :
    (Instance.fresh p).queueBits x = { Instance.fresh p with s := streamState p.r x b, perms := b } := by
  have := queueBits_blocks p x b hr h8 hpos (le_of_eq h.symm)
  rwa [← h, List.take_length] at this

/-! ### Squeezing -/

/-- What SqueezeBytes emits and leaves: the next m bytes of the output stream, with one PERM for each time AV was 0 before a byte
(spec/41_sponge_squeeze.md R152, R154). -/
theorem Instance.squeezeBytes_eq (m : Nat) (t : Instance) (hr : 0 < t.prm.r / 8) (hav : t.av ≤ t.prm.r / 8) :
    Instance.squeezeBytes m t =
      ({ t with
          s := permIter (if m ≤ t.av then 0 else ceilDiv (m - t.av) (t.prm.r / 8)) t.s
          av := t.av + (if m ≤ t.av then 0 else ceilDiv (m - t.av) (t.prm.r / 8)) * (t.prm.r / 8) - m
          perms := t.perms + (if m ≤ t.av then 0 else ceilDiv (m - t.av) (t.prm.r / 8)) },
        (List.range m).map fun k => outputByte t.prm.r t.s (t.prm.r / 8 - t.av + k)) := by
  obtain ⟨R, hR⟩ : ∃ R, R = t.prm.r / 8 := ⟨_, rfl⟩
  induction m generalizing t with
  | zero => simp [Instance.squeezeBytes, permIter]
  | succ m ih =>
    rw [← hR] at hr hav ⊢
    by_cases h0 : t.av = 0
    · have hu : t.refill = { t with s := Config.perm t.s, av := R, perms := t.perms + 1 } := by
        simp [Instance.refill, h0, Instance.rateBytes, hR]
      have hk : ∀ k', (if m ≤ R - 1 then 0 else ceilDiv (m - (R - 1)) R) = k' → ceilDiv (m + 1) R = k' + 1 := by
        rintro k' rfl
        split
        · rename_i hm
          unfold ceilDiv
          rw [Nat.div_eq_of_lt_le (k := 1)] <;> omega
        · rename_i hm
          unfold ceilDiv
          rw [show m + 1 + R - 1 = (m - (R - 1) + R - 1) + R by omega, Nat.add_div_right _ hr]
      obtain ⟨k', hk'⟩ : ∃ k', (if m ≤ R - 1 then 0 else ceilDiv (m - (R - 1)) R) = k' := ⟨_, rfl⟩
      have hk1 := hk k' hk'
      have hih := ih { t with s := Config.perm t.s, av := R - 1, perms := t.perms + 1 } (by simpa [← hR] using hr)
        (by simp only; omega) hR
      simp only [← hR, hk'] at hih
      simp only [Instance.squeezeBytes, hu]
      rw [hih]
      simp only [Prod.mk.injEq]
      constructor
      · rw [h0, if_neg (by omega), Nat.sub_zero, hk1]
        simp only [permIter, Instance.mk.injEq, true_and]
        refine ⟨?_, by omega⟩
        rw [Nat.succ_mul]; omega
      · rw [List.range_succ_eq_map, List.map_cons, List.map_map, List.cons_eq_cons]
        constructor
        · simp [Instance.nextByte, Instance.rateBytes, outputByte, ← hR, h0, Nat.div_self hr, permIter]
        · apply List.map_congr_left
          intro k _
          simp only [Function.comp, outputByte, ← hR, h0]
          rw [show R - 0 + (k + 1) = (R - (R - 1) + k) + R by omega, Nat.add_div_right _ hr, Nat.add_mod_right]
          rfl
    · have hu : t.refill = t := by simp [Instance.refill, h0]
      have hih := ih { t with av := t.av - 1 } (by simpa [← hR] using hr) (by simp only; omega) hR
      simp only [← hR] at hih
      simp only [Instance.squeezeBytes, hu]
      rw [hih]
      have hk : (if m ≤ t.av - 1 then 0 else ceilDiv (m - (t.av - 1)) R)
          = if m + 1 ≤ t.av then 0 else ceilDiv (m + 1 - t.av) R := by
        by_cases hm : m + 1 ≤ t.av
        · rw [if_pos hm, if_pos (by omega)]
        · rw [if_neg hm, if_neg (by omega), show m - (t.av - 1) = m + 1 - t.av by omega]
      rw [hk]
      simp only [Prod.mk.injEq]
      constructor
      · simp only [Instance.mk.injEq, true_and, and_true]
        omega
      · rw [List.range_succ_eq_map, List.map_cons, List.map_map, List.cons_eq_cons]
        constructor
        · simp only [Instance.nextByte, Instance.rateBytes, outputByte, ← hR, Nat.add_zero]
          rw [Nat.div_eq_of_lt (show R - t.av < R by omega), Nat.mod_eq_of_lt (show R - t.av < R by omega)]
          rfl
        · apply List.map_congr_left
          intro k _
          simp only [Function.comp]
          rw [show R - (t.av - 1) + k = R - t.av + (k + 1) by omega]

end Sys2Proof.Machine
end

