-- ==== Sys2Proof/Tests/Slice0.lean ====
section
/-! SUPPORT. Tests: well-formedness, decoding, one step at a time, and for every statement with hypotheses a state that meets
them together. Expected values are those of spec/30_encoding.md and spec/95_test_vectors.md, by their vector numbers. -/

namespace Sys2Proof.Tests

open Sys2Proof Sys2Proof.Machine

/-! ### Well-formed commands (R90, R91): every field of every constructor at 255 and at 256 -/

theorem test_wf_init : (Instr.init 255 255).wf = true ∧ (Instr.init 256 0).wf = false ∧ (Instr.init 0 256).wf = false := by
  decide

theorem test_wf_instance_commands :
    (Instr.absorb 255).wf = true ∧ (Instr.absorb 256).wf = false ∧ (Instr.finalize 255 true).wf = true
      ∧ (Instr.finalize 256 true).wf = false ∧ (Instr.squeeze 255 false).wf = true ∧ (Instr.squeeze 256 false).wf = false
      ∧ (Instr.discard 255).wf = true ∧ (Instr.discard 256).wf = false := by
  decide

theorem test_wf_one_shot_commands :
    (Instr.hashFixed 255 true).wf = true ∧ (Instr.hashFixed 256 true).wf = false ∧ (Instr.hashXof 255 false).wf = true
      ∧ (Instr.hashXof 256 false).wf = false ∧ Instr.kryptohash.wf = true ∧ Instr.reorder.wf = true := by
  decide

/-! ### Well-formed configurations (R5): one broken constraint at a time -/

theorem test_ex_wf : Config.ex.wf = true := by decide +kernel

theorem test_ill_formed_rates :
    Config.wf { Config.ex with fxRate256 := 1152 } = false ∧ Config.wf { Config.ex with fxRate224 := 1600 } = false
      ∧ Config.wf { Config.ex with fxRate512 := 448 } = false ∧ Config.wf { Config.ex with xofRateA := 1600 } = false
      ∧ Config.wf { Config.ex with xofRateB := 1000 } = false ∧ Config.wf { Config.ex with khRate2Bits := 960 } = false
      ∧ Config.wf { Config.ex with khRate2Bits := 0 } = false := by
  decide +kernel

theorem test_ill_formed_lengths :
    Config.wf { Config.ex with xofMaxBytes := 65519 } = false ∧ Config.wf { Config.ex with xofMaxBytes := 2 ^ 64 } = false
      ∧ Config.wf { Config.ex with sufFixed := List.replicate 33 true } = false
      ∧ Config.wf { Config.ex with sufXof := List.replicate 33 true } = false
      ∧ Config.wf { Config.ex with sufK1 := List.replicate 33 true } = false
      ∧ Config.wf { Config.ex with sufK2 := List.replicate 33 true } = false := by
  decide +kernel

theorem test_ill_formed_extra :
    Config.wf { Config.ex with kshakeExtra := [⟨0x12, 64, []⟩] } = true
      ∧ Config.wf { Config.ex with kshakeExtra := [⟨0x11, 64, []⟩] } = false
      ∧ Config.wf { Config.ex with kshakeExtra := [⟨0x20, 64, []⟩] } = false
      ∧ Config.wf { Config.ex with kshakeExtra := [⟨0x12, 64, []⟩, ⟨0x12, 128, []⟩] } = false := by
  decide +kernel

theorem test_ill_formed_reorder :
    Config.wf { Config.ex with rwBytes := 4, rwMap := [3, 2, 1, 0] } = true
      ∧ Config.wf { Config.ex with rwBytes := 0, rwMap := [] } = false
      ∧ Config.wf { Config.ex with rwBytes := 7, rwMap := [6, 5, 4, 3, 2, 1, 0] } = false
      ∧ Config.wf { Config.ex with rwBytes := 3, rwMap := [1, 2, 0] } = false
      ∧ Config.wf { Config.ex with rwBytes := 3, rwMap := [0, 1, 3] } = false := by
  decide +kernel

/-! ### Decoding (R90 to R94): words written out field by field, OP, VID, IID, RSV and F_OUT -/

theorem test_decode_init : decode 0b00000001_00000010_00000011_0000000_0 = .ok (.init 2 3) := by decide
theorem test_decode_absorb : decode 0b00000010_00000000_11111111_0000000_0 = .ok (.absorb 255) := by decide
theorem test_decode_finalize : decode 0b00000011_00000000_00000001_0000000_1 = .ok (.finalize 1 true) := by decide
theorem test_decode_squeeze : decode 0b00000100_00000000_10000000_0000000_0 = .ok (.squeeze 128 false) := by decide
theorem test_decode_discard : decode 0b00000101_00000000_00000111_0000000_0 = .ok (.discard 7) := by decide
theorem test_decode_hash_fixed : decode 0b00010000_00000100_00000000_0000000_1 = .ok (.hashFixed 4 true) := by decide
theorem test_decode_hash_xof : decode 0b00010001_00001001_00000000_0000000_0 = .ok (.hashXof 9 false) := by decide
theorem test_decode_kryptohash : decode 0b00100000_00000000_00000000_0000000_0 = .ok .kryptohash := by decide
theorem test_decode_reorder : decode 0b00100001_00000000_00000000_0000000_0 = .ok .reorder := by decide

/-- The words of spec/95_test_vectors.md section 3 and V-F11. -/
theorem test_decode_programs :
    decode 0x01080100 = .ok (.init 8 1) ∧ decode 0x02000200 = .ok (.absorb 2) ∧ decode 0x03000200 = .ok (.finalize 2 false)
      ∧ decode 0x04000301 = .ok (.squeeze 3 true) ∧ decode 0x10020000 = .ok (.hashFixed 2 false)
      ∧ decode 0x11080001 = .ok (.hashXof 8 true) := by
  decide

/-- V-E1 to V-E7, and each must-be-zero field of R94. -/
theorem test_decode_rejects :
    decode 0x00000000 = .error .reservedOpcode ∧ decode 0x06000000 = .error .reservedOpcode
      ∧ decode 0x22000000 = .error .reservedOpcode ∧ decode 0x0000000101020000 = .error .highWord
      ∧ decode 0x8000000000000000 = .error .highWord ∧ decode 0x01020002 = .error .reservedBits
      ∧ decode 0x01020080 = .error .reservedBits ∧ decode 0x01020001 = .error .mustBeZero
      ∧ decode 0x02010000 = .error .mustBeZero ∧ decode 0x02000001 = .error .mustBeZero
      ∧ decode 0x03010000 = .error .mustBeZero ∧ decode 0x04800000 = .error .mustBeZero
      ∧ decode 0x05000001 = .error .mustBeZero ∧ decode 0x10020100 = .error .mustBeZero
      ∧ decode 0x11088000 = .error .mustBeZero ∧ decode 0x20000001 = .error .mustBeZero
      ∧ decode 0x21000100 = .error .mustBeZero := by
  decide

/-- The encodings of spec/30_encoding.md R93 and R102, written out there. -/
theorem test_encode :
    encode (.init 2 0) = 0x01020000 ∧ encode (.absorb 0) = 0x02000000 ∧ encode (.finalize 0 true) = 0x03000001
      ∧ encode (.squeeze 1 true) = 0x04000101 ∧ encode (.discard 3) = 0x05000300 ∧ encode (.hashFixed 2 false) = 0x10020000
      ∧ encode (.hashXof 8 true) = 0x11080001 ∧ encode .kryptohash = 0x20000000 ∧ encode .reorder = 0x21000000 := by
  decide

theorem test_decode_table_word :
    decodeTableWord 32 0x04000301 = some (.squeeze 3 true) ∧ decodeTableWord 32 0x06000000 = none := by
  decide

/-! ### A small state to step from -/

/-- A legal custom set with a short rate: r = 64, c = 1536. -/
def short (d : List Bool) (n : Nat) : Params := Config.tuple 64 d n (if 0 < n then .fixed else .xof)

/-- The reset state with instance 0 replaced and the argument registers set. -/
def at0 (u : Instance) (a0 a1 a2 a3 : Word64) : State :=
  { State.reset with
    inst := [u, Instance.blank, Instance.blank, Instance.blank], arg0 := a0, arg1 := a1, arg2 := a2, arg3 := a3 }

/-- The reset state with the argument registers set. -/
def args (a0 a1 a2 a3 : Word64) : State := at0 Instance.blank a0 a1 a2 a3

/-- The host's next operation. -/
def next (op : HostOp) (s : State) : State := { s with program := [op] }

/-- An instance in phase SQUEEZE with av bytes available. -/
def squeezing (p : Params) (av : Nat) : Instance := { Instance.fresh p with ph := .squeeze, av := av }

/-- An instance in phase ABSORB holding qb zero bits. -/
def holding (p : Params) (qb : Nat) : Instance := { Instance.fresh p with qb := qb }

/-- What a test looks at after a step: STATUS and RESULT. -/
def seen : Host.Outcome State Fault Refusal → Option (Word64 × Word64)
  | .next t => some (t.status, t.result)
  | .fault _ => none
  | .refused _ => none

/-- Why a step was refused. -/
def refusal : Host.Outcome State Fault Refusal → Option Refusal
  | .next _ => none
  | .fault _ => none
  | .refused r => some r

/-- Phase, QB, AV and PERM count of instance 0 after a step. -/
def slot0 : Host.Outcome State Fault Refusal → Option (Phase × Nat × Nat × Nat)
  | .next t => (t.inst[0]?).map fun u => (u.ph, u.qb, u.av, u.perms)
  | .fault _ => none
  | .refused _ => none

/-- The bytes of HM at a range after a step. -/
def bytes (a n : Nat) : Host.Outcome State Fault Refusal → Option (List Byte)
  | .next t => some (Memory.readBytes t.mem a n)
  | .fault _ => none
  | .refused _ => none

/-! ### Commands -/

/-- V-E9: the instance check comes first. V-E13: r + c != 1600. -/
theorem test_init_errors :
    seen (exec (.init 0 9) (args 0 0 0 0)) = some (0x102, 0) ∧ seen (exec (.init 5 0) (args 0 0 0 0)) = some (0x103, 0)
      ∧ seen (exec (.init 0xFF 0) (args 0x0000010001F40440 0x0000000200000002 0 0)) = some (0x103, 0)
      ∧ seen (exec (.init 0xFF 0) (args 0x0000010402000440 0x0000000200000002 0 0)) = some (0x103, 0)
      ∧ seen (exec (.init 0xFF 0) (args 0x0000010002000440 0x0000000200000006 0 0)) = some (0x103, 0) := by
  decide +kernel

/-- V-F10: the custom set is VARIANT[0x02]. -/
theorem test_init_custom :
    (args 0x0000010002000440 0x0000000200000002 0 0).initParams 0xFF = Config.ex.variant 0x02 := by
  decide +kernel

/-- P1 line 3: the queue holds "ab" and QB = 16. -/
theorem test_absorb_queue :
    slot0 (exec (.absorb 0) { at0 (Instance.fresh (short [] 0)) 0x1000 16 0 0 with mem := [(0x1000, 0x61), (0x1001, 0x62)] })
      = some (.absorb, 16, 0, 0) := by
  decide +kernel

/-- V-E23, V-E28, V-E29 and V-E37. -/
theorem test_absorb_checks :
    seen (exec (.absorb 0) (args 0x1000 8 0 0)) = some (0x104, 0)
      ∧ seen (exec (.absorb 0) (at0 (holding (short [] 0) 5) 0x1000 8 0 0)) = some (0x105, 0)
      ∧ seen (exec (.absorb 0) (at0 (holding (short [] 0) 5) 0x1000 0 0 0)) = some (0, 0)
      ∧ seen (exec (.absorb 0) (at0 (holding (short [] 0) 0) 0xFFFFF 16 0 0)) = some (0x107, 0) := by
  decide +kernel

/-- V-E38: an extendable-output instance ignores its destination. V-E39: a fixed-digest one does not. -/
theorem test_finalize_destination :
    seen (exec (.finalize 0 true) (at0 (holding (short [] 0) 0) 0xFFFFFFFFFFFFFFF0 0 0 0)) = some (0, 0)
      ∧ seen (exec (.finalize 0 true) (at0 (holding (short [] 32) 0) 0xFFFFFFFFFFFFFFF0 0 0 0)) = some (0x107, 0) := by
  decide +kernel

/-- V-P1 to V-P4 with r = 960 and D = "1111": the PERMs of Pad; V-P2 is the spill case. -/
theorem test_finalize_perms :
    slot0 (exec (.finalize 0 false) (at0 (holding Config.ex.kshakeS1 0) 0 0 0 0)) = some (.squeeze, 0, 120, 1)
      ∧ slot0 (exec (.finalize 0 false) (at0 (holding Config.ex.kshakeS1 954) 0 0 0 0)) = some (.squeeze, 0, 120, 1)
      ∧ slot0 (exec (.finalize 0 false) (at0 (holding Config.ex.kshakeS1 955) 0 0 0 0)) = some (.squeeze, 0, 120, 2) := by
  decide +kernel

/-- V-S5: RESULT = 200, one PERM, AV = 40. -/
theorem test_squeeze_crosses_a_block :
    seen (exec (.squeeze 0 true) (at0 (squeezing Config.ex.kshakeS1 120) 0x3000 1600 0 0)) = some (0, 200)
      ∧ slot0 (exec (.squeeze 0 true) (at0 (squeezing Config.ex.kshakeS1 120) 0x3000 1600 0 0))
        = some (.squeeze, 0, 40, 1) := by
  decide +kernel

/-- V-E30, V-E31, V-E32, V-S6. -/
theorem test_squeeze_checks :
    seen (exec (.squeeze 0 true) (at0 (squeezing (short [] 0) 8) 0x3000 12 0 0)) = some (0x105, 0)
      ∧ seen (exec (.squeeze 0 false) (at0 (squeezing (short [] 0) 8) 0x3000 12 0 0)) = some (0x105, 0)
      ∧ seen (exec (.squeeze 0 false) (at0 (holding (short [] 0) 0) 0x3000 256 0 0)) = some (0x104, 0)
      ∧ slot0 (exec (.squeeze 0 false) (at0 (squeezing (short [] 0) 8) 0 800 0 0)) = some (.squeeze, 0, 8, 0) := by
  decide +kernel

/-- V-E40, V-E42. -/
theorem test_discard :
    seen (exec (.discard 3) (args 0 0 0 0)) = some (0, 0)
      ∧ (slot0 (exec (.discard 0) (at0 (squeezing (short [] 0) 8) 0 0 0 0))).map Prod.fst = some .none := by
  decide +kernel

/-- V-E20, V-E22, V-F11. -/
theorem test_hash_fixed_checks :
    seen (exec (.hashFixed 0x08 true) (args 0 0 0 0)) = some (0x103, 0)
      ∧ seen (exec (.hashFixed 0xFF true) (args 0 0 0 0)) = some (0x103, 0)
      ∧ seen (exec (.hashFixed 0x02 false) (args 0xFFFFFFFFFFFFFFFF 8 0 0)) = some (0, 0)
      ∧ seen (exec (.hashFixed 0x02 true) (args 0x1000 0 0x2000 0)) = some (0, 32) := by
  decide +kernel

/-- V-E21, V-S8, V-S9, V-S10. -/
theorem test_hash_xof_checks :
    seen (exec (.hashXof 0x02 true) (args 0 0 0 0)) = some (0x103, 0)
      ∧ seen (exec (.hashXof 0x09 true) (args 0x1000 0 0x2000 70000)) = some (0, 65520)
      ∧ seen (exec (.hashXof 0x09 true) (args 0x1000 0 0xFFFF0 32)) = some (0x107, 0)
      ∧ seen (exec (.hashXof 0x08 true) (args 0x1000 0 0x2000 0)) = some (0, 0) := by
  decide +kernel

/-- V-E33, V-E34, V-K1. -/
theorem test_kryptohash_checks :
    seen (exec .kryptohash (args 0x1000 119 0x2000 0)) = some (0x106, 0)
      ∧ seen (exec .kryptohash (args 0x1000 120 0xFFFE0 0)) = some (0x107, 0)
      ∧ seen (exec .kryptohash (args 0x1000 120 0x1100 0)) = some (0, 40) := by
  decide +kernel

/-- V-R5 with one word: overlapping ranges, dst > src, computed from the snapshot. -/
theorem test_reorder_overlap :
    bytes 0x1005 15 (exec .reorder { args 0x1000 15 0x1005 0 with mem := [(0x1001, 1), (0x1002, 2), (0x1003, 3), (0x1004, 4),
      (0x1005, 5), (0x1006, 6), (0x1007, 7), (0x1008, 8), (0x1009, 9), (0x100A, 10), (0x100B, 11), (0x100C, 12),
      (0x100D, 13), (0x100E, 14)] }) = some [14, 13, 12, 11, 10, 9, 8, 7, 6, 5, 4, 3, 2, 1, 0] := by
  decide +kernel

/-- V-E35, V-E36. -/
theorem test_reorder_checks :
    seen (exec .reorder (args 0x1000 14 0x2000 0)) = some (0x106, 0)
      ∧ seen (exec .reorder (args 0x1000 0 0x2000 0)) = some (0, 0) := by
  decide +kernel

/-! ### Steps -/

/-- V-E41: FAULT stays 1 after the next success. -/
theorem test_fault_is_sticky :
    seen (step (next (.wr .cmd 0x01020000) { args 0 0 0 0 with fault := true, code := .eOpcode })) = some (0x100, 0) := by
  decide +kernel

/-- R32, R35: a CFG write stores bit 0 only; STATUS ignores a write. -/
theorem test_register_writes :
    seen (step (next (.wr .status 0xFFFF) (args 0 0 0 0))) = some (0, 0)
      ∧ ((args 0 0 0 0).writeCfg 0xFFFFFFFFFFFFFFFF).cfg = 1 ∧ ((args 0 0 0 0).writeCfg 0xFFFFFFFFFFFFFFFE).cfg = 0 := by
  decide +kernel

/-- R65, R68: byte lane 0 is the least significant byte, so these lanes are the CMD value 0x06000000 (V-E2). -/
theorem test_bus_write :
    seen (step (next (.busWrite 0x18 [0, 0, 0, 6, 0, 0, 0, 0]) (args 0 0 0 0))) = some (0x101, 0)
      ∧ refusal (step (next (.busWrite 0x18 [0, 0, 0, 6]) (args 0 0 0 0))) = some (.registerAccess 0x18 4)
      ∧ refusal (step (next (.busWrite 0x1C [0, 0, 0, 6]) (args 0 0 0 0))) = some (.registerAccess 0x1C 4)
      ∧ refusal (step (next (.busRead 0x40 8) (args 0 0 0 0))) = some (.registerAccess 0x40 8) := by
  decide +kernel

theorem test_placed_command_runs :
    seen (step (State.reset.withFetchWord 32 0x01020000)) = some (0, 0)
      ∧ slot0 (step (State.reset.withFetchWord 32 0x01020000)) = some (.absorb, 0, 0, 0) := by
  decide +kernel

/-- R260: with no host operation left the block holds its state (log 12). -/
theorem test_reset_is_idle : step State.reset = .next State.reset := rfl

/-- The operations of `init.custom i3, 960, 640, 0, 0xF, 4` (P5). -/
theorem test_assembler_custom :
    Asm.initCustom 3 960 640 0 0xF 4
      = [.wr .arg0 0x00000000028003C0, .wr .arg1 0x000000040000000F, .wr .cmd 0x01FF0300] := by
  decide

/-! ### Witnesses: for each statement with hypotheses, concrete values that meet them all together -/

/-- The next state of a step that has one. -/
def after : Host.Outcome State Fault Refusal → State
  | .next t => t
  | .fault _ => State.reset
  | .refused _ => State.reset

/-- The code of the next state. -/
def codeOf : Host.Outcome State Fault Refusal → Option Code
  | .next t => some t.code
  | .fault _ => none
  | .refused _ => none

theorem ran {o : Host.Outcome State Fault Refusal} {c : Code} (h : codeOf o = some c) :
    o = .next (after o) ∧ (after o).code = c := by
  cases o with
  | next t => exact ⟨rfl, Option.some.inj h⟩
  | fault f => cases f
  | refused r => cases h

theorem configured_of (s : State) (hc : s.config = Config.ex) (hl : s.inst.length = 4) : s.configured = true := by
  rw [State.configured_iff, hc, hl]; exact ⟨by decide, by decide, test_ex_wf⟩

theorem test_witness_DecodeOfEncode : (Instr.init 255 255).wf = true ∧ (Instr.squeeze 0 true).wf = true := by decide

theorem test_witness_EncodeOfDecode : decode 0x01FF0300 = .ok (.init 0xFF 3) := by decide

theorem test_witness_StepRunsDecodedCommand :
    let s := next (.wr .cmd 0x04000301) (args 0 0 0 0)
    s.configured = true ∧ s.program[s.pc]? = some (.wr .cmd 0x04000301) ∧ decode 0x04000301 = .ok (.squeeze 3 true) :=
  ⟨configured_of _ rfl rfl, rfl, by decide⟩

/-- At an empty program, and at an index past the end of one. -/
theorem test_witness_PlacedCommandRuns :
    State.reset.configured = true ∧ (Instr.squeeze 255 true).wf = true
      ∧ State.configured { State.reset with program := [.reset], pc := 5 } = true := by
  decide +kernel

/-- One CMD value for each way to be illegal, at the edges of the fields. -/
theorem test_witness_IllegalEncodingEndsWithEOpcode :
    (∀ v, (next (.wr .cmd v) (args 0 0 0 0)).configured = true
        ∧ (next (.wr .cmd v) (args 0 0 0 0)).program[0]? = some (.wr .cmd v))
      ∧ field 0x0000000101020000 63 32 ≠ 0
      ∧ (∀ v ∈ [0x00000000, 0x06000000, 0x0F000000, 0x22000000, 0xFF000000],
        field (BitVec.ofNat 64 v) 31 24 ∉ [0x01, 0x02, 0x03, 0x04, 0x05, 0x10, 0x11, 0x20, 0x21])
      ∧ field 0x01020002 7 1 ≠ 0 ∧ (field 0x02010000 31 24 = 0x02 ∧ field 0x02010000 23 16 ≠ 0)
      ∧ (field 0x10020100 31 24 = 0x10 ∧ field 0x10020100 15 8 ≠ 0)
      ∧ (field 0x20000001 31 24 = 0x20 ∧ field 0x20000001 0 0 ≠ 0) :=
  ⟨fun _ => ⟨configured_of _ rfl rfl, rfl⟩, by decide +kernel⟩

theorem test_witness_RegisterWritesFollowAccessRights :
    (∀ r ∈ [Reg.cfg, .status, .result, .arg0, .arg1, .arg2, .arg3], r ≠ .cmd)
      ∧ ∀ r v, (next (.wr r v) (args 0 0 0 0)).configured = true
        ∧ (next (.wr r v) (args 0 0 0 0)).program[0]? = some (.wr r v) :=
  ⟨by decide, fun _ _ => ⟨configured_of _ rfl rfl, rfl⟩⟩

theorem test_witness_RegisterReadsReturnFields :
    ∀ r, (next (.rd r) (args 0 0 0 0)).configured = true ∧ (next (.rd r) (args 0 0 0 0)).program[0]? = some (.rd r) :=
  fun _ => ⟨configured_of _ rfl rfl, rfl⟩

/-- Reads and writes, both clauses: the first and last offset with eight lanes; an offset beside the map, and seven and nine
lanes. -/
theorem test_witness_BusAccessesAreFullRegisters :
    (∀ offset lanes, (next (.busWrite offset lanes) (args 0 0 0 0)).configured = true
        ∧ (next (.busWrite offset lanes) (args 0 0 0 0)).program[0]? = some (.busWrite offset lanes))
      ∧ (∀ offset size, (next (.busRead offset size) (args 0 0 0 0)).configured = true
        ∧ (next (.busRead offset size) (args 0 0 0 0)).program[0]? = some (.busRead offset size))
      ∧ (∀ offset ∈ [0x00, 0x38], (List.replicate 8 (0 : Byte)).length = 8
        ∧ offset ∈ [0x00, 0x08, 0x10, 0x18, 0x20, 0x28, 0x30, 0x38])
      ∧ 0x40 ∉ [0x00, 0x08, 0x10, 0x18, 0x20, 0x28, 0x30, 0x38] ∧ (List.replicate 7 (0 : Byte)).length ≠ 8
      ∧ (List.replicate 9 (0 : Byte)).length ≠ 8 :=
  ⟨fun _ _ => ⟨configured_of _ rfl rfl, rfl⟩, fun _ _ => ⟨configured_of _ rfl rfl, rfl⟩, by decide⟩

/-- The refusal: a stage-2 rate equal to the stage-1 rate, no slot, 257 slots. The idle clause: State.reset. -/
theorem test_witness_StepRefusesOrIdles :
    State.configured { State.reset with config := { Config.ex with khRate2Bits := 960 } } = false
      ∧ State.configured { State.reset with inst := [] } = false
      ∧ State.configured { State.reset with inst := List.replicate 257 Instance.blank } = false
      ∧ State.reset.configured = true ∧ State.reset.program.length ≤ State.reset.pc := by
  decide +kernel

theorem test_witness_ResetClearsRegistersAndPhases :
    let s := next .reset (at0 (squeezing (short [] 0) 8) 1 2 3 4)
    s.configured = true ∧ s.program[s.pc]? = some .reset := ⟨configured_of _ rfl rfl, rfl⟩

theorem test_witness_ResetStateMeetsInvariant : Config.ex.wf = true ∧ 1 ≤ 256 ∧ 256 ≤ 256 := by decide +kernel

/-- The constraints of R26 on the short set. -/
theorem legal_short (d : List Bool) (n : Nat) (hd : d.length ≤ 32) (hn : n % 8 = 0) (hr : n ≤ 64) : (short d n).Legal := by
  constructor
  case suffix_le => exact hd
  case digest_bytes => exact hn
  case digest_le => exact hr
  case kind_fixed => simp only [short, Config.tuple]; split <;> simp_all
  all_goals
    simp only [short, Config.tuple]
    decide

/-- An instance with an empty queue is sound when its parameters and counters are. -/
theorem sound_holding (d : List Bool) (n qb : Nat) (hd : d.length ≤ 32) (hn : n % 8 = 0) (hr : n ≤ 64) (hq : qb < 64) :
    (holding (short d n) qb).Sound where
  params := legal_short d n hd hn hr
  queue_lt := hq
  queue_clear p _ := by simp [holding, Instance.fresh]
  avail_le := Nat.zero_le _
  squeeze_xof h := absurd h (by simp [holding, Instance.fresh])
  done_fixed h := absurd h (by simp [holding, Instance.fresh])

theorem sound_squeezing (d : List Bool) (av : Nat) (hd : d.length ≤ 32) (hv : av ≤ 8) :
    (squeezing (short d 0) av).Sound where
  params := legal_short d 0 hd rfl (Nat.zero_le _)
  queue_lt := by simp [squeezing, Instance.fresh, short, Config.tuple]
  queue_clear p _ := by simp [squeezing, Instance.fresh]
  avail_le := by simpa [squeezing, Instance.fresh, short, Config.tuple] using hv
  squeeze_xof _ := ⟨rfl, rfl⟩
  done_fixed h := absurd h (by simp [squeezing, Instance.fresh])

/-- A bound instance and listed memory; the step squeezes. -/
theorem test_witness_StepKeepsInvariant :
    let s := { next (.wr .cmd 0x04000001) (at0 (squeezing (short [] 0) 0) 0x3000 64 0 0) with mem := [(0x3001, 9)] }
    s.Inv ∧ ∃ t, step s = .next t ∧ t.code = .ok := by
  refine ⟨⟨configured_of _ rfl rfl, ?_, by decide, by decide, by decide⟩, _, rfl, rfl⟩
  intro t ht hp
  simp only [next, at0, List.mem_cons, List.not_mem_nil, or_false] at ht
  rcases ht with rfl | rfl | rfl | rfl
  · exact sound_squeezing [] 0 (by decide) (by decide)
  all_goals exact absurd rfl hp

/-- A command with a destination, and an illegal encoding. -/
theorem test_witness_AbandonedCommandTouchesOnlyDestination :
    (let s := next (.cmdThenReset 0x21000000) (args 0x1000 15 0x2000 0)
     s.configured = true ∧ s.program[s.pc]? = some (.cmdThenReset 0x21000000) ∧ (∃ t, step s = .next t)
       ∧ decode 0x21000000 = .ok .reorder ∧ ∃ u, exec .reorder { s with pc := s.pc + 1 } = .next u ∧ u.result = 15) ∧
    (let s := next (.cmdThenReset 0) (args 0x1000 15 0x2000 0)
     s.configured = true ∧ s.program[s.pc]? = some (.cmdThenReset 0) ∧ (∃ t, step s = .next t)
       ∧ decode 0 = .error .reservedOpcode) :=
  ⟨⟨configured_of _ rfl rfl, rfl, ⟨_, rfl⟩, by decide, _, rfl, rfl⟩, configured_of _ rfl rfl, rfl, ⟨_, rfl⟩, by decide⟩

/-- The contended byte at both ends of the destination, and just outside it. -/
theorem test_witness_ContendedByteHoldsEitherValue :
    ∀ a ∈ [(0x2000 : Word64), 0x200E, 0x200F],
      let s := next (.cmdContended 0x21000000 [(a, 7)]) (args 0x1000 15 0x2000 0)
      s.configured = true ∧ s.program[s.pc]? = some (.cmdContended 0x21000000 [(a, 7)]) ∧ decode 0x21000000 = .ok .reorder
        ∧ ∃ t, step s = .next t := by
  simp only [List.forall_mem_cons]
  exact ⟨⟨configured_of _ rfl rfl, rfl, by decide, _, rfl⟩, ⟨configured_of _ rfl rfl, rfl, by decide, _, rfl⟩,
    ⟨configured_of _ rfl rfl, rfl, by decide, _, rfl⟩, by simp⟩

/-- A failing command, and an illegal CMD value. -/
theorem test_witness_FailedCommandWritesOnlyStatus :
    (∃ t, exec (.init 0 9) (args 0 0 0 0) = .next t ∧ t.code ≠ .ok)
      ∧ ∃ t, runCommand 0 (args 0 0 0 0) = .next t ∧ t.code ≠ .ok := ⟨⟨_, rfl, by decide⟩, _, rfl, by decide⟩

/-- An illegal CMD value, a legal one, a failing and a completing command. -/
theorem test_witness_ReportedCodeIsFirstCause :
    (decode 0 = .error .reservedOpcode ∧ ∃ t, runCommand 0 (args 0 0 0 0) = .next t)
      ∧ (decode 0x01000900 = .ok (.init 0 9) ∧ ∃ t, runCommand 0x01000900 (args 0 0 0 0) = .next t)
      ∧ (∃ t, exec (.init 0 9) (args 0 0 0 0) = .next t) ∧ ∃ t, exec .kryptohash (args 0x1000 120 0x1100 0) = .next t :=
  ⟨⟨by decide, _, rfl⟩, ⟨by decide, _, rfl⟩, ⟨_, rfl⟩, _, rfl⟩

theorem test_witness_SuccessReportsByteCount :
    (∃ t, exec (.init 2 0) (args 0 0 0 0) = .next t ∧ t.code = .ok)
      ∧ (∃ t, exec (.absorb 0) (at0 (holding (short [] 0) 0) 0x1000 8 0 0) = .next t ∧ t.code = .ok)
      ∧ (∃ t, exec (.discard 0) (args 0 0 0 0) = .next t ∧ t.code = .ok)
      ∧ (∃ t, exec (.finalize 0 true) (at0 (holding (short [] 32) 0) 0x1000 0 0 0) = .next t ∧ t.code = .ok)
      ∧ (∃ t, exec (.squeeze 0 true) (at0 (squeezing (short [] 0) 8) 0x1000 64 0 0) = .next t ∧ t.code = .ok)
      ∧ (∃ t, exec (.hashFixed 2 true) (args 0x1000 0 0x2000 0) = .next t ∧ t.code = .ok)
      ∧ (∃ t, exec (.hashXof 9 true) (args 0x1000 0 0x2000 70000) = .next t ∧ t.code = .ok)
      ∧ (∃ t, exec .kryptohash (args 0x1000 120 0x1100 0) = .next t ∧ t.code = .ok)
      ∧ (∃ t, exec .reorder (args 0x1000 15 0x1000 0) = .next t ∧ t.code = .ok) :=
  ⟨⟨_, rfl, rfl⟩, ⟨_, rfl, rfl⟩, ⟨_, rfl, rfl⟩, ⟨_, rfl, rfl⟩, ⟨_, rfl, rfl⟩, ⟨_, rfl, rfl⟩, ⟨_, rfl, rfl⟩, ⟨_, rfl, rfl⟩,
    _, rfl, rfl⟩

theorem test_witness_CommandsLeaveHostRegisters : ∃ t, exec .reorder (args 0x1000 15 0x1000 3) = .next t := ⟨_, rfl⟩

/-- INIT, ABSORB, DISCARD, and the four forms with F_OUT = 0. -/
theorem test_witness_NonStoringFormsLeaveMemory :
    (∃ t, exec (.init 2 0) (args 0 0 0 0) = .next t)
      ∧ (∃ t, exec (.absorb 0) (at0 (holding (short [] 0) 0) 0x1000 8 0 0) = .next t)
      ∧ (∃ t, exec (.discard 0) (args 0 0 0 0) = .next t)
      ∧ (∃ t, exec (.finalize 0 false) (at0 (holding (short [] 32) 0) 0x1000 0 0 0) = .next t)
      ∧ (∃ t, exec (.squeeze 0 false) (at0 (squeezing (short [] 0) 8) 0x1000 64 0 0) = .next t)
      ∧ (∃ t, exec (.hashFixed 2 false) (args 0x1000 0 0x2000 0) = .next t)
      ∧ ∃ t, exec (.hashXof 9 false) (args 0x1000 0 0x2000 32) = .next t :=
  ⟨⟨_, rfl⟩, ⟨_, rfl⟩, ⟨_, rfl⟩, ⟨_, rfl⟩, ⟨_, rfl⟩, ⟨_, rfl⟩, _, rfl⟩

/-- Each storing form, with the range its clause names. -/
theorem test_witness_StoringFormsWriteOnlyDestination :
    (∃ t, exec (.finalize 0 true) (at0 (holding (short [] 32) 0) 0x1000 0 0 0) = .next t ∧ t.result = 4)
      ∧ (∃ t, exec (.squeeze 0 true) (at0 (squeezing (short [] 0) 8) 0x1000 64 0 0) = .next t ∧ t.result = 8)
      ∧ (∃ t, exec (.hashFixed 2 true) (args 0x1000 0 0x2000 0) = .next t ∧ t.result = 32)
      ∧ (∃ t, exec (.hashXof 9 true) (args 0x1000 0 0x2000 70000) = .next t ∧ t.result = 65520)
      ∧ (∃ t, exec .kryptohash (args 0x1000 120 0x1100 0) = .next t ∧ t.result = 40)
      ∧ (∃ t, exec .reorder (args 0x1000 15 0xFFFF1 0) = .next t ∧ t.result = 15) :=
  ⟨⟨_, rfl, rfl⟩, ⟨_, rfl, rfl⟩, ⟨_, rfl, rfl⟩, ⟨_, rfl, rfl⟩, ⟨_, rfl, rfl⟩, _, rfl, rfl⟩

/-- The three commands whose field list the statement gives, each with its slot before and after. -/
theorem test_witness_InstanceFieldsWrittenAsListed :
    (∃ t w, exec (.absorb 0) (at0 (holding (short [] 0) 0) 0x1000 8 0 0) = .next t ∧ t.inst[0]? = some w)
      ∧ (∃ t w, exec (.finalize 0 true) (at0 (holding (short [] 32) 0) 0x1000 0 0 0) = .next t ∧ t.inst[0]? = some w)
      ∧ ∃ t w, exec (.squeeze 0 true) (at0 (squeezing (short [] 0) 8) 0x1000 64 0 0) = .next t ∧ t.inst[0]? = some w :=
  ⟨⟨_, _, rfl, rfl⟩, ⟨_, _, rfl, rfl⟩, _, _, rfl, rfl⟩

/-- INIT, DISCARD and both phases that FINALIZE can enter. -/
theorem test_witness_PhasesMoveForward :
    (∃ t w, exec (.init 2 0) (args 0 0 0 0) = .next t ∧ t.inst[0]? = some w ∧ w.ph ≠ Instance.blank.ph)
      ∧ (∃ t w, exec (.discard 0) (at0 (squeezing (short [] 0) 8) 0 0 0 0) = .next t ∧ t.inst[0]? = some w
        ∧ w.ph ≠ (squeezing (short [] 0) 8).ph)
      ∧ (∃ t w, exec (.finalize 0 true) (at0 (holding (short [] 32) 0) 0x1000 0 0 0) = .next t ∧ t.inst[0]? = some w
        ∧ w.ph ≠ (holding (short [] 32) 0).ph)
      ∧ ∃ t w, exec (.finalize 0 true) (at0 (holding (short [] 0) 0) 0x1000 0 0 0) = .next t ∧ t.inst[0]? = some w
        ∧ w.ph ≠ (holding (short [] 0) 0).ph :=
  ⟨⟨_, _, rfl, rfl, Phase.noConfusion⟩, ⟨_, _, rfl, rfl, Phase.noConfusion⟩, ⟨_, _, rfl, rfl, Phase.noConfusion⟩,
    _, _, rfl, rfl, Phase.noConfusion⟩

/-- Reset, and a command abandoned by reset. -/
theorem test_witness_FaultIsStickyExceptReset :
    (∃ t, step (next .reset { args 0 0 0 0 with fault := true }) = .next t ∧ t.fault = false)
      ∧ ∃ t, step (next (.cmdThenReset 0x21000000) { args 0x1000 15 0x2000 0 with fault := true }) = .next t ∧ t.fault = false :=
  ⟨⟨_, rfl, rfl⟩, _, rfl, rfl⟩

theorem test_witness_InitBindsNamedVariant :
    3 < State.reset.inst.length ∧ 0x02 ≠ 0xFF ∧ State.reset.config.variant 0x02 = some (Config.tuple 1088 [false, true] 256 .fixed) := by
  decide +kernel

/-- Both clauses at the edges of each field: L = 32 and 33, N = r and above it, N = 0, r = 64 and 1536, r = 1600. -/
theorem test_witness_InitBindsLegalCustomSet :
    0 < (args 0 0 0 0).inst.length
      ∧ customOk 0x0000004006000040 0x0000000000000000 = true ∧ customOk 0x0000000000400600 0x00000020FFFFFFFF = true
      ∧ customOk 0x0000004806000040 0x0000000000000000 = false ∧ customOk 0x0000000000400600 0x00000021FFFFFFFF = false
      ∧ customOk 0x0000000000000640 0x0000000000000000 = false ∧ customOk 0x0000000006400000 0x0000000000000000 = false
      ∧ customOk 0x0000000000400600 0x0000001FFFFFFFFF = false ∧ customOk 0x0001000000400600 0x0000000000000000 = false
      ∧ customOk 0x0000000000400600 0x0000010000000000 = false := by
  decide +kernel

/-- Every named id, the first and last id of KSHAKE_EXTRA, an id it leaves out, and the reserved ids beside the rows. -/
theorem test_witness_VariantsAreLegalTuples :
    let c := { Config.ex with kshakeExtra := [⟨0x12, 64, []⟩, ⟨0x1F, 1536, [true]⟩] }
    c.wf = true ∧ (∀ vid ∈ [0x01, 0x02, 0x03, 0x04, 0x08, 0x09, 0x10, 0x11, 0x12, 0x1F], (c.variant vid).isSome = true)
      ∧ ∀ vid ∈ [0x00, 0x05, 0x07, 0x0A, 0x0F, 0x13, 0x20, 0xFF], c.variant vid = none := by
  decide +kernel

/-- A slot in phase NONE and one in phase SQUEEZE. -/
theorem test_witness_DiscardReleasesInstance :
    (args 0 0 0 0).inst[0]? = some Instance.blank
      ∧ (at0 (squeezing (short [] 0) 8) 0 0 0 0).inst[0]? = some (squeezing (short [] 0) 8) := ⟨rfl, rfl⟩

/-- Eight bits on an empty queue, and no bits on a partial byte. -/
theorem test_witness_AbsorbQueuesMessageBits :
    (∀ u a, (at0 u 0x1000 a 0 0).inst[0]? = some u)
      ∧ ∀ w ∈ [(0, (8 : Word64)), (5, 0)],
        (holding (short [] 0) w.1).ph = .absorb ∧ (w.2.toNat = 0 ∨ (holding (short [] 0) w.1).qb % 8 = 0)
          ∧ Config.ex.admits 0x1000 ((w.2.toNat + 7) / 8) = true :=
  ⟨fun _ _ => rfl, by decide +kernel⟩

theorem test_witness_QueueHoldsAbsorbedBits :
    (holding (short [] 0) 5).Sound ∧ 5 + [true, false, true].length < 64 :=
  ⟨sound_holding [] 0 5 (by decide) rfl (by decide) (by decide), by decide⟩

/-- From the last bit of a block, and from the first. -/
theorem test_witness_FullBlockIsXoredAndPermuted :
    (holding (short [] 0) 63).Sound ∧ 63 + [true].length = 64 ∧ (holding (short [] 0) 0).Sound
      ∧ 0 + (List.replicate 64 true).length = 64 :=
  ⟨sound_holding [] 0 63 (by decide) rfl (by decide) (by decide), by decide,
    sound_holding [] 0 0 (by decide) rfl (by decide) (by decide), by decide⟩

theorem test_witness_AbsorbSplitDoesNotMatter :
    let s := { at0 (holding (short [] 0) 56) 0 0 0 0 with mem := [(0x1000, 0x61), (0x1001, 0x62), (0x1002, 0x63)] }
    ∃ t1 t2 t,
      exec (.absorb 0) { s with arg0 := 0x1000, arg1 := 16 } = .next t1 ∧ t1.code = .ok
        ∧ exec (.absorb 0) { t1 with arg0 := BitVec.ofNat 64 ((0x1000 : Word64).toNat + (16 : Word64).toNat / 8), arg1 := 8 }
          = .next t2 ∧ t2.code = .ok
        ∧ exec (.absorb 0) { s with arg0 := 0x1000, arg1 := BitVec.ofNat 64 ((16 : Word64).toNat + (8 : Word64).toNat) }
          = .next t ∧ t.code = .ok :=
  ⟨_, _, _, rfl, rfl, rfl, rfl, rfl, rfl⟩

/-- n > 0 and n = 0 on an instance that holds five bits. -/
theorem test_witness_PartialByteRestriction :
    (at0 (holding (short [] 0) 5) 0 8 0 0).inst[0]? = some (holding (short [] 0) 5) ∧ (holding (short [] 0) 5).ph = .absorb
      ∧ (holding (short [] 0) 5).qb % 8 ≠ 0 ∧ 0 < (at0 (holding (short [] 0) 5) 0 8 0 0).arg1.toNat
      ∧ (at0 (holding (short [] 0) 5) 0 0 0 0).arg1.toNat = 0 :=
  ⟨rfl, rfl, by decide, by decide, by decide⟩

/-- The spill case, 61 + 2 = r - 1, and an empty queue. -/
theorem test_witness_PadEndsOnRateBoundary :
    (holding (short [false, true] 0) 61).Sound ∧ (61 + 2 + 2 + 63) % 64 = 0 ∧ (∀ j' < 63, (61 + 2 + 2 + j') % 64 ≠ 0)
      ∧ (holding (short [false, true] 0) 0).Sound ∧ (0 + 2 + 2 + 60) % 64 = 0 ∧ (∀ j' < 60, (0 + 2 + 2 + j') % 64 ≠ 0) :=
  ⟨sound_holding _ 0 61 (by decide) rfl (by decide) (by decide), by decide, by decide,
    sound_holding _ 0 0 (by decide) rfl (by decide) (by decide), by decide, by decide⟩

/-- INIT of the custom set r = 64, D = "01", two ABSORBs of 8 and 5 bits, FINALIZE. -/
theorem test_witness_StreamEquivalence :
    let s := { args 0x0000000006000040 0x0000000200000002 0 0 with mem := [(0x1000, 0x61), (0x1001, 0x13)] }
    ∃ s0 s1 s2 w,
      (short [false, true] 0).Legal ∧ exec (.init 0xFF 0) s = .next s0 ∧ s0.code = .ok
        ∧ (∀ u, s0.inst[0]? = some u → u.prm = short [false, true] 0)
        ∧ absorbAll 0 [(0x1000, 8), (0x1001, 5)] s0 = some s1
        ∧ exec (.finalize 0 false) s1 = .next s2 ∧ s2.code = .ok ∧ s2.inst[0]? = some w
        ∧ ([(0x1000, 8), (0x1001, 5)].flatMap fun x : Word64 × Word64 => bitsAt s.mem x.1.toNat x.2.toNat).length = 13
        ∧ (13 + 2 + 2 + 47) % 64 = 0 ∧ ∀ j' < 47, (13 + 2 + 2 + j') % 64 ≠ 0 :=
  ⟨_, _, _, _, legal_short _ 0 (by decide) rfl (by decide), rfl, rfl, fun u h => by cases h; rfl, rfl, rfl, rfl, rfl, rfl,
    by decide, by decide⟩

theorem test_witness_FinalizeWritesFixedDigest :
    let u := holding (short [] 64) 5
    (at0 u 0x1000 0 0 0).inst[0]? = some u ∧ u.ph = .absorb ∧ 0 < u.prm.n
      ∧ (at0 u 0x1000 0 0 0).config.admits 0x1000 (u.prm.n / 8) = true :=
  ⟨rfl, rfl, by decide, by decide +kernel⟩

/-- A fixed-digest instance without a buffer, and an extendable-output one with either value of F_OUT. -/
theorem test_witness_FinalizeWithoutOutputCompletes :
    (at0 (holding (short [] 64) 5) 0 0 0 0).inst[0]? = some (holding (short [] 64) 5) ∧ (holding (short [] 64) 5).ph = .absorb
      ∧ ((holding (short [] 64) 5).prm.n = 0 ∨ false = false)
      ∧ (at0 (holding (short [] 0) 5) 0 0 0 0).inst[0]? = some (holding (short [] 0) 5) ∧ (holding (short [] 0) 5).ph = .absorb
      ∧ ((holding (short [] 0) 5).prm.n = 0 ∨ true = false) :=
  ⟨rfl, rfl, .inr rfl, rfl, rfl, .inl rfl⟩

/-- Exactly the bytes available, and one more. -/
theorem test_witness_SqueezeStoresOutputStream :
    (squeezing (short [] 0) 8).Sound ∧ (squeezing (short [] 0) 8).ph = .squeeze
      ∧ (∀ a, (at0 (squeezing (short [] 0) 8) 0x1000 a 0 0).inst[0]? = some (squeezing (short [] 0) 8))
      ∧ ∀ w ∈ [((64 : Word64), 8, 0), (72, 9, 1)],
      let s := at0 (squeezing (short [] 0) 8) 0x1000 w.1 0 0
      s.arg1.toNat % 8 = 0
        ∧ s.arg1.toNat ≠ 0 ∧ w.2.1 = min (s.arg1.toNat / 8) s.config.xofMaxBytes
        ∧ s.config.admits s.arg0.toNat w.2.1 = true
        ∧ w.2.2 = (if w.2.1 ≤ 8 then 0 else ceilDiv (w.2.1 - 8) (64 / 8)) :=
  ⟨sound_squeezing [] 8 (by decide) (by decide), rfl, fun _ => rfl, by decide +kernel⟩

/-- Ten bytes as four and six, over a block boundary. -/
theorem test_witness_IncrementalSqueezeEqualsBatch :
    let s := at0 (squeezing (short [] 0) 8) 0 0 0 0
    ∃ t1 t2 t,
      4 + 6 ≤ s.config.xofMaxBytes ∧ 8 * (4 + 6) < 2 ^ 64
        ∧ exec (.squeeze 0 true) { s with arg0 := 0x1000, arg1 := BitVec.ofNat 64 (8 * 4) } = .next t1 ∧ t1.code = .ok
        ∧ exec (.squeeze 0 true) { t1 with arg0 := 0x2000, arg1 := BitVec.ofNat 64 (8 * 6) } = .next t2 ∧ t2.code = .ok
        ∧ exec (.squeeze 0 true) { s with arg0 := 0x3000, arg1 := BitVec.ofNat 64 (8 * (4 + 6)) } = .next t ∧ t.code = .ok :=
  ⟨_, _, _, by decide, by decide, rfl, rfl, rfl, rfl, rfl, rfl⟩

/-- No buffer, and length 0. -/
theorem test_witness_NullSqueezeIsNoOp :
    (∀ a, (at0 (squeezing (short [] 0) 8) 0 a 0 0).inst[0]? = some (squeezing (short [] 0) 8))
      ∧ (squeezing (short [] 0) 8).ph = .squeeze
      ∧ (800 : Word64).toNat % 8 = 0 ∧ (0 : Word64).toNat % 8 = 0 ∧ (0 : Word64).toNat = 0 :=
  ⟨fun _ => rfl, rfl, by decide⟩

/-- The whole of one block, with another capacity part. -/
theorem test_witness_CapacityBytesAreNotReadOut :
    let u := squeezing (short [] 0) 8
    let w := { u with s := u.s.setIfInBounds 8 1 }
    w = { u with s := w.s } ∧ (∀ j < u.prm.r / 8, byteAt w.s j = byteAt u.s j) ∧ byteAt w.s 8 ≠ byteAt u.s 8
      ∧ u.av ≤ u.prm.r / 8 ∧ 8 ≤ u.av :=
  ⟨rfl, by decide +kernel⟩

theorem test_witness_FixedFnIsStreamPrefix :
    (short [false, true] 64).Legal ∧ 13 ≤ 8 * [(0x61 : Byte), 0x13].length ∧ (13 + 2 + 2 + 47) % 64 = 0
      ∧ ∀ j' < 47, (13 + 2 + 2 + j') % 64 ≠ 0 :=
  ⟨legal_short _ 64 (by decide) rfl (by decide), by decide, by decide, by decide⟩

theorem test_witness_XofFnIsStreamPrefix :
    (short [false, true] 0).Legal ∧ 61 ≤ 8 * (List.replicate 8 (0xFF : Byte)).length ∧ (61 + 2 + 2 + 63) % 64 = 0
      ∧ ∀ j' < 63, (61 + 2 + 2 + j') % 64 ≠ 0 :=
  ⟨legal_short _ 0 (by decide) rfl (by decide), by decide, by decide, by decide⟩

theorem test_witness_HashFixedStoresDigest :
    let s := args 0x1000 24 0x2000 0
    s.config.variant 0x02 = some (Config.tuple 1088 [false, true] 256 .fixed)
      ∧ s.config.admits s.arg0.toNat ((s.arg1.toNat + 7) / 8) = true ∧ s.config.admits s.arg2.toNat (256 / 8) = true := by
  decide +kernel

/-- Below the clamp and above it. -/
theorem test_witness_HashXofStoresClampedOutput :
    ∀ w ∈ [((32 : Word64), 32), (70000, 65520)],
      let s := args 0x1000 24 0x2000 w.1
      s.config.variant 0x08 = some (Config.tuple 1344 [true, true, true, true] 0 .xof) ∧ s.arg3.toNat ≠ 0
        ∧ w.2 = min s.arg3.toNat s.config.xofMaxBytes
        ∧ s.config.admits s.arg0.toNat ((s.arg1.toNat + 7) / 8) = true ∧ s.config.admits s.arg2.toNat w.2 = true := by
  decide +kernel

theorem test_witness_NullOneShotIsNoOp :
    (args 0 0 0 0).config.variant 0x01 = some (Config.tuple 1152 [false, true] 224 .fixed)
      ∧ (args 0 0 0 0).config.variant 0x09 = some (Config.tuple 1088 [true, true, true, true] 0 .xof)
      ∧ (args 0 0 0 0).arg3.toNat = 0 := by
  decide +kernel

theorem test_witness_HashFixedEqualsInitAbsorbFinalize :
    let s := { args 0x1000 13 0x2000 0 with mem := [(0x1000, 0x61), (0x1001, 0x13)] }
    ∃ t s1 s2 s3,
      exec (.hashFixed 0x02 true) s = .next t ∧ t.code = .ok ∧ exec (.init 0x02 1) s = .next s1 ∧ s1.code = .ok
        ∧ exec (.absorb 1) s1 = .next s2 ∧ s2.code = .ok
        ∧ exec (.finalize 1 true) { s2 with arg0 := s.arg2 } = .next s3 ∧ s3.code = .ok :=
  ⟨_, _, _, _, rfl, rfl, rfl, rfl, rfl, rfl, rfl, rfl⟩

theorem test_witness_HashXofEqualsInitAbsorbFinalizeSqueeze :
    let s := { args 0x1000 13 0x2000 200 with mem := [(0x1000, 0x61), (0x1001, 0x13)] }
    ∃ t s1 s2 s3 s4,
      s.arg3.toNat ≠ 0 ∧ 8 * s.arg3.toNat < 2 ^ 64
        ∧ exec (.hashXof 0x08 true) s = .next t ∧ t.code = .ok ∧ exec (.init 0x08 1) s = .next s1 ∧ s1.code = .ok
        ∧ exec (.absorb 1) s1 = .next s2 ∧ s2.code = .ok ∧ exec (.finalize 1 false) s2 = .next s3 ∧ s3.code = .ok
        ∧ exec (.squeeze 1 true) { s3 with arg0 := s.arg2, arg1 := BitVec.ofNat 64 (8 * s.arg3.toNat) } = .next s4
        ∧ s4.code = .ok :=
  ⟨_, _, _, _, _, by decide, by decide, rfl, rfl, rfl, rfl, rfl, rfl, rfl, rfl, rfl, rfl⟩

/-- Two states that differ in memory outside the source, in SPM and in the last read. -/
theorem test_witness_OutputDependsOnlyOnInputs :
    let s := args 0x1000 15 0x2000 0
    let s' := { s with mem := [(0x100F, 1), (0x2000, 2)], spm := [(0, 3)], readData := 4 }
    s.config = s'.config ∧ s.reorderEn = s'.reorderEn ∧ s.arg0 = s'.arg0 ∧ s.arg1 = s'.arg1 ∧ s.arg2 = s'.arg2
      ∧ s.arg3 = s'.arg3 ∧ s.inst = s'.inst
      ∧ (∀ w ∈ sourceRanges .reorder s, ∀ k < w.2, Memory.read s.mem (w.1 + k) = Memory.read s'.mem (w.1 + k))
      ∧ (∃ t, exec .reorder s = .next t) ∧ ∃ t, exec .reorder s' = .next t :=
  ⟨rfl, rfl, rfl, rfl, rfl, rfl, rfl, by decide +kernel, ⟨_, rfl⟩, _, rfl⟩

theorem test_witness_ReorderIsInvolution :
    Config.ex.wf = true ∧ (List.replicate 30 (1 : Byte)).length % Config.ex.rwBytes = 0 ∧ ([] : List Byte).length % Config.ex.rwBytes = 0 := by
  decide +kernel

/-- In place, overlapping, and of length 0. -/
theorem test_witness_ReorderPermutesEachWord :
    (∀ a0 a1 a2 a3, (args a0 a1 a2 a3).config = Config.ex) ∧ Config.ex.wf = true
      ∧ ∀ w ∈ [(0x1000, 15), (0x1005, 30), (0x1000, 0)],
        let s := args 0x1000 (BitVec.ofNat 64 w.2) (BitVec.ofNat 64 w.1) 0
        s.arg1.toNat % s.config.rwBytes = 0 ∧ s.config.admits s.arg0.toNat s.arg1.toNat = true
          ∧ s.config.admits s.arg2.toNat s.arg1.toNat = true :=
  ⟨fun _ _ _ _ => rfl, test_ex_wf, by decide +kernel⟩

/-- With and without reordering the input: the hypotheses do not name CFG. -/
theorem test_witness_KryptohashStoresDigest :
    ∀ b ∈ [false, true],
      let s := { args 0x1000 120 0x1100 0 with reorderEn := b }
      s.arg1.toNat = 120 ∧ s.config.admits s.arg0.toNat 120 = true ∧ s.config.admits s.arg2.toNat 40 = true := by
  decide +kernel

theorem test_witness_KryptohashPermCount :
    (args 0x1000 120 0x1100 0).config.wf = true ∧ ∃ t, exec .kryptohash (args 0x1000 120 0x1100 0) = .next t ∧ t.code = .ok :=
  ⟨by decide +kernel, _, rfl, rfl⟩

/-- With REORDER_EN set: REORDER, stage 1 and stage 2 over a scratch buffer. -/
theorem test_witness_KryptohashEqualsStageCommands :
    let s := { args 0x1000 120 0x1100 0 with reorderEn := true }
    ∃ t s0 s1 s2,
      s.config.wf = true ∧ exec .kryptohash s = .next t ∧ t.code = .ok
        ∧ (exec .reorder { s with arg2 := 0x1200 } = .next s0 ∧ s0.code = .ok)
        ∧ exec (.hashXof 0x10 true) { s0 with arg0 := 0x1200, arg1 := 960, arg2 := 0x10000, arg3 := 65520 } = .next s1
        ∧ s1.code = .ok
        ∧ exec (.hashXof 0x11 true) { s1 with arg0 := 0x10000, arg1 := 524160, arg2 := s.arg2, arg3 := 40 } = .next s2
        ∧ s2.code = .ok :=
  ⟨_, _, _, _, by decide +kernel, rfl, rfl, ⟨rfl, rfl⟩, rfl, rfl, rfl, rfl⟩

end Sys2Proof.Tests
end

section
/-! The word-reordering transform: what a well-formed configuration says of RW_BYTES and RW_MAP, and the self-inverse
property of the transform (spec/44_byte_reorder.md R223). -/

namespace Sys2Proof

open Machine

theorem Config.rwOk_of_wf {c : Config} (h : c.wf = true) : c.rwOk = true := by
  rw [Config.wf, Bool.and_eq_true] at h
  exact h.2

theorem Config.rwOk_iff (c : Config) :
    c.rwOk = true ↔ khInBytes % c.rwBytes = 0 ∧ c.rwMap.length = c.rwBytes
      ∧ ∀ j < c.rwBytes, c.rwAt j < c.rwBytes ∧ c.rwAt (c.rwAt j) = j := by
  simp [Config.rwOk, and_assoc]

/-- RW_BYTES divides KH_IN_BYTES, which is not 0 (R5), so it is not 0. -/
theorem Config.rwBytes_pos {c : Config} (h : c.wf = true) : 0 < c.rwBytes := by
  obtain ⟨hdvd, -, -⟩ := c.rwOk_iff.1 (Config.rwOk_of_wf h)
  exact Nat.pos_of_dvd_of_pos (Nat.dvd_of_mod_eq_zero hdvd) (by decide)

theorem Config.rwAt_lt {c : Config} (h : c.wf = true) {j : Nat} (hj : j < c.rwBytes) : c.rwAt j < c.rwBytes := by
  obtain ⟨-, -, hmap⟩ := c.rwOk_iff.1 (Config.rwOk_of_wf h)
  exact (hmap j hj).1

theorem Config.rwAt_rwAt {c : Config} (h : c.wf = true) {j : Nat} (hj : j < c.rwBytes) : c.rwAt (c.rwAt j) = j := by
  obtain ⟨-, -, hmap⟩ := c.rwOk_iff.1 (Config.rwOk_of_wf h)
  exact (hmap j hj).2

namespace Machine

/-- The index of the source byte that `Reorder` (R221) puts at index `i`: in the same word, moved by RW_MAP. -/
def reorderIndex (c : Config) (i : Nat) : Nat := i / c.rwBytes * c.rwBytes + c.rwAt (i % c.rwBytes)

theorem getElem_reorderBytes (c : Config) (b : List Byte) (n i : Nat) (hi : i < (reorderBytes c b n).length) :
    (reorderBytes c b n)[i] = b.getD (reorderIndex c i) 0 := by
  simp [reorderBytes, reorderIndex]

variable {c : Config}

theorem reorderIndex_div (h : c.wf = true) (i : Nat) : reorderIndex c i / c.rwBytes = i / c.rwBytes := by
  have hpos := Config.rwBytes_pos h
  rw [reorderIndex, Nat.mul_comm, Nat.mul_add_div hpos,
    Nat.div_eq_of_lt (Config.rwAt_lt h (Nat.mod_lt i hpos)), Nat.add_zero]

theorem reorderIndex_mod (h : c.wf = true) (i : Nat) :
    reorderIndex c i % c.rwBytes = c.rwAt (i % c.rwBytes) := by
  rw [reorderIndex, Nat.mul_comm, Nat.mul_add_mod,
    Nat.mod_eq_of_lt (Config.rwAt_lt h (Nat.mod_lt i (Config.rwBytes_pos h)))]

/-- The index stays in its word, and RW_MAP composed with itself is the identity (R5). -/
theorem reorderIndex_reorderIndex (h : c.wf = true) (i : Nat) : reorderIndex c (reorderIndex c i) = i := by
  have hmod : i % c.rwBytes < c.rwBytes := Nat.mod_lt i (Config.rwBytes_pos h)
  rw [reorderIndex, reorderIndex_div h, reorderIndex_mod h, Config.rwAt_rwAt h hmod, Nat.div_add_mod']

/-- A string of whole words holds the whole word of each of its indices. -/
theorem reorderIndex_lt (h : c.wf = true) {i n : Nat} (hn : n % c.rwBytes = 0) (hi : i < n) : reorderIndex c i < n := by
  obtain ⟨k, rfl⟩ := Nat.dvd_of_mod_eq_zero hn
  have hpos := Config.rwBytes_pos h
  rw [Nat.mul_comm, ← Nat.div_lt_iff_lt_mul hpos] at hi ⊢
  rwa [reorderIndex_div h]

end Machine

/-- Settles O54: the second application reads at the image of the image of an index, and that is the index. -/
theorem reorderIsInvolution : Obligations.ReorderIsInvolution := by
  intro c b h hlen
  refine List.ext_getElem (length_reorderBytes ..) fun i _ hi => ?_
  have hidx : reorderIndex c i < (reorderBytes c b b.length).length := by
    rw [length_reorderBytes]
    exact reorderIndex_lt h hlen hi
  rw [getElem_reorderBytes, List.getD_eq_getElem _ _ hidx, getElem_reorderBytes, reorderIndex_reorderIndex h,
    List.getD_eq_getElem _ _ hi]

end Sys2Proof
end

section
/-! The completion of a command (spec/60_exceptions.md section 2): the code it reports is the first cause in the order
of R241, a failure writes CODE, FAULT and RESULT only (R243), and a success leaves FAULT as it was and puts the byte count
of the command's rule into RESULT (R242). -/

namespace Sys2Proof.Machine

open Host (Outcome)

/-! ### A CMD write (R31) -/

theorem runCommand_of_error {v : Word64} {r : Reject} (h : decode v = .error r) (s : State) :
    runCommand v s = .next (s.raise .eOpcode) := by
  simp [runCommand, h]

theorem runCommand_of_ok {v : Word64} {i : Instr} (h : decode v = .ok i) (s : State) : runCommand v s = exec i s := by
  simp [runCommand, h]

/-! ### The code a command reports (R241)

A meaning makes its checks one after the other, and `reportedCode` lists the causes one after the other. The rules
`reports_first`, `reports_skip` and `reports_check` walk through both: the list stops at the first cause that applies,
passes over a cause the command does not have, and moves on together with the meaning where a check looks for the cause
at the head of the list. -/

/-- The command completes and leaves `c` in CODE. -/
def Reports (o : Outcome State Fault Refusal) (c : Code) : Prop := ∃ t, o = .next t ∧ t.code = c

theorem Reports.code_eq {o : Outcome State Fault Refusal} {c : Code} {t : State} (h : Reports o c) (ho : o = .next t) :
    t.code = c := by
  obtain ⟨u, hu, hc⟩ := h
  cases ho.symm.trans hu
  exact hc

theorem reports_raise (s : State) (e : Code) : Reports (.next (s.raise e)) e := ⟨_, rfl, rfl⟩

theorem reports_complete (s : State) (n : Nat) : Reports (.next (s.complete n)) .ok := ⟨_, rfl, rfl⟩

section
variable {o o' : Outcome State Fault Refusal} {c c' : Code} {cause : Bool}

theorem reports_first (hcause : cause = true) (h : Reports o c) : Reports o (if cause then c else c') := by
  rwa [if_pos hcause]

theorem reports_skip (hcause : cause = false) (h : Reports o c') : Reports o (if cause then c else c') := by
  simpa [hcause] using h

theorem reports_check {check : Prop} [Decidable check] (hcheck : check ↔ cause = true) (h : Reports o c)
    (h' : Reports o' c') : Reports (if check then o else o') (if cause then c else c') := by
  by_cases hc : check
  · rwa [if_pos hc, if_pos (hcheck.1 hc)]
  · rwa [if_neg hc, if_neg fun hcause => hc (hcheck.2 hcause)]

end

section
variable {s : State} {k : Nat} {t : Instance}

theorem causeInstance_of_none (i : Instr) (hk : iidOf i = some k) (h : s.inst[k]? = none) :
    causeInstance i s = true := by
  rw [causeInstance, hk, Option.any_some, decide_eq_true_iff]
  exact List.getElem?_eq_none_iff.1 h

theorem causeInstance_of_some (i : Instr) (hk : iidOf i = some k) (h : s.inst[k]? = some t) :
    causeInstance i s = false := by
  obtain ⟨hlt, -⟩ := List.getElem?_eq_some_iff.1 h
  rw [causeInstance, hk, Option.any_some, decide_eq_false_iff_not]
  exact Nat.not_le.2 hlt

theorem targetOf_of_some (i : Instr) (hk : iidOf i = some k) (h : s.inst[k]? = some t) : targetOf i s = some t := by
  simp [targetOf, hk, h]

theorem causeOrder_of_some (i : Instr) (hk : iidOf i = some k) (h : s.inst[k]? = some t) :
    causeOrder i s = !phaseLegal i t.ph := by
  simp [causeOrder, targetOf_of_some i hk h]

end

/-- INIT checks E_INSTANCE, E_PARAM (R121). -/
theorem execInit_reports (vid iid : Nat) (s : State) :
    Reports (execInit vid iid s) (reportedCode (.init vid iid) s) := by
  unfold execInit
  cases ht : s.inst[iid]? with
  | none => exact reports_first (causeInstance_of_none _ rfl ht) (reports_raise ..)
  | some t =>
    refine reports_skip (causeInstance_of_some _ rfl ht) ?_
    cases hp : s.initParams vid with
    | none => exact reports_first (by simp [causeParam, hp]) (reports_raise ..)
    | some p =>
      exact reports_skip (by simp [causeParam, hp])
        <| reports_skip (by simp [causeOrder_of_some (.init vid iid) rfl ht, phaseLegal])
        <| reports_skip rfl <| reports_skip rfl <| reports_skip rfl <| reports_skip rfl <| reports_complete ..

/-- ABSORB checks E_INSTANCE, E_ORDER, E_LENGTH, E_BUS (R122, R123). -/
theorem execAbsorb_reports (iid : Nat) (s : State) :
    Reports (execAbsorb iid s) (reportedCode (.absorb iid) s) := by
  unfold execAbsorb
  cases ht : s.inst[iid]? with
  | none => exact reports_first (causeInstance_of_none _ rfl ht) (reports_raise ..)
  | some t =>
    exact reports_skip (causeInstance_of_some _ rfl ht)
      <| reports_skip rfl
      <| reports_check (by simp [causeOrder_of_some (.absorb iid) rfl ht, phaseLegal]) (reports_raise ..)
      <| reports_check (by simp [causeLength, -State.length_eq, targetOf_of_some (.absorb iid) rfl ht])
        (reports_raise ..)
      <| reports_skip rfl <| reports_skip rfl
      <| reports_check (by simp [causeBus, neededRanges]) (reports_raise ..)
      <| reports_complete ..

/-- FINALIZE checks E_INSTANCE, E_ORDER, E_BUS (R132). -/
theorem execFinalize_reports (iid : Nat) (fOut : Bool) (s : State) :
    Reports (execFinalize iid fOut s) (reportedCode (.finalize iid fOut) s) := by
  unfold execFinalize
  cases ht : s.inst[iid]? with
  | none => exact reports_first (causeInstance_of_none _ rfl ht) (reports_raise ..)
  | some t =>
    refine reports_skip (causeInstance_of_some _ rfl ht)
      <| reports_skip rfl
      <| reports_check (by simp [causeOrder_of_some (.finalize iid fOut) rfl ht, phaseLegal]) (reports_raise ..)
      <| reports_skip rfl <| reports_skip rfl <| reports_skip rfl
      <| reports_check ?_ (reports_raise ..) ?_
    · simp [causeBus, neededRanges, targetOf_of_some (.finalize iid fOut) rfl ht, and_left_comm, and_assoc]
    · dsimp only
      split
      · exact reports_complete ..
      · exact reports_complete ..

/-- SQUEEZE checks E_INSTANCE, E_ORDER, E_LENGTH, the null output, E_BUS (R150). -/
theorem execSqueeze_reports (iid : Nat) (fOut : Bool) (s : State) :
    Reports (execSqueeze iid fOut s) (reportedCode (.squeeze iid fOut) s) := by
  unfold execSqueeze
  cases ht : s.inst[iid]? with
  | none => exact reports_first (causeInstance_of_none _ rfl ht) (reports_raise ..)
  | some t =>
    exact reports_skip (causeInstance_of_some _ rfl ht)
      <| reports_skip rfl
      <| reports_check (by simp [causeOrder_of_some (.squeeze iid fOut) rfl ht, phaseLegal]) (reports_raise ..)
      <| reports_check decide_eq_true_iff.symm (reports_raise ..)
      <| reports_skip rfl
      <| reports_check (by simp [nullOutput, -State.length_eq]) (reports_complete ..)
      <| reports_check (by simp [causeBus, neededRanges]) (reports_raise ..)
      <| reports_complete ..

/-- DISCARD checks E_INSTANCE (R135). -/
theorem execDiscard_reports (iid : Nat) (s : State) :
    Reports (execDiscard iid s) (reportedCode (.discard iid) s) := by
  unfold execDiscard
  cases ht : s.inst[iid]? with
  | none => exact reports_first (causeInstance_of_none _ rfl ht) (reports_raise ..)
  | some t =>
    refine reports_skip (causeInstance_of_some _ rfl ht)
      <| reports_skip rfl
      <| reports_skip (by simp [causeOrder_of_some (.discard iid) rfl ht, phaseLegal])
      <| reports_skip rfl <| reports_skip rfl <| reports_skip rfl <| reports_skip rfl ?_
    dsimp only
    split
    · exact reports_complete ..
    · exact reports_complete ..

/-- HASH_FIXED checks E_PARAM, the null output, E_BUS (R180). -/
theorem execHashFixed_reports (vid : Nat) (fOut : Bool) (s : State) :
    Reports (execHashFixed vid fOut s) (reportedCode (.hashFixed vid fOut) s) := by
  unfold execHashFixed
  refine reports_skip rfl ?_
  cases hp : s.config.fixedVariant vid with
  | none => exact reports_first (by simp [causeParam, hp]) (reports_raise ..)
  | some p =>
    exact reports_skip (by simp [causeParam, hp])
      <| reports_skip rfl <| reports_skip rfl <| reports_skip rfl
      <| reports_check (by simp [nullOutput]) (reports_complete ..)
      <| reports_check (by simp [causeBus, neededRanges, hp, imp_iff_not_or]) (reports_raise ..)
      <| reports_complete ..

/-- HASH_XOF checks E_PARAM, the null output, E_BUS (R182). -/
theorem execHashXof_reports (vid : Nat) (fOut : Bool) (s : State) :
    Reports (execHashXof vid fOut s) (reportedCode (.hashXof vid fOut) s) := by
  unfold execHashXof
  refine reports_skip rfl ?_
  cases hp : s.config.xofVariant vid with
  | none => exact reports_first (by simp [causeParam, hp]) (reports_raise ..)
  | some p =>
    exact reports_skip (by simp [causeParam, hp])
      <| reports_skip rfl <| reports_skip rfl <| reports_skip rfl
      <| reports_check (by simp [nullOutput, -State.outBytes_eq]) (reports_complete ..)
      <| reports_check (by simp [causeBus, neededRanges, imp_iff_not_or]) (reports_raise ..)
      <| reports_complete ..

/-- KRYPTOHASH checks E_SIZE, E_BUS (R201). -/
theorem execKryptohash_reports (s : State) : Reports (execKryptohash s) (reportedCode .kryptohash s) := by
  unfold execKryptohash
  exact reports_skip rfl <| reports_skip rfl <| reports_skip rfl <| reports_skip rfl
    <| reports_check decide_eq_true_iff.symm (reports_raise ..)
    <| reports_skip rfl
    <| reports_check (by simp [causeBus, neededRanges, imp_iff_not_or]) (reports_raise ..)
    <| reports_complete ..

/-- REORDER checks E_SIZE, E_BUS (R222). -/
theorem execReorder_reports (s : State) : Reports (execReorder s) (reportedCode .reorder s) := by
  unfold execReorder
  exact reports_skip rfl <| reports_skip rfl <| reports_skip rfl <| reports_skip rfl
    <| reports_check decide_eq_true_iff.symm (reports_raise ..)
    <| reports_skip rfl
    <| reports_check (by simp [causeBus, neededRanges, imp_iff_not_or]) (reports_raise ..)
    <| reports_complete ..

theorem exec_reports (i : Instr) (s : State) : Reports (exec i s) (reportedCode i s) := by
  cases i with
  | init vid iid => exact execInit_reports vid iid s
  | absorb iid => exact execAbsorb_reports iid s
  | finalize iid fOut => exact execFinalize_reports iid fOut s
  | squeeze iid fOut => exact execSqueeze_reports iid fOut s
  | discard iid => exact execDiscard_reports iid s
  | hashFixed vid fOut => exact execHashFixed_reports vid fOut s
  | hashXof vid fOut => exact execHashXof_reports vid fOut s
  | kryptohash => exact execKryptohash_reports s
  | reorder => exact execReorder_reports s

/-! ### Failure and success (R242, R243) -/

/-- The byte count that a success of the command puts into RESULT (R242). -/
def successCount (i : Instr) (s : State) : Nat :=
  match i with
  | .init _ _ => 0
  | .absorb _ => 0
  | .discard _ => 0
  | .finalize iid f => if f then ((s.inst[iid]?).elim 0 fun u => u.prm.n / 8) else 0
  | .squeeze _ f => if f then min (s.arg1.toNat / 8) s.config.xofMaxBytes else 0
  | .hashFixed vid f => if f then ((s.config.variant vid).elim 0 fun p => p.n / 8) else 0
  | .hashXof _ f => if f then min s.arg3.toNat s.config.xofMaxBytes else 0
  | .kryptohash => 40
  | .reorder => s.arg1.toNat

/-- The command ends with success: CODE is OK, FAULT is as before, and RESULT is `n` (R242). -/
def Succeeds (o : Outcome State Fault Refusal) (s : State) (n : Nat) : Prop :=
  ∃ t, o = .next t ∧ t.code = .ok ∧ t.fault = s.fault ∧ t.result = BitVec.ofNat 64 n

theorem succeeds_complete {o : Outcome State Fault Refusal} {s u : State} {m n : Nat} (ho : o = .next (u.complete m))
    (hfault : u.fault = s.fault) (hn : m = n) : Succeeds o s n :=
  ⟨_, ho, rfl, hfault, hn ▸ rfl⟩

theorem variant_of_fixedVariant {c : Config} {vid : Nat} {p : Params} (h : c.fixedVariant vid = some p) :
    c.variant vid = some p :=
  (Option.filter_eq_some_iff.1 h).1

theorem execFinalize_fails_or_succeeds (iid : Nat) (fOut : Bool) (s : State) :
    Fails (execFinalize iid fOut s) s ∨
      Succeeds (execFinalize iid fOut s) s (successCount (.finalize iid fOut) s) := by
  obtain h | ⟨t, ht, -, ⟨-, hf, -, h⟩ | ⟨hnull, h⟩⟩ := execFinalize_cases iid fOut s
  · exact .inl h
  · exact .inr (succeeds_complete h (by simp) (by simp [successCount, ht, hf]))
  · refine .inr (succeeds_complete h (by simp) ?_)
    cases fOut with
    | false => rfl
    | true =>
      have hn : t.prm.n = 0 := by simpa using hnull
      simp [successCount, ht, hn]

theorem execSqueeze_fails_or_succeeds (iid : Nat) (fOut : Bool) (s : State) :
    Fails (execSqueeze iid fOut s) s ∨
      Succeeds (execSqueeze iid fOut s) s (successCount (.squeeze iid fOut) s) := by
  obtain h | ⟨t, -, -, -, ⟨hnull, h⟩ | ⟨hf, -, -, h⟩⟩ := execSqueeze_cases iid fOut s
  · exact .inl h
  · refine .inr (succeeds_complete h (by simp) ?_)
    obtain hf | hlen := hnull
    · simp [successCount, hf]
    · rw [State.length_eq] at hlen
      simp [successCount, hlen]
  · exact .inr (succeeds_complete h (by simp) (by simp [successCount, hf, Config.clamp]))

theorem execHashXof_fails_or_succeeds (vid : Nat) (fOut : Bool) (s : State) :
    Fails (execHashXof vid fOut s) s ∨
      Succeeds (execHashXof vid fOut s) s (successCount (.hashXof vid fOut) s) := by
  obtain h | ⟨p, -, ⟨hnull, h⟩ | ⟨hf, -, -, -, h⟩⟩ := execHashXof_cases vid fOut s
  · exact .inl h
  · refine .inr (succeeds_complete h (by simp) ?_)
    obtain hf | hlen := hnull
    · simp [successCount, hf]
    · rw [State.outBytes_eq] at hlen
      simp [successCount, hlen]
  · exact .inr (succeeds_complete h (by simp) (by simp [successCount, hf, Config.clamp]))

theorem execHashFixed_fails_or_succeeds (vid : Nat) (fOut : Bool) (s : State) :
    Fails (execHashFixed vid fOut s) s ∨
      Succeeds (execHashFixed vid fOut s) s (successCount (.hashFixed vid fOut) s) := by
  obtain h | ⟨p, hp, ⟨hf, h⟩ | ⟨hf, -, -, h⟩⟩ := execHashFixed_cases vid fOut s
  · exact .inl h
  · exact .inr (succeeds_complete h (by simp) (by simp [successCount, hf]))
  · exact .inr (succeeds_complete h (by simp) (by simp [successCount, hf, variant_of_fixedVariant hp]))

theorem exec_fails_or_succeeds (i : Instr) (s : State) :
    Fails (exec i s) s ∨ Succeeds (exec i s) s (successCount i s) := by
  cases i with
  | init vid iid =>
    obtain h | ⟨_, _, -, -, h⟩ := execInit_cases vid iid s
    · exact .inl h
    · exact .inr (succeeds_complete h (by simp) rfl)
  | absorb iid =>
    obtain h | ⟨_, -, -, -, -, h⟩ := execAbsorb_cases iid s
    · exact .inl h
    · exact .inr (succeeds_complete h (by simp) rfl)
  | finalize iid fOut => exact execFinalize_fails_or_succeeds iid fOut s
  | squeeze iid fOut => exact execSqueeze_fails_or_succeeds iid fOut s
  | discard iid =>
    obtain h | ⟨_, -, ⟨-, h⟩ | ⟨-, h⟩⟩ := execDiscard_cases iid s
    · exact .inl h
    · exact .inr (succeeds_complete h (by simp) rfl)
    · exact .inr (succeeds_complete h (by simp) rfl)
  | hashFixed vid fOut => exact execHashFixed_fails_or_succeeds vid fOut s
  | hashXof vid fOut => exact execHashXof_fails_or_succeeds vid fOut s
  | kryptohash =>
    obtain h | ⟨-, -, -, h⟩ := execKryptohash_cases s
    · exact .inl h
    · exact .inr (succeeds_complete h (by simp) rfl)
  | reorder =>
    obtain h | ⟨-, -, -, h⟩ := execReorder_cases s
    · exact .inl h
    · exact .inr (succeeds_complete h (by simp) rfl)

/-- A failed command raises its code and does nothing else (R243). -/
theorem eq_raise_of_exec {i : Instr} {s t : State} (h : exec i s = .next t) (hc : t.code ≠ .ok) :
    t = s.raise t.code := by
  obtain ⟨e, -, he⟩ | ⟨u, hu, hok, -, -⟩ := exec_fails_or_succeeds i s
  · cases h.symm.trans he
    rfl
  · cases h.symm.trans hu
    exact absurd hok hc

end Sys2Proof.Machine

namespace Sys2Proof

open Machine

/-- Settles O20: a command that fails raises its code and does nothing else, and a value that does not decode raises
E_OPCODE. -/
theorem failedCommandWritesOnlyStatus : Obligations.FailedCommandWritesOnlyStatus := by
  refine ⟨fun i s t h hc => eq_raise_of_exec h hc, fun v s t h hc => ?_⟩
  cases hd : decode v with
  | error r =>
    rw [runCommand_of_error hd] at h
    cases h
    rfl
  | ok i =>
    rw [runCommand_of_ok hd] at h
    exact eq_raise_of_exec h hc

/-- Settles O21: the checks of each meaning meet the causes in the order of R241. -/
theorem reportedCodeIsFirstCause : Obligations.ReportedCodeIsFirstCause := by
  refine ⟨fun v r s t hd h => ?_, fun v i s t hd h => ?_, fun i s t h => (exec_reports i s).code_eq h⟩
  · rw [runCommand_of_error hd] at h
    cases h
    rfl
  · rw [runCommand_of_ok hd] at h
    exact (exec_reports i s).code_eq h

/-- Settles O22: what completes with OK has not failed, so it succeeds with the count of its rule. -/
theorem successReportsByteCount : Obligations.SuccessReportsByteCount := by
  intro i s t h hc
  obtain ⟨e, hne, he⟩ | ⟨u, hu, -, hfault, hresult⟩ := exec_fails_or_succeeds i s
  · cases h.symm.trans he
    exact absurd hc hne
  · cases h.symm.trans hu
    exact ⟨hfault, hresult⟩

end Sys2Proof
end

section
/-! The command format (spec/30_encoding.md R90 to R94, R101): a CMD value decodes to a command exactly when its fields are
the command's, so decoding and encoding are inverse; the rows of R94 and the rejections are read off the same fields. -/

namespace Sys2Proof

open Machine (field field_lt)
open Laws.WordFields (opcode vid iid)

/-- F_OUT of a command, 0 where R94 makes it a must-be-zero field. -/
def Instr.fOut : Instr → Bool
  | .init _ _ => false
  | .absorb _ => false
  | .finalize _ f => f
  | .squeeze _ f => f
  | .discard _ => false
  | .hashFixed _ f => f
  | .hashXof _ f => f
  | .kryptohash => false
  | .reorder => false

/-- `ZMASK` of a command's row (R94). -/
def Instr.zmask : Instr → BitVec 32
  | .init _ _ => 0x00000001
  | .absorb _ => 0x00FF0001
  | .finalize _ _ => 0x00FF0000
  | .squeeze _ _ => 0x00FF0000
  | .discard _ => 0x00FF0001
  | .hashFixed _ _ => 0x0000FF00
  | .hashXof _ _ => 0x0000FF00
  | .kryptohash => 0x00FFFF01
  | .reorder => 0x00FFFF01

/-! ### Masks and fields -/

/-- Masking with `len` ones at bit `lo` leaves the field there in its place. -/
theorem and_shiftedOnes (x lo len : Nat) : x &&& (2 ^ len - 1) <<< lo = x / 2 ^ lo % 2 ^ len * 2 ^ lo := by
  have h : x &&& (2 ^ len - 1) <<< lo = (x >>> lo &&& (2 ^ len - 1)) <<< lo := by
    apply Nat.eq_of_testBit_eq
    intro k
    by_cases hk : lo ≤ k
    · simp [hk, Bool.and_comm]
    · simp [hk]
  rw [h, Nat.and_two_pow_sub_one_eq_mod, Nat.shiftRight_eq_div_pow, Nat.shiftLeft_eq]

/-- The same of a command word, for a mask `m` written out. -/
theorem toNat_and_mask (w m : BitVec 32) (lo len : Nat) (hm : m.toNat = (2 ^ len - 1) <<< lo) :
    (w &&& m).toNat = w.toNat / 2 ^ lo % 2 ^ len * 2 ^ lo := by
  rw [BitVec.toNat_and, hm, and_shiftedOnes]

/-- A mask that is a union of two parts: what the second part finds zero, the first part alone decides. -/
theorem and_or_eq_iff (w a b m : BitVec 32) (hab : a &&& b = 0#32) (hm : m &&& b = 0#32) :
    w &&& (a ||| b) = m ↔ w &&& a = m ∧ w &&& b = 0#32 := by
  rw [BitVec.and_or_distrib_left]
  constructor
  · intro h
    have hb : w &&& b = 0#32 := by
      have h' := congrArg (· &&& b) h
      simpa [BitVec.and_or_distrib_right, BitVec.and_assoc, hab, hm] using h'
    exact ⟨by simpa [hb] using h, hb⟩
  · rintro ⟨ha, hb⟩
    rw [ha, hb, BitVec.or_zero]

theorem and_or_eq_zero_iff (w a b : BitVec 32) : w &&& (a ||| b) = 0#32 ↔ w &&& a = 0#32 ∧ w &&& b = 0#32 := by
  rw [BitVec.and_or_distrib_left, BitVec.or_eq_zero_iff]

section
variable (v : Word64)

theorem field_zero_zero : field v 0 0 = (v.getLsbD 0).toNat := by
  rw [BitVec.getLsbD, Nat.testBit_zero, field]
  obtain h | h := Nat.mod_two_eq_zero_or_one v.toNat <;> simp [h]

theorem setWidth_and_eq_zero_iff (m : BitVec 32) (hi lo : Nat) (hm : m.toNat = (2 ^ (hi + 1 - lo) - 1) <<< lo)
    (hlo : lo ≤ hi) (hhi : hi < 32) : v.setWidth 32 &&& m = 0#32 ↔ field v hi lo = 0 := by
  have hdvd : 2 ^ lo * 2 ^ (hi + 1 - lo) ∣ 2 ^ 32 := by
    rw [← Nat.pow_add]
    exact Nat.pow_dvd_pow 2 (by omega)
  rw [← BitVec.toNat_inj, toNat_and_mask _ _ _ _ hm, BitVec.toNat_setWidth, ← Nat.mod_mul_right_div_self,
    Nat.mod_mod_of_dvd _ hdvd, Nat.mod_mul_right_div_self]
  simp [field]

@[simp] theorem and_vidMask : v.setWidth 32 &&& 0x00FF0000#32 = 0#32 ↔ field v 23 16 = 0 :=
  setWidth_and_eq_zero_iff v _ 23 16 rfl (by decide) (by decide)

@[simp] theorem and_iidMask : v.setWidth 32 &&& 0x0000FF00#32 = 0#32 ↔ field v 15 8 = 0 :=
  setWidth_and_eq_zero_iff v _ 15 8 rfl (by decide) (by decide)

@[simp] theorem and_fOutMask : v.setWidth 32 &&& 0x00000001#32 = 0#32 ↔ field v 0 0 = 0 :=
  setWidth_and_eq_zero_iff v _ 0 0 rfl (by decide) (by decide)

@[simp] theorem and_vidFOutMask : v.setWidth 32 &&& 0x00FF0001#32 = 0#32 ↔ field v 23 16 = 0 ∧ field v 0 0 = 0 := by
  rw [show 0x00FF0001#32 = 0x00FF0000#32 ||| 0x00000001#32 from rfl, and_or_eq_zero_iff, and_vidMask, and_fOutMask]

@[simp] theorem and_allFieldsMask :
    v.setWidth 32 &&& 0x00FFFF01#32 = 0#32 ↔ field v 23 16 = 0 ∧ field v 15 8 = 0 ∧ field v 0 0 = 0 := by
  rw [show 0x00FFFF01#32 = 0x00FF0000#32 ||| (0x0000FF00#32 ||| 0x00000001#32) from rfl, and_or_eq_zero_iff,
    and_or_eq_zero_iff, and_vidMask, and_iidMask, and_fOutMask]

end

/-! ### The rows of R93 and R94 -/

theorem opcodeRow_opcode (i : Instr) : opcodeRow (opcode i) (vid i) (iid i) i.fOut = some (i.zmask, i) := by
  cases i <;> rfl

theorem opcodeRow_eq_some {op a b : Nat} {f : Bool} {z : BitVec 32} {i : Instr} (h : opcodeRow op a b f = some (z, i)) :
    op = opcode i ∧ z = i.zmask := by
  unfold opcodeRow at h
  split at h <;> cases h <;> exact ⟨rfl, rfl⟩

/-- The command of the same row with the given fields, where the row has them. -/
def Instr.withFields (a b : Nat) (f : Bool) : Instr → Instr
  | .init _ _ => .init a b
  | .absorb _ => .absorb b
  | .finalize _ _ => .finalize b f
  | .squeeze _ _ => .squeeze b f
  | .discard _ => .discard b
  | .hashFixed _ _ => .hashFixed a f
  | .hashXof _ _ => .hashXof a f
  | .kryptohash => .kryptohash
  | .reorder => .reorder

theorem opcodeRow_opcode_withFields (row : Instr) (a b : Nat) (f : Bool) :
    opcodeRow (opcode row) a b f = some ((row.withFields a b f).zmask, row.withFields a b f) := by
  cases row <;> rfl

theorem matchMask_withFields (row : Instr) (a b : Nat) (f : Bool) : matchMask (row.withFields a b f) = matchMask row := by
  cases row <;> rfl

theorem zmask_withFields (row : Instr) (a b : Nat) (f : Bool) : (row.withFields a b f).zmask = row.zmask := by
  cases row <;> rfl

theorem opcodeRow_eq_none_iff {op a b : Nat} {f : Bool} :
    opcodeRow op a b f = none ↔ op ∉ [0x01, 0x02, 0x03, 0x04, 0x05, 0x10, 0x11, 0x20, 0x21] := by
  unfold opcodeRow
  split <;> simp_all

/-- ZMASK finds zero exactly when the command's fields are those of the word: a field is the command's own, or the row wants
it to be 0. -/
theorem and_zmask_eq_zero_iff {v : Word64} {op : Nat} {z : BitVec 32} {i : Instr}
    (h : opcodeRow op (field v 23 16) (field v 15 8) (v.getLsbD 0) = some (z, i)) :
    v.setWidth 32 &&& z = 0#32 ↔ field v 23 16 = vid i ∧ field v 15 8 = iid i ∧ v.getLsbD 0 = i.fOut := by
  unfold opcodeRow at h
  split at h <;> cases h <;> simp [vid, iid, Instr.fOut, field_zero_zero]

/-- The must-be-zero fields of R94's table, opcode by opcode. -/
theorem and_zmask_ne_zero_iff {v : Word64} {z : BitVec 32} {i : Instr}
    (h : opcodeRow (field v 31 24) (field v 23 16) (field v 15 8) (v.getLsbD 0) = some (z, i)) :
    v.setWidth 32 &&& z ≠ 0#32 ↔
      (field v 31 24 ∈ [0x02, 0x03, 0x04, 0x05, 0x20, 0x21] ∧ field v 23 16 ≠ 0)
        ∨ (field v 31 24 ∈ [0x10, 0x11, 0x20, 0x21] ∧ field v 15 8 ≠ 0)
        ∨ (field v 31 24 ∈ [0x01, 0x02, 0x05, 0x20, 0x21] ∧ field v 0 0 ≠ 0) := by
  unfold opcodeRow at h
  split at h <;> cases h <;> simp_all [imp_iff_not_or]

/-! ### `decode` (R92) -/

theorem decode_eq_ok_iff_row {v : Word64} {i : Instr} :
    decode v = .ok i ↔ field v 63 32 = 0 ∧ field v 7 1 = 0 ∧ v.setWidth 32 &&& i.zmask = 0#32 ∧
      opcodeRow (field v 31 24) (field v 23 16) (field v 15 8) (v.getLsbD 0) = some (i.zmask, i) := by
  unfold decode
  cases hrow : opcodeRow (field v 31 24) (field v 23 16) (field v 15 8) (v.getLsbD 0) with
  | none => by_cases h32 : field v 63 32 = 0 <;> simp [h32]
  | some row =>
    obtain ⟨z, k⟩ := row
    obtain ⟨-, rfl⟩ := opcodeRow_eq_some hrow
    dsimp only
    split_ifs with h32 h7 hz
    · simp [h32]
    · simp [h7]
    · refine iff_of_false (by simp) ?_
      rintro ⟨-, -, hz0, hi⟩
      obtain rfl : k = i := by simpa using congrArg (Option.map Prod.snd) hi
      exact hz hz0
    · simp only [not_not] at h32 h7 hz
      constructor
      · rintro h
        cases h
        exact ⟨h32, h7, hz, rfl⟩
      · rintro ⟨-, -, -, hi⟩
        obtain rfl : k = i := by simpa using congrArg (Option.map Prod.snd) hi
        rfl

/-- A value decodes to a command exactly when its fields are the command's and every other bit is 0. -/
theorem decode_eq_ok_iff {v : Word64} {i : Instr} :
    decode v = .ok i ↔ field v 63 32 = 0 ∧ field v 31 24 = opcode i ∧ field v 23 16 = vid i ∧
      field v 15 8 = iid i ∧ field v 7 1 = 0 ∧ v.getLsbD 0 = i.fOut := by
  rw [decode_eq_ok_iff_row]
  constructor
  · rintro ⟨h32, h7, hz, hrow⟩
    obtain ⟨hv, hk, hf⟩ := (and_zmask_eq_zero_iff hrow).1 hz
    exact ⟨h32, (opcodeRow_eq_some hrow).1, hv, hk, h7, hf⟩
  · rintro ⟨h32, hop, hv, hk, h7, hf⟩
    have hrow : opcodeRow (field v 31 24) (field v 23 16) (field v 15 8) (v.getLsbD 0) = some (i.zmask, i) := by
      rw [hop, hv, hk, hf, opcodeRow_opcode]
    exact ⟨h32, h7, (and_zmask_eq_zero_iff hrow).2 ⟨hv, hk, hf⟩, hrow⟩

/-! ### The encoder -/

theorem field_setWidth (w : BitVec 32) (hi lo : Nat) :
    field (w.setWidth 64) hi lo = w.toNat / 2 ^ lo % 2 ^ (hi + 1 - lo) := by
  rw [field, BitVec.toNat_setWidth, Nat.mod_eq_of_lt (a := w.toNat) (by omega)]

theorem encodeWord_eq (i : Instr) : encodeWord i = commandWord (opcode i) (vid i) (iid i) i.fOut := by
  cases i <;> rfl

theorem opcode_lt (i : Instr) : opcode i < 256 := by
  cases i <;> simp [opcode]

theorem Instr.wf_iff (i : Instr) : i.wf = true ↔ vid i < 256 ∧ iid i < 256 := by
  cases i <;> simp [Instr.wf, Instr.byteField, vid, iid]

theorem toNat_encode {i : Instr} (h : i.wf = true) :
    (encode i).toNat = opcode i * 2 ^ 24 + vid i * 2 ^ 16 + iid i * 2 ^ 8 + i.fOut.toNat := by
  obtain ⟨hv, hk⟩ := (Instr.wf_iff i).1 h
  have ho := opcode_lt i
  have hf := Bool.toNat_le i.fOut
  rw [encode, encodeWord_eq, commandWord, BitVec.toNat_setWidth, BitVec.toNat_ofNat]
  omega

/-! ### The statements -/

/-- Settles O1: the encoding holds the fields of the command at their places and 0 elsewhere. -/
theorem decodeOfEncode : Obligations.DecodeOfEncode := by
  intro i h
  obtain ⟨hv, hk⟩ := (Instr.wf_iff i).1 h
  have ho := opcode_lt i
  have hf := Bool.toNat_le i.fOut
  have hn := toNat_encode h
  have hbit : (encode i).getLsbD 0 = i.fOut := by
    rw [BitVec.getLsbD, hn, Nat.testBit_zero]
    cases i.fOut <;> simp <;> omega
  refine decode_eq_ok_iff.2 ⟨?_, ?_, ?_, ?_, ?_, hbit⟩
  all_goals
    rw [field]
    omega

/-- Settles O2: the fields of a value that decodes are 8-bit values, and they make up the whole value. -/
theorem encodeOfDecode : Obligations.EncodeOfDecode := by
  intro v i h
  obtain ⟨h32, hop, hv, hk, h7, hf⟩ := decode_eq_ok_iff.1 h
  have hwf : i.wf = true := (Instr.wf_iff i).2 ⟨hv ▸ field_lt v 23 16, hk ▸ field_lt v 15 8⟩
  have hbit : field v 0 0 = i.fOut.toNat := by rw [field_zero_zero, hf]
  refine ⟨hwf, BitVec.eq_of_toNat_eq ?_⟩
  rw [toNat_encode hwf]
  simp only [field] at h32 hop hv hk h7 hbit
  omega

/-! ### The match and mask of a row (R94) -/

theorem matchMask_snd (row : Instr) : (matchMask row).2 = 0xFF000000#32 ||| (0x000000FE#32 ||| row.zmask) := by
  cases row <;> rw [matchMask, Instr.zmask] <;> rfl

theorem toNat_matchMask_fst (row : Instr) : (matchMask row).1.toNat = opcode row * 2 ^ 24 := by
  cases row <;> rw [matchMask, opcode] <;> rfl

theorem opcodeMask_and_rest (row : Instr) : 0xFF000000#32 &&& (0x000000FE#32 ||| row.zmask) = 0#32 := by
  cases row <;> rw [Instr.zmask] <;> rfl

theorem matchMask_fst_and_rest (row : Instr) : (matchMask row).1 &&& (0x000000FE#32 ||| row.zmask) = 0#32 := by
  cases row <;> rw [matchMask, Instr.zmask] <;> rfl

/-- A word agrees with a row of R94 exactly when its opcode is the row's and the bits the row wants to be 0 are 0. -/
theorem and_matchMask_eq_iff (w : BitVec 32) (row : Instr) :
    w &&& (matchMask row).2 = (matchMask row).1 ↔
      field (w.setWidth 64) 31 24 = opcode row ∧ field (w.setWidth 64) 7 1 = 0 ∧ w &&& row.zmask = 0#32 := by
  have hop : w &&& 0xFF000000#32 = (matchMask row).1 ↔ field (w.setWidth 64) 31 24 = opcode row := by
    rw [← BitVec.toNat_inj, toNat_and_mask w _ 24 8 rfl, field_setWidth, toNat_matchMask_fst]
    omega
  have hrsv : w &&& 0x000000FE#32 = 0#32 ↔ field (w.setWidth 64) 7 1 = 0 := by
    rw [← setWidth_and_eq_zero_iff _ 0x000000FE#32 7 1 rfl (by decide) (by decide)]
    simp
  rw [matchMask_snd, and_or_eq_iff _ _ _ _ (opcodeMask_and_rest row) (matchMask_fst_and_rest row), hop,
    and_or_eq_zero_iff, hrsv]

/-- Settles O3: what a row's mask compares is what `decode` checks of a word with that row's opcode. -/
theorem tableRowsSelectCommands : Obligations.TableRowsSelectCommands := by
  intro w row
  have h32 : field (w.setWidth 64) 63 32 = 0 := by
    rw [field_setWidth]
    omega
  have hw : (w.setWidth 64).setWidth 32 = w := by simp
  constructor
  · intro h
    obtain ⟨hop, h7, hz⟩ := (and_matchMask_eq_iff w row).1 h
    refine ⟨row.withFields (field (w.setWidth 64) 23 16) (field (w.setWidth 64) 15 8) ((w.setWidth 64).getLsbD 0),
      decode_eq_ok_iff_row.2 ⟨h32, h7, ?_, ?_⟩, matchMask_withFields ..⟩
    · rw [hw, zmask_withFields, hz]
    · rw [hop, opcodeRow_opcode_withFields]
  · rintro ⟨i, hi, hrow⟩
    obtain ⟨-, h7, hz, hop⟩ := decode_eq_ok_iff_row.1 hi
    rw [hw] at hz
    rw [← hrow]
    exact (and_matchMask_eq_iff w i).2 ⟨(opcodeRow_eq_some hop).1, h7, hz⟩

/-- Settles O4: `decode` makes its checks in this order, and the last of them finds a must-be-zero field. -/
theorem firstFailingDecodeCheckRejects : Obligations.FirstFailingDecodeCheckRejects := by
  intro v
  dsimp only
  cases hrow : opcodeRow (field v 31 24) (field v 23 16) (field v 15 8) (v.getLsbD 0) with
  | none =>
    rw [if_pos (opcodeRow_eq_none_iff.1 hrow), decode, hrow]
    split_ifs <;> rfl
  | some row =>
    obtain ⟨z, i⟩ := row
    have hop : ¬field v 31 24 ∉ [0x01, 0x02, 0x03, 0x04, 0x05, 0x10, 0x11, 0x20, 0x21] := fun h => by
      simp [opcodeRow_eq_none_iff.2 h] at hrow
    rw [if_neg hop, ← and_zmask_ne_zero_iff hrow, decode, hrow]
    dsimp only
    split_ifs with h32 h7 hz
    · rfl
    · rfl
    · exact ⟨fun _ => rfl, fun h => absurd hz h⟩
    · exact ⟨fun h => absurd h hz, fun _ => ⟨i, rfl⟩⟩

/-- Settles O5: each word has the fields of its command, or fails the named check. -/
theorem specWordsDecode : Obligations.SpecWordsDecode := by
  unfold Obligations.SpecWordsDecode
  decide

end Sys2Proof
end

section
/-! One step and the register interface (spec/10_state.md R30 to R35; spec/20_memory.md R65, R68; spec/30_encoding.md R101):
what a step does with the host's next operation, the fields of the registers, and the byte lanes of a bus. -/

namespace Sys2Proof.Machine

/-! ### Placing a command (log 11) -/

theorem State.placeOp_nextOp (s : State) (op : HostOp) : (s.placeOp op).nextOp = some op := by
  have hlen : (s.program.take s.pc).length = min s.pc s.program.length := List.length_take
  show (s.program.take s.pc ++ op :: s.program.drop (s.pc + 1))[min s.pc s.program.length]? = some op
  rw [← hlen, List.getElem?_append_right le_rfl, Nat.sub_self, List.getElem?_cons_zero]

/-- The word of a command, fetched as a CMD value, is the command's encoding (R90). -/
theorem ofNat_encodeWord (i : Instr) : BitVec.ofNat 64 ((encodeWord i).toNat % 2 ^ 32) = encode i := by
  rw [Nat.mod_eq_of_lt (encodeWord i).isLt]
  apply BitVec.eq_of_toNat_eq
  rw [encode, BitVec.toNat_ofNat, BitVec.toNat_setWidth]

/-! ### A CMD write of a value that does not decode (R101) -/

theorem step_cmd_of_error {s : State} {v : Word64} {e : Reject} (hc : s.configured = true)
    (hp : s.program[s.pc]? = some (.wr .cmd v)) (hv : decode v = .error e) :
    step s = .next (s.advance.raise .eOpcode) :=
  (step_performs s _ hc hp).trans (runCommand_of_error hv _)

/-! ### Register fields (R32, R33) -/

theorem field_ofNat {n : Nat} (h : n < 2 ^ 64) (hi lo : Nat) :
    field (BitVec.ofNat 64 n) hi lo = n / 2 ^ lo % 2 ^ (hi + 1 - lo) := by
  rw [field, BitVec.toNat_ofNat, Nat.mod_eq_of_lt h]

theorem Code.value_lt (c : Code) : c.value < 8 := by
  cases c <;> decide

theorem State.cfg_fields (s : State) : field s.cfg 0 0 = s.reorderEn.toNat ∧ field s.cfg 63 1 = 0 := by
  have h := Bool.toNat_le s.reorderEn
  rw [State.cfg, field_ofNat (by omega), field_ofNat (by omega)]
  omega

theorem State.status_fields (s : State) :
    field s.status 7 0 = s.code.value ∧ field s.status 8 8 = s.fault.toNat ∧ field s.status 63 9 = 0 := by
  have hc := s.code.value_lt
  have hf := Bool.toNat_le s.fault
  rw [State.status, field_ofNat (by omega), field_ofNat (by omega), field_ofNat (by omega)]
  omega

/-! ### The bus (R65, R68) -/

theorem regAt_eq_lookup (offset : Nat) :
    regAt offset = [(0x00, Reg.cfg), (0x08, .status), (0x10, .result), (0x18, .cmd), (0x20, .arg0), (0x28, .arg1),
      (0x30, .arg2), (0x38, .arg3)].lookup offset := by
  unfold regAt
  split
  case h_9 => exact (List.lookup_eq_none_iff.2 (by simp_all)).symm
  all_goals rfl

theorem accessed_of_not_full {offset size : Nat}
    (h : size ≠ 8 ∨ offset ∉ [0x00, 0x08, 0x10, 0x18, 0x20, 0x28, 0x30, 0x38]) : accessed offset size = none := by
  unfold accessed
  split_ifs with hsize
  · rw [regAt_eq_lookup, List.lookup_eq_none_iff]
    simpa [hsize, Ne.symm] using h
  · rfl

theorem accessed_full (offset : Nat) : accessed offset 8 = regAt offset := rfl

/-- Byte lane k holds bits 8k+7 .. 8k of the lanes' value (R65). -/
theorem lanesValue_div_mod (lanes : List Byte) (k : Nat) :
    lanesValue lanes / 2 ^ (8 * k) % 2 ^ 8 = (lanes.getD k 0).toNat := by
  induction lanes generalizing k with
  | nil => simp [lanesValue]
  | cons b rest ih =>
    have hb : b.toNat < 256 := b.isLt
    have hcons : lanesValue (b :: rest) = b.toNat + 256 * lanesValue rest := rfl
    cases k with
    | zero =>
      rw [hcons, List.getD_cons_zero]
      omega
    | succ k =>
      have hdiv : (b.toNat + 256 * lanesValue rest) / 256 = lanesValue rest := by omega
      rw [hcons, List.getD_cons_succ, ← ih k, Nat.mul_succ, Nat.add_comm (8 * k) 8, Nat.pow_add,
        ← Nat.div_div_eq_div_mul, hdiv]

theorem lanesValue_lt (lanes : List Byte) : lanesValue lanes < 256 ^ lanes.length := by
  induction lanes with
  | nil => simp [lanesValue]
  | cons b rest ih =>
    have hb : b.toNat < 256 := b.isLt
    have hcons : lanesValue (b :: rest) = b.toNat + 256 * lanesValue rest := rfl
    rw [hcons, List.length_cons, Nat.pow_succ]
    omega

end Sys2Proof.Machine

namespace Sys2Proof

open Machine

/-- Settles O6: a CMD write runs what its value decodes to. -/
theorem stepRunsDecodedCommand : Obligations.StepRunsDecodedCommand := by
  intro s v i hc hp hv
  exact (step_performs s _ hc hp).trans (runCommand_of_ok hv _)

/-- Settles O7: the placed word is the command's encoding, which decodes to it (O1). -/
theorem placedCommandRuns : Obligations.PlacedCommandRuns := by
  intro s i hc hwf
  refine ⟨(s.withFetchWord 32 (encodeWord i).toNat).advance, ?_, rfl⟩
  have hop : (s.withFetchWord 32 (encodeWord i).toNat).nextOp = some (.wr .cmd (encode i)) := by
    rw [State.withFetchWord, ofNat_encodeWord, State.placeOp_nextOp]
  exact (step_performs (s.withFetchWord 32 (encodeWord i).toNat) _ hc hop).trans (runCommand_of_ok (decodeOfEncode i hwf) _)

/-- Settles O8: a value with one of these faults is rejected by one of the checks of O4. -/
theorem illegalEncodingEndsWithEOpcode : Obligations.IllegalEncodingEndsWithEOpcode := by
  intro s v hc hp hill
  have hdec : ∃ e, decode v = .error e := by
    have hfirst := firstFailingDecodeCheckRejects v
    dsimp only at hfirst
    split_ifs at hfirst with h32 hop h7
    · exact ⟨_, hfirst⟩
    · exact ⟨_, hfirst⟩
    · exact ⟨_, hfirst.1 (((hill.resolve_left h32).resolve_left (not_not.2 hop)).resolve_left h7)⟩
    · exact ⟨_, hfirst⟩
  obtain ⟨e, he⟩ := hdec
  exact step_cmd_of_error hc hp he

/-- Settles O9: the register's arm of the write. -/
theorem registerWritesFollowAccessRights : Obligations.RegisterWritesFollowAccessRights := by
  intro s r v hc hp hr
  rw [step_performs s _ hc hp]
  cases r with
  | cmd => exact absurd rfl hr
  | cfg => simp [perform, writeReg, State.writeCfg, State.advance, BitVec.getLsbD]
  | _ => rfl

/-- Settles O10: the value read is the register's, and its fields are those of R32 and R33. -/
theorem registerReadsReturnFields : Obligations.RegisterReadsReturnFields := by
  intro s r hc hp
  refine ⟨s.readReg r, ?_, ?_⟩
  · rw [step_performs s _ hc hp]
    cases r <;> rfl
  · cases r with
    | cfg => simpa [State.readReg] using s.cfg_fields
    | status => simpa [State.readReg] using s.status_fields
    | _ => simp [State.readReg]

/-- Settles O11: the register map is the table, and lane k of a write is byte k of the register's value. -/
theorem busAccessesAreFullRegisters : Obligations.BusAccessesAreFullRegisters := by
  refine ⟨fun s offset size hc hp => ⟨fun h => ?_, fun r hsize hr => ?_⟩,
    fun s offset lanes hc hp => ⟨fun h => ?_, fun hlen hoff => ?_⟩⟩
  · rw [step_performs s _ hc hp, perform, busRead, accessed_of_not_full h]
  · rw [step_performs s _ hc hp, perform, busRead, hsize, accessed_full, regAt_eq_lookup, hr]
    cases r <;> rfl
  · rw [step_performs s _ hc hp, perform, busWrite, accessed_of_not_full h]
  · obtain ⟨r, hr⟩ : ∃ r, regAt offset = some r := by
      rw [regAt_eq_lookup, ← Option.ne_none_iff_exists', Ne, List.lookup_eq_none_iff]
      intro hnone
      simp at hnone hoff
      omega
    refine ⟨r, BitVec.ofNat 64 (lanesValue lanes), regAt_eq_lookup offset ▸ hr, fun k hk => ?_, ?_⟩
    · have hlt : lanesValue lanes < 2 ^ 64 := by simpa [hlen] using lanesValue_lt lanes
      rw [field_ofNat hlt, ← lanesValue_div_mod]
      congr 2
      omega
    · rw [step_performs s _ hc hp, perform, busWrite, hlen, accessed_full, hr]

/-- Settles O12: the two cases of a step before it looks at the operation. -/
theorem stepRefusesOrIdles : Obligations.StepRefusesOrIdles := by
  intro s
  exact ⟨step_refuses s, fun hc hpc => step_idle s hc (List.getElem?_eq_none hpc)⟩

end Sys2Proof
end

section
/-! The parameter sets (spec/42_hash_instantiator.md R171; spec/30_encoding.md R96, R100; spec/10_state.md R26): the variant
table and the custom sets are legal, and INIT and DISCARD (spec/40_sponge_absorb.md R121, R135). -/

namespace Sys2Proof

open Machine

/-! ### Legal parameter sets -/

theorem rateOk_iff (r : Nat) : rateOk r = true ↔ 0 < r ∧ r < 1600 ∧ r % 64 = 0 := by
  simp only [rateOk, Bool.and_eq_true, decide_eq_true_iff, and_assoc]
  rfl

theorem suffixOk_iff (d : List Bool) : suffixOk d = true ↔ d.length ≤ 32 := by
  simp only [suffixOk, decide_eq_true_iff]
  rfl

/-- A variant's tuple is legal when its rate, suffix, digest length and kind are. -/
theorem Config.tuple_legal {r n : Nat} {d : List Bool} {k : Kind} (hr : rateOk r = true) (hd : suffixOk d = true)
    (hn : n % 8 = 0) (hle : n ≤ r) (hk : k = .fixed ↔ 0 < n) : (Config.tuple r d n k).Legal := by
  obtain ⟨hpos, hlt, hgran⟩ := (rateOk_iff r).1 hr
  have hsum : r + (1600 - r) = 1600 := by omega
  exact ⟨hpos, hlt, hgran, hsum, (suffixOk_iff d).1 hd, hn, hle, hk⟩

/-- What a well-formed configuration says of the rates of the fixed-digest variants (R5). -/
theorem Config.fxRates_of_wf {c : Config} (h : c.wf = true) :
    (rateOk c.fxRate224 = true ∧ 224 ≤ c.fxRate224) ∧ (rateOk c.fxRate256 = true ∧ 256 ≤ c.fxRate256) ∧
      (rateOk c.fxRate384 = true ∧ 384 ≤ c.fxRate384) ∧ (rateOk c.fxRate512 = true ∧ 512 ≤ c.fxRate512) := by
  simp only [Config.wf, Config.fxRatesOk, Bool.and_eq_true, decide_eq_true_iff] at h
  tauto

/-- What it says of the other rates, of the suffixes and of the scratchpad's size (R5). -/
theorem Config.params_of_wf {c : Config} (h : c.wf = true) :
    rateOk c.xofRateA = true ∧ rateOk c.xofRateB = true ∧ rateOk c.khRate2Bits = true ∧ suffixOk c.sufFixed = true ∧
      suffixOk c.sufXof = true ∧ suffixOk c.sufK1 = true ∧ suffixOk c.sufK2 = true ∧ c.kshakeExtraOk = true ∧
      khScratchBytes ≤ c.xofMaxBytes ∧ c.xofMaxBytes < 2 ^ 64 := by
  simp only [Config.wf, Bool.and_eq_true, decide_eq_true_iff] at h
  have hlt : c.xofMaxBytes ≤ 2 ^ 64 - 1 ↔ c.xofMaxBytes < 2 ^ 64 := by omega
  tauto

theorem Config.kshakeExtraOk_iff (c : Config) :
    c.kshakeExtraOk = true ↔
      (∀ e ∈ c.kshakeExtra, 0x12 ≤ e.vid ∧ e.vid ≤ 0x1F ∧ rateOk e.rate = true ∧ suffixOk e.suffix = true) ∧
        (c.kshakeExtra.map ExtraVariant.vid).Nodup := by
  simp [Config.kshakeExtraOk, and_assoc]

theorem Config.kshakeS1_legal {c : Config} (h : c.wf = true) : c.kshakeS1.Legal := by
  obtain ⟨-, -, -, -, -, hd, -⟩ := Config.params_of_wf h
  exact Config.tuple_legal (by decide) hd rfl (Nat.zero_le _) (by simp)

theorem Config.kshakeS2_legal {c : Config} (h : c.wf = true) : c.kshakeS2.Legal := by
  obtain ⟨-, -, hr, -, -, -, hd, -⟩ := Config.params_of_wf h
  exact Config.tuple_legal hr hd rfl (Nat.zero_le _) (by simp)

/-- KSHAKE_EXTRA gives an id of its range the tuple of the one entry with that id (R5, R171). -/
theorem Config.extra_eq_some_iff {c : Config} (h : c.wf = true) {vid : Nat} (hlo : 0x12 ≤ vid) (hhi : vid ≤ 0x1F)
    (p : Params) :
    c.extra vid = some p ↔ ∃ e ∈ c.kshakeExtra, e.vid = vid ∧ p = Config.tuple e.rate e.suffix 0 .kshake := by
  obtain ⟨-, -, -, -, -, -, -, hextra, -⟩ := Config.params_of_wf h
  obtain ⟨-, hnodup⟩ := (Config.kshakeExtraOk_iff c).1 hextra
  rw [Config.extra, if_pos ⟨hlo, hhi⟩, Option.map_eq_some_iff]
  constructor
  · rintro ⟨e, he, rfl⟩
    exact ⟨e, List.mem_of_find?_eq_some he, by simpa using List.find?_some he, rfl⟩
  · rintro ⟨e, hmem, hvid, rfl⟩
    refine ⟨e, ?_, rfl⟩
    obtain ⟨e', he'⟩ : ∃ e', c.kshakeExtra.find? (fun e => e.vid == vid) = some e' := by
      rw [← Option.isSome_iff_exists, List.find?_isSome]
      exact ⟨e, hmem, by simp [hvid]⟩
    have hvid' : e'.vid = vid := by simpa using List.find?_some he'
    rw [he', List.inj_on_of_nodup_map hnodup (List.mem_of_find?_eq_some he') hmem (hvid'.trans hvid.symm)]

/-- The ids without a row of their own are those of KSHAKE_EXTRA (R100, R171). -/
theorem Config.variant_of_unnamed {c : Config} {vid : Nat}
    (h : vid ∉ [0x01, 0x02, 0x03, 0x04, 0x08, 0x09, 0x10, 0x11]) : c.variant vid = c.extra vid := by
  unfold Config.variant
  split
  case h_9 => rfl
  all_goals simp at h

/-- The ids of the variant table: a row of their own, or KSHAKE_EXTRA's. -/
theorem Config.extra_eq_none {c : Config} {vid : Nat} (h : ¬(0x12 ≤ vid ∧ vid ≤ 0x1F)) : c.extra vid = none := by
  rw [Config.extra, if_neg h]

theorem Config.variant_legal {c : Config} (h : c.wf = true) {vid : Nat} {p : Params} (hp : c.variant vid = some p) :
    p.Legal := by
  obtain ⟨⟨h224, hle224⟩, ⟨h256, hle256⟩, ⟨h384, hle384⟩, h512, hle512⟩ := Config.fxRates_of_wf h
  obtain ⟨ha, hb, -, hfix, hxof, -, -, hextra, -⟩ := Config.params_of_wf h
  unfold Config.variant at hp
  split at hp
  case h_1 => cases hp; exact Config.tuple_legal h224 hfix rfl hle224 (by simp)
  case h_2 => cases hp; exact Config.tuple_legal h256 hfix rfl hle256 (by simp)
  case h_3 => cases hp; exact Config.tuple_legal h384 hfix rfl hle384 (by simp)
  case h_4 => cases hp; exact Config.tuple_legal h512 hfix rfl hle512 (by simp)
  case h_5 => cases hp; exact Config.tuple_legal ha hxof rfl (Nat.zero_le _) (by simp)
  case h_6 => cases hp; exact Config.tuple_legal hb hxof rfl (Nat.zero_le _) (by simp)
  case h_7 => cases hp; exact Config.kshakeS1_legal h
  case h_8 => cases hp; exact Config.kshakeS2_legal h
  case h_9 =>
    by_cases hid : 0x12 ≤ vid ∧ vid ≤ 0x1F
    · obtain ⟨e, hmem, -, rfl⟩ := (Config.extra_eq_some_iff h hid.1 hid.2 p).1 hp
      obtain ⟨-, -, hr, hd⟩ := ((Config.kshakeExtraOk_iff c).1 hextra).1 e hmem
      exact Config.tuple_legal hr hd rfl (Nat.zero_le _) (by simp)
    · rw [Config.extra_eq_none hid] at hp
      cases hp

/-- Settles O31: the table row by row, KSHAKE_EXTRA's ids, no other id, and every tuple legal. -/
theorem variantsAreLegalTuples : Obligations.VariantsAreLegalTuples := by
  intro c h
  refine ⟨rfl, rfl, rfl, rfl, rfl, rfl, rfl, rfl, fun vid hlo hhi p => ?_, fun vid hnamed hid => ?_,
    fun vid p hp => Config.variant_legal h hp⟩
  · have hnamed : vid ∉ [0x01, 0x02, 0x03, 0x04, 0x08, 0x09, 0x10, 0x11] := by
      simp
      omega
    rw [Config.variant_of_unnamed hnamed]
    exact Config.extra_eq_some_iff h hlo hhi p
  · rw [Config.variant_of_unnamed hnamed, Config.extra_eq_none hid]

/-! ### Custom parameter sets (R96, R121 check 3) -/

/-- `D >> L` is 0 exactly when no bit of D at or above L is set. -/
theorem field_shiftRight_eq_zero_iff (a : Word64) (l : Nat) :
    field a 31 0 / 2 ^ l = 0 ↔ ∀ k, l ≤ k → k < 32 → a.getLsbD k = false := by
  have hbit : ∀ k, (field a 31 0).testBit k = (decide (k < 32) && a.getLsbD k) := fun k => by
    rw [field, pow_zero, Nat.div_one, Nat.testBit_mod_two_pow]
    rfl
  rw [Nat.div_eq_zero_iff_lt (by positivity)]
  constructor
  · intro hlt k hl hk
    have := Nat.testBit_lt_two_pow (lt_of_lt_of_le hlt (Nat.pow_le_pow_right (by decide) hl))
    simpa [hbit, hk] using this
  · intro hall
    refine Nat.lt_pow_two_of_testBit _ fun k hl => ?_
    rw [hbit]
    by_cases hk : k < 32
    · simp [hall k hl hk]
    · simp [hk]

theorem customOk_iff (a0 a1 : Word64) :
    customOk a0 a1 = true ↔
      field a0 63 48 = 0 ∧ field a1 63 40 = 0 ∧ field a0 15 0 + field a0 31 16 = 1600 ∧ 0 < field a0 15 0 ∧
        field a0 15 0 < 1600 ∧ field a0 15 0 % 64 = 0 ∧ field a1 39 32 ≤ 32 ∧
        (∀ k, field a1 39 32 ≤ k → k < 32 → a1.getLsbD k = false) ∧ field a0 47 32 % 8 = 0 ∧
        field a0 47 32 ≤ field a0 15 0 := by
  simp only [customOk, Bool.and_eq_true, decide_eq_true_iff, rateOk_iff, field_shiftRight_eq_zero_iff, and_assoc]
  rfl

theorem customTuple_legal {a0 a1 : Word64} (h : customOk a0 a1 = true) : (customTuple a0 a1).Legal := by
  obtain ⟨-, -, hsum, hpos, hlt, hgran, hl, -, hn, hle⟩ := (customOk_iff a0 a1).1 h
  refine ⟨hpos, hlt, hgran, hsum, ?_, hn, hle, ?_⟩
  · rw [customTuple, List.length_map, List.length_range]
    exact hl
  · simp only [customTuple]
    split_ifs with hn0 <;> simp [hn0]

theorem Machine.State.initParams_custom (s : State) :
    s.initParams 0xFF = if customOk s.arg0 s.arg1 then some (customTuple s.arg0 s.arg1) else none := rfl

theorem Machine.State.initParams_named (s : State) {vid : Nat} (h : vid ≠ 0xFF) :
    s.initParams vid = s.config.variant vid := by
  rw [State.initParams, if_neg h]

/-- INIT binds legal parameter sets only (R121). -/
theorem Machine.State.initParams_legal {s : State} (hc : s.config.wf = true) {vid : Nat} {p : Params}
    (h : s.initParams vid = some p) : p.Legal := by
  by_cases hvid : vid = 0xFF
  · subst hvid
    rw [State.initParams_custom] at h
    split_ifs at h with hok
    cases h
    exact customTuple_legal hok
  · rw [State.initParams_named s hvid] at h
    exact Config.variant_legal hc h

/-! ### INIT and DISCARD -/

theorem Machine.exec_init_of_some {s : State} {vid iid : Nat} {p : Params} (hk : iid < s.inst.length)
    (hp : s.initParams vid = some p) :
    exec (.init vid iid) s = .next ((s.setInst iid (Instance.fresh p)).complete 0) := by
  simp [exec, execInit, hk, hp]

theorem Machine.exec_init_of_none {s : State} {vid iid : Nat} (hk : iid < s.inst.length)
    (hp : s.initParams vid = none) : exec (.init vid iid) s = .next (s.raise .eParam) := by
  simp [exec, execInit, hk, hp]

/-- Settles O29: the parameter set of a named variant is its tuple. -/
theorem initBindsNamedVariant : Obligations.InitBindsNamedVariant := by
  intro s vid iid p hk hvid hp
  exact exec_init_of_some hk ((s.initParams_named hvid).trans hp)

/-- Settles O30: the conditions are those of the check, so the set is bound exactly when they hold. -/
theorem initBindsLegalCustomSet : Obligations.InitBindsLegalCustomSet := by
  intro s iid hk
  refine ⟨fun hlegal => ?_, fun hillegal => ?_⟩
  · refine ⟨(customTuple s.arg0 s.arg1).d, by simp [customTuple], fun k hk => by simp [customTuple, hk], ?_⟩
    refine exec_init_of_some hk ?_
    rw [State.initParams_custom, if_pos ((customOk_iff _ _).2 hlegal)]
    rfl
  · refine exec_init_of_none hk ?_
    rw [State.initParams_custom, if_neg fun hok => hillegal ((customOk_iff _ _).1 hok)]

/-- Settles O32: in phase NONE the slot stays, in every other phase it is freed. -/
theorem discardReleasesInstance : Obligations.DiscardReleasesInstance := by
  intro s iid u hu
  by_cases hph : u.ph = .none
  · refine ⟨u, s.draws, hph, fun _ => rfl, ?_⟩
    obtain ⟨hlt, rfl⟩ := List.getElem?_eq_some_iff.1 hu
    rw [List.set_getElem_self hlt]
    simp [exec, execDiscard, hu, hph, State.complete]
  · refine ⟨freeSlot s.draws iid, s.draws + 1, rfl, fun h => absurd h hph, ?_⟩
    simp [exec, execDiscard, hu, hph, State.complete, State.draw, State.setInst]

end Sys2Proof
end

section
/-! What a command can do, said once for all nine: it raises an error, or it has one `Effect`. The frames of
spec/10_state.md R23, R29, R30, R35 and spec/20_memory.md R63, R66 are read off it. -/

namespace Sys2Proof.Machine

open Host (Outcome)

/-! ### Instances -/

/-- What a successful command does to the slot it names: `u` before, `w` after (R29). -/
def InstanceEffect (i : Instr) (s : State) (u w : Instance) : Prop :=
  match i with
  | .init vid _ => ∃ p, s.initParams vid = some p ∧ w = Instance.fresh p
  | .absorb _ => u.ph = .absorb ∧ ∃ bits, w = u.queueBits bits
  | .finalize _ _ => u.ph = .absorb ∧ w = u.finalized
  | .squeeze _ _ => u.ph = .squeeze ∧ ∃ m, w = (Instance.squeezeBytes m u).1
  | .discard _ => w.ph = .none
  | .hashFixed _ _ => False
  | .hashXof _ _ => False
  | .kryptohash => False
  | .reorder => False

/-- The instances after a successful command: all as before, or one replaced. -/
def InstEffect (i : Instr) (s t : State) : Prop :=
  t.inst = s.inst ∨
    ∃ k u w, iidOf i = some k ∧ s.inst[k]? = some u ∧ t.inst = s.inst.set k w ∧ InstanceEffect i s u w

@[simp] theorem Instance.finalized_prm (t : Instance) : t.finalized.prm = t.prm := by
  unfold Instance.finalized
  dsimp only
  split_ifs <;> simp

theorem Instance.finalized_ph (t : Instance) : t.finalized.ph = if 0 < t.prm.n then .done else .squeeze := by
  unfold Instance.finalized
  dsimp only
  split_ifs <;> rfl

@[simp] theorem Instance.finalized_s (t : Instance) : t.finalized.s = t.pad.s := by
  unfold Instance.finalized
  dsimp only
  split_ifs <;> rfl

@[simp] theorem Instance.finalized_q (t : Instance) : t.finalized.q = t.pad.q := by
  unfold Instance.finalized
  dsimp only
  split_ifs <;> rfl

@[simp] theorem Instance.finalized_qb (t : Instance) : t.finalized.qb = t.pad.qb := by
  unfold Instance.finalized
  dsimp only
  split_ifs <;> rfl

@[simp] theorem Instance.finalized_perms (t : Instance) : t.finalized.perms = t.pad.perms := by
  unfold Instance.finalized
  dsimp only
  split_ifs <;> rfl

theorem Instance.finalized_av (t : Instance) : t.finalized.av = t.prm.r / 8 - t.prm.n / 8 := by
  unfold Instance.finalized
  dsimp only
  split_ifs with h
  · rfl
  · rw [Nat.eq_zero_of_not_pos h]
    rfl

/-! ### The effect of a command -/

/-- What a command that completes with OK has done: the fields it can write, the count in RESULT, the bytes stored at its
destination, the slot it names, and SPM. -/
structure Effect (i : Instr) (s t : State) : Prop where
  frame : t = { s with
    inst := t.inst, spm := t.spm, mem := t.mem, draws := t.draws, perms := t.perms
    code := .ok, result := BitVec.ofNat 64 (successCount i s) }
  inst : InstEffect i s t
  stored : ∃ bs, t.mem = Memory.writeBytes s.mem (destination i s) bs ∧ bs.length = successCount i s ∧
    s.config.admits (destination i s) bs.length = true
  spm : t.spm = s.spm ∨ i = .kryptohash ∧ ∃ d, t.spm = freeScratch d

section
variable {i : Instr} {s : State}

/-- The null outputs, and DISCARD of a slot in phase NONE. -/
theorem effect_complete (h : successCount i s = 0) : Effect i s (s.complete 0) where
  frame := by rw [h]; rfl
  inst := .inl rfl
  stored := ⟨[], rfl, h.symm, by simp⟩
  spm := .inl rfl

/-- A command that changes the slot it names and stores nothing. -/
theorem effect_setInst {k : Nat} {u w : Instance} (n : Nat) (hk : iidOf i = some k) (hu : s.inst[k]? = some u)
    (hw : InstanceEffect i s u w) (h : successCount i s = 0) :
    Effect i s (((s.setInst k w).addPerms n).complete 0) where
  frame := by rw [h]; rfl
  inst := .inr ⟨k, u, w, hk, hu, rfl, hw⟩
  stored := ⟨[], rfl, h.symm, by simp⟩
  spm := .inl rfl

/-- A command that changes the slot it names and stores bytes. -/
theorem effect_setInst_store {k : Nat} {u w : Instance} {bs : List Byte} {m : Nat} (n : Nat) (hk : iidOf i = some k)
    (hu : s.inst[k]? = some u) (hw : InstanceEffect i s u w) (hm : bs.length = m) (h : successCount i s = m)
    (ha : s.config.admits (destination i s) m = true) :
    Effect i s ((((s.setInst k w).addPerms n).store (destination i s) bs).complete m) where
  frame := by rw [h]; rfl
  inst := .inr ⟨k, u, w, hk, hu, rfl, hw⟩
  stored := ⟨bs, rfl, hm.trans h.symm, hm ▸ ha⟩
  spm := .inl rfl

/-- A one-shot command. -/
theorem effect_store {bs : List Byte} {m : Nat} (n : Nat) (hm : bs.length = m) (h : successCount i s = m)
    (ha : s.config.admits (destination i s) m = true) :
    Effect i s (((s.addPerms n).store (destination i s) bs).complete m) where
  frame := by rw [h]; rfl
  inst := .inl rfl
  stored := ⟨bs, rfl, hm.trans h.symm, hm ▸ ha⟩
  spm := .inl rfl

end

/-- KRYPTOHASH, which also forgets SPM. -/
theorem effect_kryptohash {s : State} {bs : List Byte} {m : Nat} (n : Nat) (hm : bs.length = m)
    (h : successCount .kryptohash s = m) (ha : s.config.admits (destination .kryptohash s) m = true) :
    Effect .kryptohash s (((s.forgetSpm.addPerms n).store (destination .kryptohash s) bs).complete m) where
  frame := by rw [h]; rfl
  inst := .inl rfl
  stored := ⟨bs, rfl, hm.trans h.symm, hm ▸ ha⟩
  spm := .inr ⟨rfl, _, rfl⟩

/-- The command reports an error and does nothing else, or it has its effect. -/
def Acts (o : Outcome State Fault Refusal) (i : Instr) (s : State) : Prop :=
  ∃ t, o = .next t ∧ ((∃ e, e ≠ .ok ∧ t = s.raise e) ∨ Effect i s t)

theorem acts_of_fails {o : Outcome State Fault Refusal} {i : Instr} {s : State} (h : Fails o s) : Acts o i s := by
  obtain ⟨e, he, ho⟩ := h
  exact ⟨_, ho, .inl ⟨e, he, rfl⟩⟩

theorem acts_of_effect {o : Outcome State Fault Refusal} {i : Instr} {s t : State} (ho : o = .next t)
    (h : Effect i s t) : Acts o i s :=
  ⟨t, ho, .inr h⟩

theorem execInit_acts (vid iid : Nat) (s : State) : Acts (execInit vid iid s) (.init vid iid) s := by
  obtain h | ⟨t, p, ht, hp, h⟩ := execInit_cases vid iid s
  · exact acts_of_fails h
  · exact acts_of_effect h (effect_setInst 0 rfl ht ⟨p, hp, rfl⟩ rfl)

theorem execAbsorb_acts (iid : Nat) (s : State) : Acts (execAbsorb iid s) (.absorb iid) s := by
  obtain h | ⟨t, ht, hph, -, -, h⟩ := execAbsorb_cases iid s
  · exact acts_of_fails h
  · exact acts_of_effect h (effect_setInst _ rfl ht ⟨hph, _, rfl⟩ rfl)

theorem execFinalize_acts (iid : Nat) (fOut : Bool) (s : State) :
    Acts (execFinalize iid fOut s) (.finalize iid fOut) s := by
  obtain h | ⟨t, ht, hph, ⟨-, hf, ha, h⟩ | ⟨hnull, h⟩⟩ := execFinalize_cases iid fOut s
  · exact acts_of_fails h
  · exact acts_of_effect h
      (effect_setInst_store _ rfl ht ⟨hph, rfl⟩ (length_firstBytes _ _) (by simp [successCount, ht, hf]) ha)
  · refine acts_of_effect h (effect_setInst _ rfl ht ⟨hph, rfl⟩ ?_)
    cases fOut with
    | false => rfl
    | true =>
      have hn : t.prm.n = 0 := by simpa using hnull
      simp [successCount, ht, hn]

theorem execSqueeze_acts (iid : Nat) (fOut : Bool) (s : State) :
    Acts (execSqueeze iid fOut s) (.squeeze iid fOut) s := by
  obtain h | ⟨t, ht, hph, -, ⟨hnull, h⟩ | ⟨hf, -, ha, h⟩⟩ := execSqueeze_cases iid fOut s
  · exact acts_of_fails h
  · refine acts_of_effect h (effect_complete ?_)
    obtain hf | hlen := hnull
    · simp [successCount, hf]
    · rw [State.length_eq] at hlen
      simp [successCount, hlen]
  · exact acts_of_effect h (effect_setInst_store _ rfl ht ⟨hph, _, rfl⟩ (Instance.length_squeezeBytes _ _)
      (by simp [successCount, hf, Config.clamp]) ha)

theorem execDiscard_acts (iid : Nat) (s : State) : Acts (execDiscard iid s) (.discard iid) s := by
  obtain h | ⟨t, ht, ⟨-, h⟩ | ⟨-, h⟩⟩ := execDiscard_cases iid s
  · exact acts_of_fails h
  · exact acts_of_effect h (effect_complete rfl)
  · exact acts_of_effect h
      { frame := rfl
        inst := .inr ⟨iid, t, _, rfl, ht, rfl, rfl⟩
        stored := ⟨[], rfl, rfl, by simp⟩
        spm := .inl rfl }

theorem execHashFixed_acts (vid : Nat) (fOut : Bool) (s : State) :
    Acts (execHashFixed vid fOut s) (.hashFixed vid fOut) s := by
  obtain h | ⟨p, hp, ⟨hf, h⟩ | ⟨hf, -, ha, h⟩⟩ := execHashFixed_cases vid fOut s
  · exact acts_of_fails h
  · exact acts_of_effect h (effect_complete (by simp [successCount, hf]))
  · exact acts_of_effect h
      (effect_store _ (length_fixedFn _ _ _) (by simp [successCount, hf, variant_of_fixedVariant hp]) ha)

theorem execHashXof_acts (vid : Nat) (fOut : Bool) (s : State) :
    Acts (execHashXof vid fOut s) (.hashXof vid fOut) s := by
  obtain h | ⟨p, -, ⟨hnull, h⟩ | ⟨hf, -, -, ha, h⟩⟩ := execHashXof_cases vid fOut s
  · exact acts_of_fails h
  · refine acts_of_effect h (effect_complete ?_)
    obtain hf | hlen := hnull
    · simp [successCount, hf]
    · rw [State.outBytes_eq] at hlen
      simp [successCount, hlen]
  · exact acts_of_effect h
      (effect_store _ (length_xofFn _ _ _ _) (by simp [successCount, hf, Config.clamp]) ha)

theorem execKryptohash_acts (s : State) : Acts (execKryptohash s) .kryptohash s := by
  obtain h | ⟨-, -, ha, h⟩ := execKryptohash_cases s
  · exact acts_of_fails h
  · exact acts_of_effect h (effect_kryptohash _ (length_xofFn _ _ _ _) rfl ha)

theorem execReorder_acts (s : State) : Acts (execReorder s) .reorder s := by
  obtain h | ⟨-, -, ha, h⟩ := execReorder_cases s
  · exact acts_of_fails h
  · exact acts_of_effect h (effect_store 0 (length_reorderBytes _ _ _) rfl ha)

theorem exec_acts (i : Instr) (s : State) : Acts (exec i s) i s := by
  cases i with
  | init vid iid => exact execInit_acts vid iid s
  | absorb iid => exact execAbsorb_acts iid s
  | finalize iid fOut => exact execFinalize_acts iid fOut s
  | squeeze iid fOut => exact execSqueeze_acts iid fOut s
  | discard iid => exact execDiscard_acts iid s
  | hashFixed vid fOut => exact execHashFixed_acts vid fOut s
  | hashXof vid fOut => exact execHashXof_acts vid fOut s
  | kryptohash => exact execKryptohash_acts s
  | reorder => exact execReorder_acts s

theorem raises_or_effect {i : Instr} {s t : State} (h : exec i s = .next t) :
    (∃ e, e ≠ .ok ∧ t = s.raise e) ∨ Effect i s t := by
  obtain ⟨u, hu, hcases⟩ := exec_acts i s
  cases h.symm.trans hu
  exact hcases

theorem exec_eq_next (i : Instr) (s : State) : ∃ t, exec i s = .next t := by
  obtain ⟨t, ht, -⟩ := exec_acts i s
  exact ⟨t, ht⟩

/-! ### Frames -/

section
variable {i : Instr} {s t : State}

/-- The instances after any command, failing or not. -/
theorem exec_inst (h : exec i s = .next t) : InstEffect i s t := by
  obtain ⟨e, -, rfl⟩ | heff := raises_or_effect h
  · exact .inl rfl
  · exact heff.inst

/-- The bytes a command stores, the failing ones none: at its destination, admitted, and as many as RESULT counts. -/
theorem exec_stored (h : exec i s = .next t) :
    ∃ bs, t.mem = Memory.writeBytes s.mem (destination i s) bs ∧ t.result = BitVec.ofNat 64 bs.length ∧
      (bs = [] ∨ bs.length = successCount i s) ∧ s.config.admits (destination i s) bs.length = true := by
  obtain ⟨e, -, rfl⟩ | heff := raises_or_effect h
  · exact ⟨[], rfl, rfl, .inl rfl, by simp⟩
  · obtain ⟨bs, hmem, hlen, ha⟩ := heff.stored
    have hresult := congrArg State.result heff.frame
    exact ⟨bs, hmem, hlen ▸ hresult, .inr hlen, ha⟩

theorem exec_spm (h : exec i s = .next t) : t.spm = s.spm ∨ i = .kryptohash ∧ ∃ d, t.spm = freeScratch d := by
  obtain ⟨e, -, rfl⟩ | heff := raises_or_effect h
  · exact .inl rfl
  · exact heff.spm

theorem exec_config (h : exec i s = .next t) : t.config = s.config := by
  obtain ⟨e, -, rfl⟩ | heff := raises_or_effect h
  · rfl
  · rw [heff.frame]

/-- No command clears FAULT (R33). -/
theorem exec_fault (h : exec i s = .next t) (hf : s.fault = true) : t.fault = true := by
  obtain ⟨e, -, rfl⟩ | heff := raises_or_effect h
  · rfl
  · rw [heff.frame]
    exact hf

/-- A command whose count is 0 stores nothing. -/
theorem exec_mem_of_count_zero (h : exec i s = .next t) (h0 : successCount i s = 0) : t.mem = s.mem := by
  obtain ⟨bs, hmem, -, hlen, -⟩ := exec_stored h
  have hbs : bs = [] := hlen.elim id fun hlen => List.length_eq_zero_iff.1 (hlen.trans h0)
  rw [hmem, hbs, Memory.writeBytes]

/-- A command that names no slot changes none. -/
theorem exec_inst_of_none (h : exec i s = .next t) (hk : iidOf i = none) : t.inst = s.inst := by
  obtain hinst | ⟨k, u, w, hk', -⟩ := exec_inst h
  · exact hinst
  · cases hk.symm.trans hk'

theorem InstEffect.length_eq (h : InstEffect i s t) : t.inst.length = s.inst.length := by
  obtain h | ⟨k, u, w, -, -, h, -⟩ := h
  · rw [h]
  · rw [h, List.length_set]

/-- A slot after a command: as before, or the one the command names, changed by its effect. -/
theorem InstEffect.slot (h : InstEffect i s t) {k : Nat} {u w : Instance} (hu : s.inst[k]? = some u)
    (hw : t.inst[k]? = some w) : w = u ∨ iidOf i = some k ∧ InstanceEffect i s u w := by
  obtain h | ⟨k', u', w', hk', hu', h, heff⟩ := h
  · rw [h, hu] at hw
    exact .inl (Option.some.inj hw).symm
  · by_cases hk : k' = k
    · subst hk
      cases hu.symm.trans hu'
      obtain ⟨hlt, -⟩ := List.getElem?_eq_some_iff.1 hu
      rw [h, List.getElem?_set_self hlt] at hw
      cases hw
      exact .inr ⟨hk', heff⟩
    · rw [h, List.getElem?_set_ne hk, hu] at hw
      exact .inl (Option.some.inj hw).symm

end

theorem Instance.eq_of_fields {u w : Instance} (hph : u.ph = w.ph) (hs : u.s = w.s) (hq : u.q = w.q)
    (hqb : u.qb = w.qb) (hav : u.av = w.av) (hprm : u.prm = w.prm) (hperms : u.perms = w.perms) : u = w := by
  cases u
  cases w
  congr

end Sys2Proof.Machine

namespace Sys2Proof

open Machine

/-- Settles O19: an error completes too. -/
theorem everyCommandCompletes : Obligations.EveryCommandCompletes := exec_eq_next

/-- Settles O23: neither an error nor an effect lists these fields. -/
theorem commandsLeaveHostRegisters : Obligations.CommandsLeaveHostRegisters := by
  intro i s t h
  obtain ⟨e, -, rfl⟩ | heff := raises_or_effect h
  · simp
  · rw [heff.frame]
    simp

/-- Settles O24: these forms count 0 bytes, so they store the empty string. -/
theorem nonStoringFormsLeaveMemory : Obligations.NonStoringFormsLeaveMemory := by
  intro i s t h hform
  have hcount : successCount i s = 0 := by
    cases i with
    | init | absorb | discard => rfl
    | kryptohash | reorder => exact hform.elim
    | finalize _ fOut | squeeze _ fOut | hashFixed _ fOut | hashXof _ fOut =>
      obtain rfl : fOut = false := hform
      rfl
  have hkh : i ≠ .kryptohash := by
    rintro rfl
    exact hform
  exact ⟨exec_mem_of_count_zero h hcount, (exec_spm h).resolve_right fun hspm => hkh hspm.1⟩

/-- Settles O25: the stored string is empty or fills the form's range. -/
theorem storingFormsWriteOnlyDestination : Obligations.StoringFormsWriteOnlyDestination := by
  intro i s t lo n h hrange
  obtain ⟨hdest, hcount⟩ : destination i s = lo ∧ (successCount i s = 0 ∨ successCount i s = n) := by
    cases i with
    | init => exact hrange.elim
    | absorb => exact hrange.elim
    | discard => exact hrange.elim
    | kryptohash => exact ⟨hrange.1.symm, .inr hrange.2.symm⟩
    | reorder => exact ⟨hrange.1.symm, .inr hrange.2.symm⟩
    | _ _ fOut =>
      obtain ⟨rfl, rfl⟩ := hrange
      refine ⟨rfl, ?_⟩
      cases fOut
      · exact .inl rfl
      · exact .inr rfl
  obtain ⟨bs, hmem, -, hlen, ha⟩ := exec_stored h
  have hbs : bs = [] ∨ bs.length = n := by
    rw [← List.length_eq_zero_iff] at hlen ⊢
    omega
  rw [hdest] at hmem ha
  refine ⟨fun a hout => ?_, ?_, fun hkh => (exec_spm h).resolve_right fun hspm => hkh hspm.1⟩
  · obtain rfl | hlen := hbs
    · rw [hmem, Memory.writeBytes]
    · rw [hmem, Memory.read_writeBytes_outside _ _ _ _ (hlen ▸ hout)]
  · obtain rfl | hlen := hbs
    · exact .inl fun a => by rw [hmem, Memory.writeBytes]
    · exact .inr (hlen ▸ ha)

/-- Settles O26: the effects on a slot are the rows of R29. -/
theorem instanceFieldsWrittenAsListed : Obligations.InstanceFieldsWrittenAsListed := by
  intro i s t h
  have heff := exec_inst h
  refine ⟨heff.length_eq, fun k hk => ?_, fun k u w hk hu hw => ?_⟩
  · obtain heff | ⟨k', _, _, hk', -, heff, -⟩ := heff
    · rw [heff]
    · rw [heff, List.getElem?_set_ne]
      rintro rfl
      exact hk hk'
  · obtain rfl | ⟨-, hone⟩ := heff.slot hu hw
    · cases i <;> trivial
    · cases i with
      | absorb iid =>
        obtain ⟨-, bits, rfl⟩ := hone
        exact Instance.eq_of_fields (u.queueBits_ph bits) rfl rfl rfl (u.queueBits_av bits) (u.queueBits_prm bits) rfl
      | finalize iid fOut =>
        obtain ⟨-, rfl⟩ := hone
        exact Instance.eq_of_fields rfl rfl rfl rfl rfl u.finalized_prm rfl
      | squeeze iid fOut =>
        obtain ⟨-, m, rfl⟩ := hone
        obtain ⟨hph, hprm, hq, hqb, -⟩ := Instance.squeezeBytes_frame m u
        exact Instance.eq_of_fields hph rfl hq hqb rfl hprm rfl
      | _ => trivial

/-- Settles O27: the effects on the phase of the slot a command names. -/
theorem phasesMoveForward : Obligations.PhasesMoveForward := by
  intro i s t k u w h hu hw hph
  obtain rfl | ⟨hk, hone⟩ := (exec_inst h).slot hu hw
  · exact absurd rfl hph
  · cases i with
    | init vid iid =>
      obtain ⟨p, -, rfl⟩ := hone
      cases hk
      exact .inl ⟨vid, rfl, rfl⟩
    | discard iid =>
      cases hk
      exact .inr (.inl ⟨rfl, hone⟩)
    | finalize iid fOut =>
      obtain ⟨habs, rfl⟩ := hone
      cases hk
      exact .inr (.inr ⟨fOut, rfl, habs, u.finalized_ph⟩)
    | absorb iid =>
      obtain ⟨-, bits, rfl⟩ := hone
      exact absurd (u.queueBits_ph bits) hph
    | squeeze iid fOut =>
      obtain ⟨-, m, rfl⟩ := hone
      exact absurd (Instance.squeezeBytes_frame m u).1 hph
    | hashFixed => exact hone.elim
    | hashXof => exact hone.elim
    | kryptohash => exact hone.elim
    | reorder => exact hone.elim

end Sys2Proof
end

section
/-! Steps that are no plain command (spec/70_reset_and_hazards.md R270; spec/20_memory.md R73): reset, a command abandoned by
reset, a command with contended bytes; the sticky FAULT (spec/10_state.md R33). -/

namespace Sys2Proof.Machine

section
variable {s t : State}

/-- A step that answers a next state held it, or performed the host's next operation. -/
theorem step_cases (h : step s = .next t) :
    t = s ∨ ∃ op, s.program[s.pc]? = some op ∧ perform op s.advance = .next t := by
  cases hc : s.configured with
  | false =>
    rw [step_refuses s hc] at h
    cases h
  | true =>
    cases hop : s.nextOp with
    | none =>
      rw [step_idle s hc hop] at h
      cases h
      exact .inl rfl
    | some op =>
      rw [step_performs s op hc hop] at h
      exact .inr ⟨op, hop, h⟩

theorem resetBlock_ph (u : Instance) (hu : u ∈ s.resetBlock.inst) : u.ph = .none := by
  rw [State.resetBlock_inst, List.mem_map] at hu
  obtain ⟨k, -, rfl⟩ := hu
  rfl

theorem resetBlock_inst_length (s : State) : s.resetBlock.inst.length = s.inst.length := by simp

@[simp] theorem length_freeBytes (d n : Nat) : (freeBytes d n).length = n := by simp [freeBytes]

/-- A command abandoned by reset: with an illegal encoding a reset, else free bytes in the range the command would have
written, and a reset (R270; log 9). -/
theorem abandon_cases {v : Word64} (h : abandon v s = .next t) :
    (∃ e, decode v = .error e ∧ t = s.resetBlock) ∨
    ∃ i u, decode v = .ok i ∧ exec i s = .next u ∧
      t = (s.store (destination i s) (freeBytes s.draws u.result.toNat)).draw.resetBlock := by
  unfold abandon at h
  cases hv : decode v with
  | error e =>
    rw [hv] at h
    cases h
    exact .inl ⟨e, rfl, rfl⟩
  | ok i =>
    obtain ⟨u, hu⟩ := exec_eq_next i s
    rw [hv] at h
    simp only [hu] at h
    cases h
    exact .inr ⟨i, u, rfl, hu, rfl⟩

/-- The state an engine works on while another agent writes `writes`: their bytes read as free values (R73; log 10). -/
def State.contended (s : State) (writes : List (Word64 × Byte)) : State :=
  { s with mem := scribble s.draws 0 writes s.mem, draws := s.draws + 1 }

/-- A command with contended bytes: with an illegal encoding only STATUS, RESULT and the agent's bytes change, else the
command runs on the contended state and the contended bytes are settled (R73; log 10). -/
theorem contend_cases {v : Word64} {writes : List (Word64 × Byte)} (h : contend v writes s = .next t) :
    (∃ e, decode v = .error e ∧
      t = { (s.contended writes).raise .eOpcode with mem := settleWrites s.mem 0 0 s.draws 0 writes s.mem }) ∨
    ∃ i u, decode v = .ok i ∧ exec i (s.contended writes) = .next u ∧
      t = { u with mem := settleWrites u.mem (destination i s) u.result.toNat s.draws 0 writes u.mem } := by
  unfold contend at h
  cases hv : decode v with
  | error e =>
    rw [hv] at h
    cases h
    exact .inl ⟨e, rfl, rfl⟩
  | ok i =>
    obtain ⟨u, hu⟩ := exec_eq_next i (s.contended writes)
    rw [hv] at h
    simp only [State.contended] at hu h
    rw [hu] at h
    cases h
    exact .inr ⟨i, u, rfl, hu, rfl⟩

/-! ### FAULT (R33) -/

theorem runCommand_fault {v : Word64} (h : runCommand v s = .next t) (hf : s.fault = true) : t.fault = true := by
  cases hv : decode v with
  | error e =>
    rw [runCommand_of_error hv] at h
    cases h
    rfl
  | ok i =>
    rw [runCommand_of_ok hv] at h
    exact exec_fault h hf

theorem writeReg_fault {r : Reg} {v : Word64} (h : writeReg r v s = .next t) (hf : s.fault = true) : t.fault = true := by
  cases r with
  | cmd => exact runCommand_fault h hf
  | _ =>
    cases h
    exact hf

theorem contend_fault {v : Word64} {writes : List (Word64 × Byte)} (h : contend v writes s = .next t)
    (hf : s.fault = true) : t.fault = true := by
  obtain ⟨e, -, rfl⟩ | ⟨i, u, -, hu, rfl⟩ := contend_cases h
  · rfl
  · have hfault : u.fault = true := exec_fault hu hf
    exact hfault

theorem busWrite_cases {offset : Nat} {lanes : List Byte} (h : busWrite offset lanes s = .next t) :
    ∃ r v, writeReg r v s = .next t := by
  unfold busWrite at h
  split at h
  · cases h
  · exact ⟨_, _, h⟩

theorem busRead_cases {offset size : Nat} (h : busRead offset size s = .next t) : ∃ v, t = s.returnRead v := by
  unfold busRead at h
  split at h
  · cases h
  · cases h
    exact ⟨_, rfl⟩

theorem perform_fault {op : HostOp} (h : perform op s = .next t) (hf : s.fault = true) :
    op = .reset ∨ (∃ v, op = .cmdThenReset v) ∨ t.fault = true := by
  cases op with
  | reset => exact .inl rfl
  | cmdThenReset v => exact .inr (.inl ⟨v, rfl⟩)
  | wr r v => exact .inr (.inr (writeReg_fault h hf))
  | busWrite offset lanes =>
    obtain ⟨r, v, h⟩ := busWrite_cases h
    exact .inr (.inr (writeReg_fault h hf))
  | busRead offset size =>
    obtain ⟨v, rfl⟩ := busRead_cases h
    exact .inr (.inr hf)
  | cmdContended v writes => exact .inr (.inr (contend_fault h hf))
  | rd | memWrite | memRead =>
    cases h
    exact .inr (.inr hf)

end

end Sys2Proof.Machine

namespace Sys2Proof

open Machine

/-- Settles O13: the operation is the reset of the block. -/
theorem resetClearsRegistersAndPhases : Obligations.ResetClearsRegistersAndPhases := by
  intro s hc hp
  exact ⟨s.advance.resetBlock, step_performs s _ hc hp, rfl, rfl, rfl, rfl, rfl, rfl, rfl, rfl,
    resetBlock_inst_length _, resetBlock_ph, rfl, rfl, rfl, rfl⟩

/-- Settles O14: the values are those State.resetWith writes out. -/
theorem resetStateValues : Obligations.ResetStateValues := by
  intro c n
  refine ⟨rfl, by simp [State.status, State.resetWith, Code.value], rfl, rfl, rfl, rfl, rfl, List.length_replicate,
    fun u hu => ?_⟩
  rw [List.eq_of_mem_replicate hu]
  rfl

/-- Settles O17: the free bytes fill the range the command would have written, and the reset leaves HM. -/
theorem abandonedCommandTouchesOnlyDestination : Obligations.AbandonedCommandTouchesOnlyDestination := by
  intro s t v hc hp h
  rw [step_performs s _ hc hp] at h
  obtain ⟨e, he, rfl⟩ | ⟨i, u, hi, hu, rfl⟩ := abandon_cases h
  · refine ⟨fun i u hi => ?_, fun _ _ => rfl, rfl, rfl, rfl, rfl, rfl, rfl, rfl, rfl,
      resetBlock_inst_length _, resetBlock_ph, rfl, rfl, rfl⟩
    rw [he] at hi
    cases hi
  · refine ⟨fun j w hj hw a hout => ?_, fun e he => ?_, rfl, rfl, rfl, rfl, rfl, rfl, rfl, rfl,
      resetBlock_inst_length _, resetBlock_ph, rfl, rfl, rfl⟩
    · cases hi.symm.trans hj
      cases hu.symm.trans hw
      refine Memory.read_writeBytes_outside _ _ _ _ ?_
      rw [length_freeBytes]
      exact hout
    · rw [hi] at he
      cases he

/-- Settles O18: the byte is written once more after the command, with the engine's value or the agent's. -/
theorem contendedByteHoldsEitherValue : Obligations.ContendedByteHoldsEitherValue := by
  intro s t v i a b hc hp hi h
  rw [step_performs s _ hc hp] at h
  obtain ⟨e, he, -⟩ | ⟨j, u, hj, hu, rfl⟩ := contend_cases h
  · rw [hi] at he
    cases he
  · cases hi.symm.trans hj
    refine ⟨u, hu, ?_, fun x hx => Memory.read_write_ne _ _ _ _ hx, rfl, rfl, rfl⟩
    show Memory.read (Memory.write _ a.toNat _) a.toNat = b
      ∨ _ ∧ _ ∧ Memory.read (Memory.write _ a.toNat _) a.toNat = _
    rw [Memory.read_write_self]
    split_ifs with hchoice
    · exact .inr ⟨hchoice.1, hchoice.2.1, rfl⟩
    · exact .inl rfl

/-- Settles O28: no operation but the two resets clears FAULT. -/
theorem faultIsStickyExceptReset : Obligations.FaultIsStickyExceptReset := by
  intro s t hs h ht
  obtain rfl | ⟨op, hop, h⟩ := step_cases h
  · rw [hs] at ht
    cases ht
  · obtain rfl | ⟨v, rfl⟩ | hf := perform_fault h hs
    · exact .inl hop
    · exact .inr ⟨v, hop⟩
    · rw [hf] at ht
      cases ht

end Sys2Proof
end

section
/-! The invariant (spec/10_state.md R22 to R27; spec/00_scope.md R5): it holds at reset, and every step keeps it. -/

namespace Sys2Proof.Machine

/-! ### Sound instances -/

section
variable {p : Params} {t : Instance}

theorem Instance.fresh_sound (h : p.Legal) : (Instance.fresh p).Sound where
  params := h
  queue_lt := h.rate_pos
  queue_clear := fun q _ => bitAt_zero200 q
  avail_le := Nat.zero_le _
  squeeze_xof := fun hph => by cases hph
  done_fixed := fun hph => by cases hph

theorem Instance.queueBits_sound (h : t.Sound) (hph : t.ph = .absorb) (bits : List Bool) : (t.queueBits bits).Sound where
  params := by rw [Instance.queueBits_prm]; exact h.params
  queue_lt := by rw [Instance.queueBits_prm]; exact t.queueBits_qb_lt bits h.queue_lt
  queue_clear := t.queueBits_clear bits (le_of_lt h.params.rate_lt) h.queue_lt h.queue_clear
  avail_le := by rw [Instance.queueBits_prm, Instance.queueBits_av]; exact h.avail_le
  squeeze_xof := fun hsq => by rw [Instance.queueBits_ph, hph] at hsq; cases hsq
  done_fixed := fun hdone => by rw [Instance.queueBits_ph, hph] at hdone; cases hdone

theorem Instance.finalized_sound (h : t.Sound) : t.finalized.Sound := by
  obtain ⟨hqb, hq⟩ := t.pad_queue h.queue_lt
  refine ⟨?_, ?_, fun p _ => ?_, ?_, fun hsq => ?_, fun hdone => ?_⟩
  · rw [Instance.finalized_prm]
    exact h.params
  · rw [Instance.finalized_qb, hqb, Instance.finalized_prm]
    exact h.params.rate_pos
  · rw [Instance.finalized_q, hq, bitAt_zero200]
  · rw [Instance.finalized_av, Instance.finalized_prm]
    exact Nat.sub_le _ _
  · rw [Instance.finalized_prm, Instance.finalized_qb]
    rw [Instance.finalized_ph] at hsq
    split_ifs at hsq with hn
    exact ⟨Nat.eq_zero_of_not_pos hn, hqb⟩
  · rw [Instance.finalized_prm, Instance.finalized_qb]
    rw [Instance.finalized_ph] at hdone
    split_ifs at hdone with hn
    exact ⟨hn, hqb⟩

theorem Instance.squeezeBytes_sound (h : t.Sound) (m : Nat) : (Instance.squeezeBytes m t).1.Sound := by
  obtain ⟨hph, hprm, hq, hqb, -⟩ := Instance.squeezeBytes_frame m t
  refine ⟨?_, ?_, ?_, ?_, ?_, ?_⟩
  · rw [hprm]
    exact h.params
  · rw [hprm, hqb]
    exact h.queue_lt
  · rw [hq, hqb]
    exact h.queue_clear
  · rw [hprm]
    exact Instance.squeezeBytes_av_le m t h.avail_le
  · rw [hph, hprm, hqb]
    exact h.squeeze_xof
  · rw [hph, hprm, hqb]
    exact h.done_fixed

/-- A command leaves the slot it names sound, if it is bound then. -/
theorem InstanceEffect.sound {i : Instr} {s : State} {u w : Instance} (h : InstanceEffect i s u w)
    (hc : s.config.wf = true) (hu : u.ph ≠ .none → u.Sound) (hw : w.ph ≠ .none) : w.Sound := by
  cases i with
  | init vid iid =>
    obtain ⟨p, hp, rfl⟩ := h
    exact Instance.fresh_sound (State.initParams_legal hc hp)
  | absorb iid =>
    obtain ⟨hph, bits, rfl⟩ := h
    exact Instance.queueBits_sound (hu (by simp [hph])) hph bits
  | finalize iid fOut =>
    obtain ⟨hph, rfl⟩ := h
    exact Instance.finalized_sound (hu (by simp [hph]))
  | squeeze iid fOut =>
    obtain ⟨hph, m, rfl⟩ := h
    exact Instance.squeezeBytes_sound (hu (by simp [hph])) m
  | discard iid => exact absurd h hw
  | hashFixed => exact h.elim
  | hashXof => exact h.elim
  | kryptohash => exact h.elim
  | reorder => exact h.elim

end

/-! ### Canonical memories -/

theorem Memory.wf_writeBytes_of_admits {c : Config} {m : Memory} {a : Nat} {bs : List Byte} (h : Memory.wf m)
    (ha : c.admits a bs.length = true) : Memory.wf (Memory.writeBytes m a bs) := by
  by_cases hn : bs.length = 0
  · rw [List.length_eq_zero_iff.1 hn]
    exact h
  · exact Memory.wf_writeBytes m a bs h (c.admit_le a _ ha hn)

theorem wf_freeScratch (d : Nat) : Memory.wf (freeScratch d) := by
  refine Memory.wf_writeBytes _ _ _ Memory.wf_nil ?_
  rw [List.length_take]
  have : khScratchBytes ≤ 2 ^ 64 := by decide
  omega

theorem freeScratch_size (d : Nat) (cell : Host.Cell) (h : cell ∈ freeScratch d) : cell.1 < khScratchBytes := by
  obtain h | h := Memory.keys_writeBytes _ _ _ _ h
  · rw [List.length_take] at h
    omega
  · cases h

theorem wf_scribble (d k : Nat) (writes : List (Word64 × Byte)) {m : Memory} (h : Memory.wf m) :
    Memory.wf (scribble d k writes m) := by
  induction writes generalizing k m with
  | nil => exact h
  | cons w rest ih => exact ih (k + 1) (Memory.wf_write m _ _ h w.1.isLt)

theorem wf_settleWrites (engine : Memory) (lo n d k : Nat) (writes : List (Word64 × Byte)) {m : Memory}
    (h : Memory.wf m) : Memory.wf (settleWrites engine lo n d k writes m) := by
  induction writes generalizing k m with
  | nil => exact h
  | cons w rest ih => exact ih (k + 1) (Memory.wf_write m _ _ h w.1.isLt)

/-! ### Steps -/

section
variable {s t : State}

/-- The invariant speaks of the configuration, the instances and the memories only. -/
theorem State.Inv.of_eq (h : s.Inv) (hc : t.config = s.config) (hi : t.inst = s.inst) (hm : Memory.wf t.mem)
    (hs : t.spm = s.spm) : t.Inv where
  configured := by
    rw [State.configured_iff, hc, hi]
    exact s.configured_iff.1 h.configured
  instances := by rw [hi]; exact h.instances
  mem_wf := hm
  spm_wf := by rw [hs]; exact h.spm_wf
  spm_size := by rw [hs]; exact h.spm_size

theorem exec_inv {i : Instr} (hs : s.Inv) (h : exec i s = .next t) : t.Inv := by
  obtain ⟨h1, h256, hwf⟩ := s.configured_iff.1 hs.configured
  have hinst := exec_inst h
  have hconf : t.configured = true := by
    rw [State.configured_iff, hinst.length_eq, exec_config h]
    exact ⟨h1, h256, hwf⟩
  obtain ⟨bs, hmem, -, -, ha⟩ := exec_stored h
  have hspm : Memory.wf t.spm ∧ ∀ cell ∈ t.spm, cell.1 < khScratchBytes := by
    obtain hspm | ⟨-, d, hspm⟩ := exec_spm h
    · rw [hspm]
      exact ⟨hs.spm_wf, hs.spm_size⟩
    · rw [hspm]
      exact ⟨wf_freeScratch d, freeScratch_size d⟩
  refine ⟨hconf, fun w hw hph => ?_, hmem ▸ Memory.wf_writeBytes_of_admits hs.mem_wf ha, hspm.1, hspm.2⟩
  obtain heq | ⟨k, u, w', -, hu, heq, heff⟩ := hinst
  · exact hs.instances w (heq ▸ hw) hph
  · rw [heq] at hw
    obtain hw | rfl := List.mem_or_eq_of_mem_set hw
    · exact hs.instances w hw hph
    · exact heff.sound hwf (hs.instances u (List.mem_of_getElem? hu)) hph

theorem resetBlock_inv (hc : s.configured = true) (hm : Memory.wf s.mem) : s.resetBlock.Inv where
  configured := by
    rw [State.configured_iff, resetBlock_inst_length]
    exact s.configured_iff.1 hc
  instances := fun u hu hph => absurd (resetBlock_ph u hu) hph
  mem_wf := hm
  spm_wf := wf_freeScratch _
  spm_size := freeScratch_size _

theorem runCommand_inv {v : Word64} (hs : s.Inv) (h : runCommand v s = .next t) : t.Inv := by
  cases hv : decode v with
  | error e =>
    rw [runCommand_of_error hv] at h
    cases h
    exact hs.of_eq rfl rfl hs.mem_wf rfl
  | ok i =>
    rw [runCommand_of_ok hv] at h
    exact exec_inv hs h

theorem writeReg_inv {r : Reg} {v : Word64} (hs : s.Inv) (h : writeReg r v s = .next t) : t.Inv := by
  cases r with
  | cmd => exact runCommand_inv hs h
  | _ =>
    cases h
    exact hs.of_eq rfl rfl hs.mem_wf rfl

/-- The free bytes of an abandoned command fill a range that was admitted, or none. -/
theorem abandon_inv {v : Word64} (hs : s.Inv) (h : abandon v s = .next t) : t.Inv := by
  obtain ⟨e, -, rfl⟩ | ⟨i, u, -, hu, rfl⟩ := abandon_cases h
  · exact resetBlock_inv hs.configured hs.mem_wf
  · obtain ⟨bs, -, hresult, -, ha⟩ := exec_stored hu
    refine resetBlock_inv (s := (s.store _ _).draw) hs.configured ?_
    by_cases hn : bs.length = 0
    · rw [hresult, hn]
      exact hs.mem_wf
    · have hle := s.config.admit_le _ _ ha hn
      have hlen : u.result.toNat ≤ bs.length := by
        rw [hresult, BitVec.toNat_ofNat]
        exact Nat.mod_le _ _
      refine Memory.wf_writeBytes _ _ _ hs.mem_wf ?_
      rw [length_freeBytes]
      omega

theorem contend_inv {v : Word64} {writes : List (Word64 × Byte)} (hs : s.Inv) (h : contend v writes s = .next t) :
    t.Inv := by
  have hseen : (s.contended writes).Inv := hs.of_eq rfl rfl (wf_scribble _ _ _ hs.mem_wf) rfl
  obtain ⟨e, -, rfl⟩ | ⟨i, u, -, hu, rfl⟩ := contend_cases h
  · exact hseen.of_eq rfl rfl (wf_settleWrites _ _ _ _ _ _ hs.mem_wf) rfl
  · have hinv := exec_inv hseen hu
    exact hinv.of_eq rfl rfl (wf_settleWrites _ _ _ _ _ _ hinv.mem_wf) rfl

theorem perform_inv {op : HostOp} (hs : s.Inv) (h : perform op s = .next t) : t.Inv := by
  cases op with
  | wr r v => exact writeReg_inv hs h
  | busWrite offset lanes =>
    obtain ⟨r, v, h⟩ := busWrite_cases h
    exact writeReg_inv hs h
  | busRead offset size =>
    obtain ⟨v, rfl⟩ := busRead_cases h
    exact hs.of_eq rfl rfl hs.mem_wf rfl
  | memWrite a b =>
    cases h
    exact hs.of_eq rfl rfl (Memory.wf_write _ _ _ hs.mem_wf a.isLt) rfl
  | reset =>
    cases h
    exact resetBlock_inv hs.configured hs.mem_wf
  | cmdThenReset v => exact abandon_inv hs h
  | cmdContended v writes => exact contend_inv hs h
  | rd | memRead =>
    cases h
    exact hs.of_eq rfl rfl hs.mem_wf rfl

end

theorem resetWith_inv {c : Config} {n : Nat} (hc : c.wf = true) (h1 : 1 ≤ n) (h256 : n ≤ 256) :
    (State.resetWith c n).Inv where
  configured := by
    rw [State.configured_iff]
    simp [State.resetWith, hc, h1, h256]
  instances := fun u hu hph => absurd (by rw [List.eq_of_mem_replicate hu]; rfl) hph
  mem_wf := Memory.wf_nil
  spm_wf := Memory.wf_nil
  spm_size := fun cell h => by cases h

end Sys2Proof.Machine

namespace Sys2Proof

open Machine

/-- Settles O15: no slot is bound, and both memories are empty. -/
theorem resetStateMeetsInvariant : Obligations.ResetStateMeetsInvariant :=
  ⟨fun _ _ => resetWith_inv, resetWith_inv (by decide) (by decide) (by decide)⟩

/-- Settles O16: the step holds the state, or the operation it performs keeps the invariant. -/
theorem stepKeepsInvariant : Obligations.StepKeepsInvariant := by
  intro s t hs h
  obtain rfl | ⟨op, -, h⟩ := step_cases h
  · exact hs
  · have hadv : s.advance.Inv := hs.of_eq rfl rfl hs.mem_wf rfl
    exact perform_inv hadv h

end Sys2Proof
end

section
/-! Absorbing, padding and FINALIZE (spec/40_sponge_absorb.md; spec/70_reset_and_hazards.md R290): the message bits in HM,
the queue within one rate-block, the padded stream, and the slot and digest that FINALIZE leaves. -/

namespace Sys2Proof

/-- A legal rate is a whole number of bytes (R26). -/
theorem Params.Legal.rate_mod_eight {p : Params} (h : p.Legal) : p.r % 8 = 0 := by
  have hgran : p.r % 64 = 0 := h.rate_granule
  omega

end Sys2Proof

namespace Sys2Proof.Machine

open Host (Outcome)

/-! ### The message bits (R8, R122) -/

@[simp] theorem length_bitsAt (m : Memory) (a n : Nat) : (bitsAt m a n).length = n := by simp [bitsAt]

theorem getElem?_bitsAt (m : Memory) (a : Nat) {n k : Nat} (h : k < n) :
    (bitsAt m a n)[k]? = some ((Memory.read m (a + k / 8)).getLsbD (k % 8)) := by
  simp [bitsAt, h]

theorem bitsAt_zero (m : Memory) (a : Nat) : bitsAt m a 0 = [] := rfl

/-- The bits of the source string are the bits at the source address. -/
theorem bitsOf_readBytes (m : Memory) (a n : Nat) : bitsOf (Memory.readBytes m a ((n + 7) / 8)) n = bitsAt m a n := by
  have hle : n ≤ 8 * (Memory.readBytes m a ((n + 7) / 8)).length := by
    rw [Memory.length_readBytes]
    omega
  refine List.ext_getElem? fun k => ?_
  by_cases hk : k < n
  · rw [getElem?_bitsOf _ _ _ hk hle, getElem?_bitsAt _ _ hk, Memory.getD_readBytes _ _ _ _ (by omega)]
  · rw [List.getElem?_eq_none (by rw [length_bitsOf _ _ hle]; omega), List.getElem?_eq_none (by simpa using hk)]

theorem State.message_eq (s : State) (n : Nat) : s.message n = bitsAt s.mem s.arg0.toNat n :=
  bitsOf_readBytes s.mem s.arg0.toNat n

/-- A message after whole bytes starts at the byte that follows them. -/
theorem bitsAt_add (m : Memory) (a n1 n2 : Nat) (h : n1 % 8 = 0) :
    bitsAt m a (n1 + n2) = bitsAt m a n1 ++ bitsAt m (a + n1 / 8) n2 := by
  have hshift : ∀ k, a + n1 / 8 + k / 8 = a + (n1 + k) / 8 ∧ k % 8 = (n1 + k) % 8 := fun k => by omega
  rw [bitsAt, List.range_add, List.map_append, List.map_map]
  congr 1
  refine List.map_congr_left fun k _ => ?_
  rw [Function.comp_apply, (hshift k).1, ← (hshift k).2]

/-! ### ABSORB -/

theorem partialByte_eq_false_iff (u : Instance) : u.partialByte = false ↔ u.qb % 8 = 0 := by
  simp [Instance.partialByte]

theorem not_fails_of_ok {o : Outcome State Fault Refusal} {s t : State} (h : o = .next t) (hok : t.code = .ok) :
    ¬Fails o s := by
  rintro ⟨e, he, ho⟩
  cases h.symm.trans ho
  exact he hok

section
variable {s : State} {iid : Nat} {u : Instance}

/-- The state ABSORB leaves when it passes its checks. -/
def absorbNext (s : State) (iid : Nat) (u : Instance) (bits : List Bool) : State :=
  ((s.setInst iid (u.queueBits bits)).addPerms ((u.queueBits bits).perms - u.perms)).complete 0

@[simp] theorem absorbNext_inst (s : State) (iid : Nat) (u : Instance) (bits : List Bool) :
    (absorbNext s iid u bits).inst = s.inst.set iid (u.queueBits bits) := rfl

@[simp] theorem absorbNext_mem (s : State) (iid : Nat) (u : Instance) (bits : List Bool) :
    (absorbNext s iid u bits).mem = s.mem := rfl

@[simp] theorem absorbNext_perms (s : State) (iid : Nat) (u : Instance) (bits : List Bool) :
    (absorbNext s iid u bits).perms = s.perms + ((u.queueBits bits).perms - u.perms) := rfl

theorem exec_absorb_of_admitted (hu : s.inst[iid]? = some u) (hph : u.ph = .absorb)
    (hpart : s.arg1.toNat = 0 ∨ u.qb % 8 = 0) (ha : s.config.admits s.arg0.toNat ((s.arg1.toNat + 7) / 8) = true) :
    exec (.absorb iid) s = .next (absorbNext s iid u (bitsAt s.mem s.arg0.toNat s.arg1.toNat)) := by
  have hlen : ¬(0 < s.arg1.toNat ∧ u.partialByte = true) := by
    rintro ⟨hpos, hp⟩
    rw [(partialByte_eq_false_iff u).2 (hpart.resolve_left (Nat.ne_of_gt hpos))] at hp
    cases hp
  simp [exec, execAbsorb, hu, hph, hlen, ha, absorbNext, State.message_eq]

theorem exec_absorb_of_partialByte (hu : s.inst[iid]? = some u) (hph : u.ph = .absorb) (hpart : u.qb % 8 ≠ 0)
    (hn : 0 < s.arg1.toNat) : exec (.absorb iid) s = .next (s.raise .eLength) := by
  have hp : u.partialByte = true := by simpa [Instance.partialByte] using hpart
  simp [exec, execAbsorb, hu, hph, hn, hp]

/-- What an ABSORB that completed with OK has done. -/
theorem exec_absorb_ok {t : State} (h : exec (.absorb iid) s = .next t) (hok : t.code = .ok) :
    ∃ u, s.inst[iid]? = some u ∧ t = absorbNext s iid u (bitsAt s.mem s.arg0.toNat s.arg1.toNat) := by
  obtain hf | ⟨u, hu, -, -, -, hnext⟩ := execAbsorb_cases iid s
  · exact absurd hf (not_fails_of_ok h hok)
  · rw [State.message_eq] at hnext
    cases h.symm.trans hnext
    exact ⟨u, hu, rfl⟩

end

/-- What an INIT that completed with OK has done. -/
theorem exec_init_ok {s t : State} {vid iid : Nat} (h : exec (.init vid iid) s = .next t) (hok : t.code = .ok) :
    ∃ p, iid < s.inst.length ∧ s.initParams vid = some p ∧ t = (s.setInst iid (Instance.fresh p)).complete 0 := by
  obtain hf | ⟨u, p, hu, hp, hnext⟩ := execInit_cases vid iid s
  · exact absurd hf (not_fails_of_ok h hok)
  · cases h.symm.trans hnext
    exact ⟨p, (List.getElem?_eq_some_iff.1 hu).1, hp, rfl⟩

/-! ### The least number of zeros (R131, R133) -/

theorem zeros_boundary (x : Nat) {r : Nat} (hr : 0 < r) : (x + 1 + (r - 1 - x % r)) % r = 0 := by
  have hx := Nat.mod_lt x hr
  have hle := Nat.mod_le x r
  rw [show x + 1 + (r - 1 - x % r) = x - x % r + r by omega, Nat.add_mod_right,
    Nat.sub_mod_eq_zero_of_mod_eq (Nat.mod_mod x r).symm]

/-- The least `j` that ends on a rate boundary after `x` bits and a final 1. -/
theorem leastZeros_eq {x j r : Nat} (hr : 0 < r) (h : (x + 1 + j) % r = 0) (hmin : ∀ j' < j, (x + 1 + j') % r ≠ 0) :
    j = r - 1 - x % r := by
  have hx := Nat.mod_lt x hr
  rcases lt_trichotomy j (r - 1 - x % r) with hlt | heq | hgt
  · rw [Nat.add_assoc, Nat.add_mod, Nat.mod_eq_of_lt (show 1 + j < r by omega), Nat.mod_eq_of_lt (by omega)] at h
    omega
  · exact heq
  · exact absurd (zeros_boundary x hr) (hmin _ hgt)

theorem leastZeros_lt {x j r : Nat} (hr : 0 < r) (h : (x + 1 + j) % r = 0) (hmin : ∀ j' < j, (x + 1 + j') % r ≠ 0) :
    j < r := by
  rw [leastZeros_eq hr h hmin]
  omega

theorem exists_leastZeros (x : Nat) {r : Nat} (hr : 0 < r) :
    ∃ j, (x + 1 + j) % r = 0 ∧ ∀ j' < j, (x + 1 + j') % r ≠ 0 := by
  have hex : ∃ j, (x + 1 + j) % r = 0 := ⟨_, zeros_boundary x hr⟩
  exact ⟨Nat.find hex, Nat.find_spec hex, fun j' => Nat.find_min hex⟩

theorem add_eq_ceilDiv_mul {y j r : Nat} (hr : 0 < r) (hj : j < r) (h : (y + j) % r = 0) :
    y + j = ceilDiv y r * r := by
  obtain ⟨q, hq⟩ := Nat.dvd_of_mod_eq_zero h
  have : ceilDiv y r = q := by
    rw [ceilDiv, show y + r - 1 = r - 1 - j + r * q by omega, Nat.add_mul_div_left _ _ hr,
      Nat.div_eq_of_lt (by omega), Nat.zero_add]
  rw [this, hq, Nat.mul_comm]

theorem dvd_succ_iff {z r : Nat} (hr : 0 < r) : r ∣ z + 1 ↔ z % r = r - 1 := by
  have hz := Nat.mod_lt z hr
  have hsplit : z + 1 = r * (z / r) + (z % r + 1) := by rw [← Nat.add_assoc, Nat.div_add_mod]
  rw [hsplit, Nat.dvd_add_right (Nat.dvd_mul_right r _)]
  constructor
  · intro h
    have := Nat.le_of_dvd (Nat.succ_pos _) h
    omega
  · intro h
    rw [h, Nat.sub_add_cancel hr]

/-- One more bit needs one more block exactly when the bits so far end on a block (the spill case, R132). -/
theorem ceilDiv_spill_iff {z r : Nat} (hr : 0 < r) : ceilDiv (z + 2) r = ceilDiv (z + 1) r + 1 ↔ z % r = r - 1 := by
  have h2 : ceilDiv (z + 2) r = (z + 1) / r + 1 := by
    rw [ceilDiv, show z + 2 + r - 1 = z + 1 + r by omega, Nat.add_div_right _ hr]
  have h1 : ceilDiv (z + 1) r = z / r + 1 := by
    rw [ceilDiv, show z + 1 + r - 1 = z + r by omega, Nat.add_div_right _ hr]
  rw [h2, h1, Nat.succ_div, ← dvd_succ_iff hr]
  split_ifs with h <;> simp [h]

/-! ### Pad -/

section
variable {u : Instance} {j : Nat}

/-- Pad queues the suffix, a 1, the least number of zeros and a 1 (R131). -/
theorem Instance.pad_eq_of_least (hq : u.qb < u.prm.r) (h : (u.qb + u.prm.d.length + 2 + j) % u.prm.r = 0)
    (hmin : ∀ j' < j, (u.qb + u.prm.d.length + 2 + j') % u.prm.r ≠ 0) :
    u.pad = u.queueBits (u.prm.d ++ [true] ++ List.replicate j false ++ [true]) := by
  have hcount := (u.queueBits_count (u.prm.d ++ [true]) hq).1
  rw [List.length_append, List.length_singleton, ← Nat.add_assoc] at hcount
  rw [Instance.pad_eq_queueBits, hcount, ← leastZeros_eq (by omega) h hmin]

end

@[simp] theorem length_paddedStream (d m : List Bool) (j : Nat) :
    (paddedStream d m j).length = m.length + d.length + 2 + j := by
  simp [paddedStream]
  omega

/-- A transient or bound slot that has absorbed `m` and is padded: S_t of the padded stream, after t PERMs (R133). -/
theorem pad_queueBits_fresh {p : Params} (hp : p.Legal) {m : List Bool} {j : Nat}
    (h : (m.length + p.d.length + 2 + j) % p.r = 0) (hmin : ∀ j' < j, (m.length + p.d.length + 2 + j') % p.r ≠ 0) :
    (paddedStream p.d m j).length = ceilDiv (m.length + p.d.length + 2) p.r * p.r ∧
    ((Instance.fresh p).queueBits m).pad =
      { Instance.fresh p with
        s := streamState p.r (paddedStream p.d m j) (ceilDiv (m.length + p.d.length + 2) p.r)
        perms := ceilDiv (m.length + p.d.length + 2) p.r } := by
  have hr := hp.rate_pos
  have hfresh : (Instance.fresh p).qb < (Instance.fresh p).prm.r := hr
  have hqb : ((Instance.fresh p).queueBits m).qb = m.length % p.r := by
    rw [((Instance.fresh p).queueBits_count m hfresh).1]
    simp [Instance.fresh]
  have hmod : ∀ j', (m.length % p.r + p.d.length + 2 + j') % p.r = (m.length + p.d.length + 2 + j') % p.r := fun j' => by
    rw [Nat.add_assoc, Nat.add_assoc, Nat.mod_add_mod, ← Nat.add_assoc, ← Nat.add_assoc]
  have hprm : ((Instance.fresh p).queueBits m).prm = p := by simp [Instance.fresh]
  have hj : j < p.r := leastZeros_lt hr h hmin
  have hlen : (paddedStream p.d m j).length = ceilDiv (m.length + p.d.length + 2) p.r * p.r := by
    rw [length_paddedStream, add_eq_ceilDiv_mul hr hj h]
  refine ⟨hlen, ?_⟩
  rw [Instance.pad_eq_of_least (j := j), hprm, ← Instance.queueBits_append, ← List.append_assoc, ← List.append_assoc,
    ← List.append_assoc]
  · exact queueBits_stream p _ _ (le_of_lt hp.rate_lt) hp.rate_mod_eight hr hlen
  · rw [hqb, hprm]
    exact Nat.mod_lt _ hr
  · rw [hqb, hprm, hmod, h]
  · rw [hqb, hprm]
    exact fun j' hj' => hmod j' ▸ hmin j' hj'

/-! ### FINALIZE -/

section
variable {s : State} {iid : Nat} {u : Instance}

/-- The state FINALIZE leaves when it passes its checks, before it stores the digest. -/
def finalizeNext (s : State) (iid : Nat) (u : Instance) : State :=
  (s.setInst iid u.finalized).addPerms (u.finalized.perms - u.perms)

theorem exec_finalize_storing (hu : s.inst[iid]? = some u) (hph : u.ph = .absorb) (hn : 0 < u.prm.n)
    (ha : s.config.admits s.arg0.toNat (u.prm.n / 8) = true) :
    exec (.finalize iid true) s =
      .next (((finalizeNext s iid u).store s.arg0.toNat u.digest).complete (u.prm.n / 8)) := by
  simp [exec, execFinalize, hu, hph, hn, ha, finalizeNext]

theorem exec_finalize_null (hu : s.inst[iid]? = some u) (hph : u.ph = .absorb) {fOut : Bool}
    (hnull : u.prm.n = 0 ∨ fOut = false) :
    exec (.finalize iid fOut) s = .next ((finalizeNext s iid u).complete 0) := by
  have hstore : ¬(0 < u.prm.n ∧ fOut = true) := by
    obtain hn | hf := hnull
    · simp [hn]
    · simp [hf]
  have hbus : ¬(0 < u.prm.n ∧ fOut = true ∧ s.config.admits s.arg0.toNat (u.prm.n / 8) = false) := fun hbus =>
    hstore ⟨hbus.1, hbus.2.1⟩
  simp [exec, execFinalize, hu, hph, hstore, hbus, finalizeNext]

/-- What a FINALIZE that completed with OK has done to its slot and to the PERM counter. -/
theorem exec_finalize_ok {t : State} {fOut : Bool} (h : exec (.finalize iid fOut) s = .next t) (hok : t.code = .ok) :
    ∃ u, s.inst[iid]? = some u ∧ t.inst = s.inst.set iid u.finalized ∧
      t.perms = s.perms + (u.finalized.perms - u.perms) ∧
      (0 < u.prm.n ∧ fOut = true → t = ((finalizeNext s iid u).store s.arg0.toNat u.digest).complete (u.prm.n / 8)) ∧
      (¬(0 < u.prm.n ∧ fOut = true) → t = (finalizeNext s iid u).complete 0) := by
  obtain hf | ⟨u, hu, -, ⟨hn, hf, -, hnext⟩ | ⟨hnull, hnext⟩⟩ := execFinalize_cases iid fOut s
  · exact absurd hf (not_fails_of_ok h hok)
  · cases h.symm.trans hnext
    exact ⟨u, hu, rfl, rfl, fun _ => rfl, fun hnull => absurd ⟨hn, hf⟩ hnull⟩
  · cases h.symm.trans hnext
    exact ⟨u, hu, rfl, rfl, fun hstore => absurd hstore hnull, fun _ => rfl⟩

end

/-! ### Several ABSORBs -/

/-- A sequence of ABSORBs that succeed queues the concatenated messages and leaves HM. -/
theorem absorbAll_queues {iid : Nat} {inputs : List (Word64 × Word64)} {s t : State} {u : Instance}
    (h : absorbAll iid inputs s = some t) (hu : s.inst[iid]? = some u) :
    t.mem = s.mem ∧
      t.inst[iid]? = some (u.queueBits (inputs.flatMap fun x => bitsAt s.mem x.1.toNat x.2.toNat)) := by
  induction inputs generalizing s u with
  | nil =>
    cases h
    exact ⟨rfl, hu⟩
  | cons x rest ih =>
    obtain ⟨s', hs'⟩ := exec_eq_next (.absorb iid) { s with arg0 := x.1, arg1 := x.2 }
    rw [absorbAll] at h
    simp only [hs'] at h
    split_ifs at h with hok
    obtain ⟨u', hu', rfl⟩ := exec_absorb_ok hs' hok
    cases hu.symm.trans hu'
    obtain ⟨hlt, -⟩ := List.getElem?_eq_some_iff.1 hu
    obtain ⟨hmem, hinst⟩ := ih h (List.getElem?_set_self hlt)
    refine ⟨hmem, ?_⟩
    rw [hinst, List.flatMap_cons, Instance.queueBits_append]
    rfl

end Sys2Proof.Machine

namespace Sys2Proof

open Machine

/-- Settles O33: ABSORB passes its checks. -/
theorem absorbQueuesMessageBits : Obligations.AbsorbQueuesMessageBits := by
  intro s iid u hu hph hpart ha
  exact ⟨_, exec_absorb_of_admitted hu hph hpart ha⟩

/-- Settles O34: bit p of the queue is the old bit or the bit queued there. -/
theorem queueHoldsAbsorbedBits : Obligations.QueueHoldsAbsorbedBits := by
  intro u bits hu hlt
  obtain ⟨hs, hqb, hperms, hq⟩ := u.queueBits_short bits (le_of_lt hu.params.rate_lt) hlt
  refine ⟨hs, hqb, hperms, fun p hp => ?_, fun k b hb => ?_, fun p hp => ?_⟩
  · rw [hq p]
    simp [Nat.not_le.2 hp]
  · rw [hq, hu.queue_clear _ (Nat.le_add_right _ _)]
    simp [List.getD_eq_getElem?_getD, hb]
  · rw [hqb] at hp
    rw [hq, hu.queue_clear p (by omega), List.getD_eq_default _ _ (by omega)]
    simp

/-- Settles O35: the state before PERM has the block, old bits and new, XORed in. -/
theorem fullBlockIsXoredAndPermuted : Obligations.FullBlockIsXoredAndPermuted := by
  intro u bits hu hfull
  obtain ⟨before, heq, hbit⟩ :=
    u.queueBits_full bits (le_of_lt hu.params.rate_lt) hu.params.rate_mod_eight hu.queue_lt hu.queue_clear hfull
  rw [heq]
  refine ⟨before, rfl, fun p hp => ?_, fun k b hb => ?_, fun p hp => ?_, rfl, rfl, rfl⟩
  · rw [hbit p]
    simp [Nat.not_le.2 hp]
  · rw [hbit, hu.queue_clear _ (Nat.le_add_right _ _)]
    simp [List.getD_eq_getElem?_getD, hb]
  · rw [hbit p, hu.queue_clear p (by have := hu.queue_lt; omega), List.getD_eq_default _ _ (by omega)]
    simp

/-- Settles O36: the bits of the second message follow those of the first, and queueing them in turn is queueing all. -/
theorem absorbSplitDoesNotMatter : Obligations.AbsorbSplitDoesNotMatter := by
  intro s t1 t2 t iid src n1 n2 h8 hlt haddr h1 hok1 h2 hok2 h hok
  obtain ⟨u, hu, rfl⟩ := exec_absorb_ok h1 hok1
  obtain ⟨u1, hu1, rfl⟩ := exec_absorb_ok h2 hok2
  obtain ⟨u', hu', rfl⟩ := exec_absorb_ok h hok
  cases hu.symm.trans hu'
  obtain ⟨hk, -⟩ := List.getElem?_eq_some_iff.1 hu
  obtain rfl : u.queueBits _ = u1 := Option.some.inj ((List.getElem?_set_self hk).symm.trans hu1)
  have hbits : bitsAt s.mem src.toNat (BitVec.ofNat 64 (n1.toNat + n2.toNat)).toNat
      = bitsAt s.mem src.toNat n1.toNat
        ++ bitsAt s.mem (BitVec.ofNat 64 (src.toNat + n1.toNat / 8)).toNat n2.toNat := by
    rw [BitVec.toNat_ofNat, BitVec.toNat_ofNat, Nat.mod_eq_of_lt hlt, Nat.mod_eq_of_lt haddr, bitsAt_add _ _ _ _ h8]
  have hle1 := u.perms_le_queueBits (bitsAt s.mem src.toNat n1.toNat)
  have hle2 := (u.queueBits (bitsAt s.mem src.toNat n1.toNat)).perms_le_queueBits
    (bitsAt s.mem (BitVec.ofNat 64 (src.toNat + n1.toNat / 8)).toNat n2.toNat)
  simp only [absorbNext_inst, absorbNext_perms, absorbNext_mem, hbits, Instance.queueBits_append, List.set_set, true_and]
  omega

/-- Settles O37: the three commands on a slot that holds a partial byte. -/
theorem partialByteRestriction : Obligations.PartialByteRestriction := by
  intro s iid u hu hph hpart
  obtain ⟨hlt, hget⟩ := List.getElem?_eq_some_iff.1 hu
  refine ⟨fun hn => exec_absorb_of_partialByte hu hph hpart hn, fun hn => ?_, fun fOut ha => ?_⟩
  · rw [exec_absorb_of_admitted hu hph (.inl hn) (by simp [hn]), hn, bitsAt_zero, absorbNext,
      Instance.queueBits_nil, Nat.sub_self, State.setInst, ← hget, List.set_getElem_self hlt]
    rfl
  · have hfin : ∃ t, exec (.finalize iid fOut) s = .next t ∧ t.code = .ok ∧ t.inst[iid]? = some u.finalized := by
      by_cases hstore : 0 < u.prm.n ∧ fOut = true
      · obtain ⟨hn, rfl⟩ := hstore
        exact ⟨_, exec_finalize_storing hu hph hn (ha rfl hn), rfl, List.getElem?_set_self hlt⟩
      · have hnull : u.prm.n = 0 ∨ fOut = false :=
          (not_and_or.1 hstore).imp Nat.eq_zero_of_not_pos Bool.eq_false_of_not_eq_true
        exact ⟨_, exec_finalize_null hu hph hnull, rfl, List.getElem?_set_self hlt⟩
    obtain ⟨t, ht, hok, hw⟩ := hfin
    exact ⟨t, u.finalized, _, ht, hok, hw, by rw [Instance.finalized_s, Instance.pad_eq_queueBits]⟩

/-- Settles O38: the engine's zero fill is the least one, and the bits queued fill a whole number of blocks. -/
theorem padEndsOnRateBoundary : Obligations.PadEndsOnRateBoundary := by
  intro u j hu h hmin
  have hr := hu.params.rate_pos
  have hpad := Instance.pad_eq_of_least hu.queue_lt h hmin
  obtain ⟨hqb, hq⟩ := u.pad_queue hu.queue_lt
  refine ⟨hpad, hqb, hq, ?_, ceilDiv_spill_iff hr⟩
  have hlen : (u.prm.d ++ [true] ++ List.replicate j false ++ [true]).length = u.prm.d.length + 2 + j := by
    simp
    omega
  rw [hpad, (u.queueBits_count _ hu.queue_lt).2, hlen, ← Nat.add_assoc, ← Nat.add_assoc,
    add_eq_ceilDiv_mul hr (leastZeros_lt hr h hmin) h, Nat.mul_div_cancel _ hr]

/-- Settles O39: the bound slot is fresh, the ABSORBs queue the concatenated messages, and FINALIZE pads them. -/
theorem streamEquivalence : Obligations.StreamEquivalence := by
  intro s s0 s1 s2 vid iid fOut inputs p w j hp h0 hok0 hprm habs hfin hok2 hw
  dsimp only
  intro hb hmin
  obtain ⟨p', hk, -, rfl⟩ := exec_init_ok h0 hok0
  have hslot : (s.inst.set iid (Instance.fresh p'))[iid]? = some (Instance.fresh p') := List.getElem?_set_self hk
  obtain rfl : p' = p := hprm _ hslot
  obtain ⟨-, hq⟩ := absorbAll_queues habs hslot
  obtain ⟨u, hu, hinst, -⟩ := exec_finalize_ok hfin hok2
  cases hu.symm.trans hq
  obtain ⟨hlt, -⟩ := List.getElem?_eq_some_iff.1 hu
  rw [hinst, List.getElem?_set_self hlt] at hw
  cases hw
  obtain ⟨hlen, hpad⟩ := pad_queueBits_fresh hp hb hmin
  refine ⟨hlen, ?_, ?_, ceilDiv_spill_iff hp.rate_pos⟩
  · rw [Instance.finalized_s]
    exact congrArg Instance.s hpad
  · rw [Instance.finalized_perms]
    exact congrArg Instance.perms hpad

/-- Settles O40: FINALIZE passes its checks and stores the digest. -/
theorem finalizeWritesFixedDigest : Obligations.FinalizeWritesFixedDigest := by
  intro s iid u hu hph hn ha
  refine ⟨s.perms + (u.finalized.perms - u.perms), ?_⟩
  rw [exec_finalize_storing hu hph hn ha, finalizeNext, Instance.finalized, if_pos hn]
  rfl

/-- Settles O41: FINALIZE passes its checks and stores nothing. -/
theorem finalizeWithoutOutputCompletes : Obligations.FinalizeWithoutOutputCompletes := by
  intro s iid fOut u hu hph hnull
  exact ⟨_, exec_finalize_null hu hph hnull⟩

end Sys2Proof
end

section
/-! SQUEEZE (spec/41_sponge_squeeze.md R150 to R154): what it stores and leaves, in one run or in two, and what of S it
reads. -/

namespace Sys2Proof

theorem Params.Legal.rateBytes_pos {p : Params} (h : p.Legal) : 0 < p.r / 8 := by
  have hpos := h.rate_pos
  have hmod := h.rate_mod_eight
  omega

end Sys2Proof

namespace Sys2Proof.Machine

/-- A run of SqueezeBytes can be cut anywhere (R152). -/
theorem Instance.squeezeBytes_add (a b : Nat) (t : Instance) :
    Instance.squeezeBytes (a + b) t =
      ((Instance.squeezeBytes b (Instance.squeezeBytes a t).1).1,
        (Instance.squeezeBytes a t).2 ++ (Instance.squeezeBytes b (Instance.squeezeBytes a t).1).2) := by
  induction a generalizing t with
  | zero => simp [Instance.squeezeBytes]
  | succ a ih =>
    rw [Nat.succ_add]
    simp [Instance.squeezeBytes, ih]

/-- The phase plays no part in a run of SqueezeBytes. -/
theorem Instance.squeezeBytes_setPhase (m : Nat) (t : Instance) (ph : Phase) :
    Instance.squeezeBytes m { t with ph := ph } =
      ({ (Instance.squeezeBytes m t).1 with ph := ph }, (Instance.squeezeBytes m t).2) := by
  induction m generalizing t with
  | zero => rfl
  | succ m ih =>
    have hrefill : Instance.refill { t with ph := ph } = { t.refill with ph := ph } := by
      unfold Instance.refill
      dsimp only
      split_ifs <;> rfl
    simp only [Instance.squeezeBytes, hrefill]
    rw [ih { t.refill with av := t.refill.av - 1 }]
    rfl

/-- The output bytes of the first block are the bytes of S. -/
theorem outputByte_of_lt {r k : Nat} (s : Bytes200) (h : k < r / 8) : outputByte r s k = byteAt s k := by
  rw [outputByte, Nat.div_eq_of_lt h, Nat.mod_eq_of_lt h, permIter]

theorem readBytes_writeBytes_squeezed (m : Memory) (a k : Nat) (u : Instance) :
    Memory.readBytes (Memory.writeBytes m a (Instance.squeezeBytes k u).2) a k = (Instance.squeezeBytes k u).2 := by
  have h := Memory.readBytes_writeBytes m a (Instance.squeezeBytes k u).2
  rwa [Instance.length_squeezeBytes] at h

section
variable {s : State} {iid : Nat} {u : Instance}

/-- The state SQUEEZE of m bytes leaves when it passes its checks. -/
def squeezeNext (s : State) (iid : Nat) (u : Instance) (m : Nat) : State :=
  (((s.setInst iid (Instance.squeezeBytes m u).1).addPerms ((Instance.squeezeBytes m u).1.perms - u.perms)).store
    s.arg0.toNat (Instance.squeezeBytes m u).2).complete m

theorem squeezeNext_zero (hu : s.inst[iid]? = some u) : squeezeNext s iid u 0 = s.complete 0 := by
  obtain ⟨hlt, rfl⟩ := List.getElem?_eq_some_iff.1 hu
  rw [squeezeNext, Instance.squeezeBytes, State.setInst, List.set_getElem_self hlt, Nat.sub_self]
  rfl

theorem exec_squeeze_of_admitted (hu : s.inst[iid]? = some u) (hph : u.ph = .squeeze) (h8 : s.arg1.toNat % 8 = 0)
    (hn : s.arg1.toNat ≠ 0) (ha : s.config.admits s.arg0.toNat (s.config.clamp (s.arg1.toNat / 8)) = true) :
    exec (.squeeze iid true) s = .next (squeezeNext s iid u (s.config.clamp (s.arg1.toNat / 8))) := by
  simp [exec, execSqueeze, hu, hph, h8, hn, ha, squeezeNext]

theorem exec_squeeze_null (hu : s.inst[iid]? = some u) (hph : u.ph = .squeeze) (h8 : s.arg1.toNat % 8 = 0)
    {fOut : Bool} (hnull : fOut = false ∨ s.arg1.toNat = 0) :
    exec (.squeeze iid fOut) s = .next (s.complete 0) := by
  simp only [exec, execSqueeze, hu, hph, State.length_eq, h8, hnull, ne_eq, not_true_eq_false, if_false, if_true]

/-- What a SQUEEZE to a buffer that completed with OK has done; of length 0 it changed nothing, which is the same. -/
theorem exec_squeeze_ok {t : State} (h : exec (.squeeze iid true) s = .next t) (hok : t.code = .ok) :
    ∃ u, s.inst[iid]? = some u ∧ t = squeezeNext s iid u (s.config.clamp (s.arg1.toNat / 8)) := by
  obtain hf | ⟨u, hu, -, -, ⟨hnull, hnext⟩ | ⟨-, -, -, hnext⟩⟩ := execSqueeze_cases iid true s
  · exact absurd hf (not_fails_of_ok h hok)
  · cases h.symm.trans hnext
    have hlen : s.arg1.toNat = 0 := hnull.resolve_left (by simp)
    have hclamp : s.config.clamp (s.arg1.toNat / 8) = 0 := by rw [hlen, Nat.zero_div, Config.clamp, Nat.zero_min]
    exact ⟨u, hu, by rw [hclamp, squeezeNext_zero hu]⟩
  · cases h.symm.trans hnext
    exact ⟨u, hu, rfl⟩

/-- The same of a SQUEEZE of k bytes to `d`, clamped to the limit, field by field. -/
theorem exec_squeeze_bytes_ok {t : State} {k : Nat} {d : Word64} (h64 : 8 * k < 2 ^ 64)
    (h : exec (.squeeze iid true) { s with arg0 := d, arg1 := BitVec.ofNat 64 (8 * k) } = .next t) (hok : t.code = .ok) :
    ∃ u, s.inst[iid]? = some u ∧ t.config = s.config ∧
      t.inst = s.inst.set iid (Instance.squeezeBytes (s.config.clamp k) u).1 ∧
      t.mem = Memory.writeBytes s.mem d.toNat (Instance.squeezeBytes (s.config.clamp k) u).2 ∧
      t.result = BitVec.ofNat 64 (s.config.clamp k) ∧
      t.perms = s.perms + ((Instance.squeezeBytes (s.config.clamp k) u).1.perms - u.perms) := by
  obtain ⟨u, hu, ht⟩ := exec_squeeze_ok h hok
  have hlen : (BitVec.ofNat 64 (8 * k)).toNat / 8 = k := by
    rw [BitVec.toNat_ofNat, Nat.mod_eq_of_lt h64, Nat.mul_div_cancel_left _ (by decide)]
  dsimp only at ht
  rw [hlen] at ht
  subst ht
  exact ⟨u, hu, rfl, rfl, rfl, rfl, rfl⟩

end

end Sys2Proof.Machine

namespace Sys2Proof

open Machine

/-- Settles O42: SQUEEZE passes its checks, and SqueezeBytes emits the output stream. -/
theorem squeezeStoresOutputStream : Obligations.SqueezeStoresOutputStream := by
  intro s iid u m perms hu hph hsound h8 hn hm ha hperms
  have hclamp : s.config.clamp (s.arg1.toNat / 8) = m := hm.symm
  have hrun := Instance.squeezeBytes_eq m u hsound.params.rateBytes_pos hsound.avail_le
  rw [← hperms] at hrun
  rw [exec_squeeze_of_admitted hu hph h8 hn (hclamp ▸ ha), hclamp, squeezeNext, hrun, Nat.add_sub_cancel_left]
  rfl

/-- Settles O43: two SQUEEZEs are one run of SqueezeBytes, cut in two. -/
theorem incrementalSqueezeEqualsBatch : Obligations.IncrementalSqueezeEqualsBatch := by
  intro s t1 t2 t iid a b d1 d2 d hmax h64 h1 hok1 h2 hok2 h hok
  obtain ⟨u, hu, hc1, hinst1, hmem1, -⟩ := exec_squeeze_bytes_ok (by omega) h1 hok1
  obtain ⟨u1, hu1, -, hinst2, hmem2, -⟩ := exec_squeeze_bytes_ok (by omega) h2 hok2
  obtain ⟨u', hu', -, hinst, hmem, -⟩ := exec_squeeze_bytes_ok h64 h hok
  cases hu.symm.trans hu'
  rw [Config.clamp_of_le _ a (by omega)] at hinst1 hmem1
  rw [hc1, Config.clamp_of_le _ b (by omega)] at hinst2 hmem2
  rw [Config.clamp_of_le _ _ hmax] at hinst hmem
  obtain ⟨hk, -⟩ := List.getElem?_eq_some_iff.1 hu
  rw [hinst1, List.getElem?_set_self hk] at hu1
  obtain rfl := Option.some.inj hu1
  rw [hmem1, hmem2, hmem, readBytes_writeBytes_squeezed, readBytes_writeBytes_squeezed, readBytes_writeBytes_squeezed,
    hinst2, hinst, hinst1, List.set_set, Instance.squeezeBytes_add]
  exact ⟨rfl, rfl⟩

/-- Settles O44: the null output is checked before the buffer. -/
theorem nullSqueezeIsNoOp : Obligations.NullSqueezeIsNoOp := by
  intro s iid fOut u hu hph h8 hnull
  exact exec_squeeze_null hu hph h8 hnull

/-- Settles O45: the next `av` bytes of the output stream are bytes of S below r/8. -/
theorem capacityBytesAreNotReadOut : Obligations.CapacityBytesAreNotReadOut := by
  intro u w m hw hsame hav hm
  obtain rfl | hpos := Nat.eq_zero_or_pos m
  · rfl
  · have hr : 0 < u.prm.r / 8 := by omega
    have hprm : w.prm = u.prm := by rw [hw]
    have hwav : w.av = u.av := by rw [hw]
    rw [Instance.squeezeBytes_eq m u hr hav, Instance.squeezeBytes_eq m w (hprm ▸ hr) (by rw [hprm, hwav]; exact hav),
      hprm, hwav]
    refine List.map_congr_left fun k hk => ?_
    have hlt : u.prm.r / 8 - u.av + k < u.prm.r / 8 := by
      have := List.mem_range.1 hk
      omega
    rw [outputByte_of_lt _ hlt, outputByte_of_lt _ hlt, hsame _ hlt]

end Sys2Proof
end

section
/-! HASH_FIXED and HASH_XOF (spec/42_hash_instantiator.md R180 to R183): the one-shot functions against the stream equations,
what the commands store, and the same from INIT, ABSORB, FINALIZE and SQUEEZE. -/

namespace Sys2Proof

open Machine

/-! ### Kinds of variants (R171) -/

section
variable {c : Config} {vid : Nat} {p : Params}

theorem Config.fixedVariant_eq_some_iff : c.fixedVariant vid = some p ↔ c.variant vid = some p ∧ p.kind = .fixed := by
  simp [Config.fixedVariant, Option.filter_eq_some_iff]

theorem Config.xofVariant_eq_some_iff : c.xofVariant vid = some p ↔ c.variant vid = some p ∧ p.kind ≠ .fixed := by
  simp [Config.xofVariant, Option.filter_eq_some_iff]

/-- The fixed-digest variants are those with a digest length, in every configuration. -/
theorem Config.variant_kind_iff (h : c.variant vid = some p) : p.kind = .fixed ↔ 0 < p.n := by
  unfold Config.variant at h
  split at h
  case h_9 =>
    unfold Config.extra at h
    split_ifs at h
    obtain ⟨e, -, rfl⟩ := Option.map_eq_some_iff.1 h
    simp [Config.tuple]
  all_goals
    cases h
    simp [Config.tuple, Config.kshakeS1, Config.kshakeS2]

/-- CUSTOM is no variant, so INIT of a variant binds its tuple (R100, R121). -/
theorem Machine.State.initParams_of_variant {s : State} (h : s.config.variant vid = some p) :
    s.initParams vid = some p := by
  have hvid : vid ≠ 0xFF := by
    rintro rfl
    cases h
  rw [State.initParams_named s hvid, h]

end

end Sys2Proof

namespace Sys2Proof.Machine

/-! ### FixedFn and XofFn (R181, R183) -/

theorem absorbed_readBytes (p : Params) (m : Memory) (a n : Nat) :
    absorbed p (Memory.readBytes m a ((n + 7) / 8)) n = ((Instance.fresh p).queueBits (bitsAt m a n)).pad := by
  rw [absorbed, bitsOf_readBytes]

section
variable {p : Params} {b : List Byte} {n j : Nat}

/-- The transient slot after Pad: S_t of the padded message, after t PERMs. -/
theorem absorbed_eq_stream (hp : p.Legal) (hn : n ≤ 8 * b.length) (h : (n + p.d.length + 2 + j) % p.r = 0)
    (hmin : ∀ j' < j, (n + p.d.length + 2 + j') % p.r ≠ 0) :
    absorbed p b n = { Instance.fresh p with
      s := streamState p.r (paddedStream p.d (bitsOf b n) j) (ceilDiv (n + p.d.length + 2) p.r)
      perms := ceilDiv (n + p.d.length + 2) p.r } := by
  have hlen := length_bitsOf b n hn
  have hpad := (pad_queueBits_fresh (m := bitsOf b n) hp (by rw [hlen]; exact h) (by rw [hlen]; exact hmin)).2
  rw [hlen] at hpad
  exact hpad

/-- A whole block is available to XofFn at first, so its PERMs are one less than the blocks it reads. -/
theorem xofRun_eq_stream (hp : p.Legal) (hn : n ≤ 8 * b.length) (h : (n + p.d.length + 2 + j) % p.r = 0)
    (hmin : ∀ j' < j, (n + p.d.length + 2 + j') % p.r ≠ 0) (m : Nat) :
    xofFn p b n m = (List.range m).map (outputByte p.r
        (streamState p.r (paddedStream p.d (bitsOf b n) j) (ceilDiv (n + p.d.length + 2) p.r))) ∧
      xofPerms p b n m = ceilDiv (n + p.d.length + 2) p.r + (ceilDiv m (p.r / 8) - 1) := by
  have hr := hp.rateBytes_pos
  have hblocks : (if m ≤ p.r / 8 then 0 else ceilDiv (m - p.r / 8) (p.r / 8)) = ceilDiv m (p.r / 8) - 1 := by
    split_ifs with hm
    · have : ceilDiv m (p.r / 8) ≤ 1 := (ceilDiv_le_iff _ _ _ hr).2 (by omega)
      omega
    · rw [ceilDiv, ceilDiv, show m + p.r / 8 - 1 = m - p.r / 8 + p.r / 8 - 1 + p.r / 8 by omega, Nat.add_div_right _ hr,
        Nat.succ_sub_one]
  rw [xofFn, xofPerms, xofRun, absorbed_eq_stream hp hn h hmin, Instance.squeezeBytes_eq m _ hr le_rfl]
  simp only [hblocks, Instance.fresh, Nat.sub_self, Nat.zero_add, and_true]

end

/-! ### The commands -/

section
variable {s : State} {vid : Nat} {p : Params}

/-- The state HASH_FIXED leaves when it stores its digest. -/
def hashFixedNext (s : State) (p : Params) : State :=
  ((s.addPerms (absorbed p (Memory.readBytes s.mem s.arg0.toNat ((s.arg1.toNat + 7) / 8)) s.arg1.toNat).perms).store
    s.arg2.toNat (fixedFn p (Memory.readBytes s.mem s.arg0.toNat ((s.arg1.toNat + 7) / 8)) s.arg1.toNat)).complete (p.n / 8)

/-- The state HASH_XOF leaves when it stores m bytes. -/
def hashXofNext (s : State) (p : Params) (m : Nat) : State :=
  ((s.addPerms (xofPerms p (Memory.readBytes s.mem s.arg0.toNat ((s.arg1.toNat + 7) / 8)) s.arg1.toNat m)).store
    s.arg2.toNat (xofFn p (Memory.readBytes s.mem s.arg0.toNat ((s.arg1.toNat + 7) / 8)) s.arg1.toNat m)).complete m

/-- The fields that a one-shot command writes. -/
theorem State.complete_store_addPerms (s : State) (k a n : Nat) (bs : List Byte) :
    ((s.addPerms k).store a bs).complete n = { s with
      mem := Memory.writeBytes s.mem a bs, perms := s.perms + k, code := .ok, result := BitVec.ofNat 64 n } := rfl

theorem exec_hashFixed_of_admitted (hp : s.config.fixedVariant vid = some p)
    (hsrc : s.config.admits s.arg0.toNat ((s.arg1.toNat + 7) / 8) = true)
    (hdst : s.config.admits s.arg2.toNat (p.n / 8) = true) :
    exec (.hashFixed vid true) s = .next (hashFixedNext s p) := by
  simp [exec, execHashFixed, hp, hsrc, hdst, hashFixedNext]

theorem exec_hashFixed_null (hp : s.config.fixedVariant vid = some p) :
    exec (.hashFixed vid false) s = .next (s.complete 0) := by
  simp [exec, execHashFixed, hp]

theorem exec_hashXof_of_admitted (hp : s.config.xofVariant vid = some p) (hn : s.arg3.toNat ≠ 0)
    (hsrc : s.config.admits s.arg0.toNat ((s.arg1.toNat + 7) / 8) = true)
    (hdst : s.config.admits s.arg2.toNat (s.config.clamp s.arg3.toNat) = true) :
    exec (.hashXof vid true) s = .next (hashXofNext s p (s.config.clamp s.arg3.toNat)) := by
  simp [exec, execHashXof, hp, hn, hsrc, hdst, hashXofNext]

theorem exec_hashXof_null (hp : s.config.xofVariant vid = some p) {fOut : Bool}
    (hnull : fOut = false ∨ s.arg3.toNat = 0) : exec (.hashXof vid fOut) s = .next (s.complete 0) := by
  simp only [exec, execHashXof, hp, State.outBytes_eq, hnull, if_true]

/-- What a HASH_FIXED to a buffer that completed with OK has done. -/
theorem exec_hashFixed_ok {t : State} (h : exec (.hashFixed vid true) s = .next t) (hok : t.code = .ok) :
    ∃ p, s.config.variant vid = some p ∧ p.kind = .fixed ∧ t = hashFixedNext s p := by
  obtain hf | ⟨p, hp, ⟨hf, -⟩ | ⟨-, -, -, hnext⟩⟩ := execHashFixed_cases vid true s
  · exact absurd hf (not_fails_of_ok h hok)
  · cases hf
  · cases h.symm.trans hnext
    obtain ⟨hv, hk⟩ := Config.fixedVariant_eq_some_iff.1 hp
    exact ⟨p, hv, hk, rfl⟩

/-- What a HASH_XOF to a buffer that completed with OK has done; of length 0 it changed nothing. -/
theorem exec_hashXof_ok {t : State} (h : exec (.hashXof vid true) s = .next t) (hok : t.code = .ok) :
    ∃ p, s.config.variant vid = some p ∧ p.kind ≠ .fixed ∧
      (s.arg3.toNat = 0 ∧ t = s.complete 0 ∨
        s.arg3.toNat ≠ 0 ∧ t = hashXofNext s p (s.config.clamp s.arg3.toNat)) := by
  obtain hf | ⟨p, hp, hnext⟩ := execHashXof_cases vid true s
  · exact absurd hf (not_fails_of_ok h hok)
  · obtain ⟨hv, hk⟩ := Config.xofVariant_eq_some_iff.1 hp
    refine ⟨p, hv, hk, ?_⟩
    obtain ⟨hnull, hnext⟩ | ⟨-, hn, -, -, hnext⟩ := hnext
    · cases h.symm.trans hnext
      exact .inl ⟨hnull.resolve_left (by simp), rfl⟩
    · cases h.symm.trans hnext
      exact .inr ⟨hn, rfl⟩

/-- What INIT and one ABSORB of the message leave in the slot. -/
def messageQueued (s : State) (p : Params) : Instance :=
  (Instance.fresh p).queueBits (bitsAt s.mem s.arg0.toNat s.arg1.toNat)

@[simp] theorem messageQueued_prm (s : State) (p : Params) : (messageQueued s p).prm = p := by
  rw [messageQueued, Instance.queueBits_prm]
  rfl

/-- It is the transient slot before Pad. -/
theorem absorbed_message (s : State) (p : Params) :
    absorbed p (Memory.readBytes s.mem s.arg0.toNat ((s.arg1.toNat + 7) / 8)) s.arg1.toNat = (messageQueued s p).pad :=
  absorbed_readBytes p s.mem s.arg0.toNat s.arg1.toNat

/-- An extendable-output slot after FINALIZE squeezes the bytes of the transient one, with as many PERMs: they
differ in the phase only. -/
theorem squeezeBytes_finalized (hn : p.n = 0) (m : Nat) :
    let run := Instance.squeezeBytes m (messageQueued s p).finalized
    run.2 = xofFn p (Memory.readBytes s.mem s.arg0.toNat ((s.arg1.toNat + 7) / 8)) s.arg1.toNat m ∧
      run.1.perms = xofPerms p (Memory.readBytes s.mem s.arg0.toNat ((s.arg1.toNat + 7) / 8)) s.arg1.toNat m := by
  have hfin : (messageQueued s p).finalized
      = { { (messageQueued s p).pad with av := p.r / 8 } with ph := .squeeze } := by
    simp [Instance.finalized, hn]
  rw [hfin, Instance.squeezeBytes_setPhase, xofFn, xofPerms, xofRun, absorbed_message]
  exact ⟨rfl, rfl⟩

/-- INIT of a variant and one ABSORB, both with success. -/
theorem init_absorb_ok {s1 s2 : State} {iid : Nat} (hv : s.config.variant vid = some p)
    (h1 : exec (.init vid iid) s = .next s1) (hok1 : s1.code = .ok)
    (h2 : exec (.absorb iid) s1 = .next s2) (hok2 : s2.code = .ok) :
    s2.inst[iid]? = some (messageQueued s p) ∧ s2.mem = s.mem ∧ s2.perms = s.perms + (messageQueued s p).perms ∧
      s2.config = s.config := by
  obtain ⟨p', hk, hp', rfl⟩ := exec_init_ok h1 hok1
  cases hp'.symm.trans (State.initParams_of_variant hv)
  obtain ⟨u, hu, rfl⟩ := exec_absorb_ok h2 hok2
  have hslot : (s.inst.set iid (Instance.fresh p))[iid]? = some (Instance.fresh p) := List.getElem?_set_self hk
  cases hu.symm.trans hslot
  refine ⟨List.getElem?_set_self ?_, rfl, rfl, rfl⟩
  exact (List.getElem?_eq_some_iff.1 hslot).1

end

end Sys2Proof.Machine

namespace Sys2Proof

open Machine

/-- Settles O46: FixedFn reads the transient slot after Pad. -/
theorem fixedFnIsStreamPrefix : Obligations.FixedFnIsStreamPrefix := by
  intro p b n j hp hn h hmin
  dsimp only
  rw [fixedFn, absorbed_eq_stream hp hn h hmin]
  rfl

/-- Settles O47: XofFn squeezes the transient slot after Pad. -/
theorem xofFnIsStreamPrefix : Obligations.XofFnIsStreamPrefix := by
  intro p b n m j hp hn h hmin
  exact xofRun_eq_stream hp hn h hmin m

/-- Settles O48: HASH_FIXED passes its checks. -/
theorem hashFixedStoresDigest : Obligations.HashFixedStoresDigest := by
  intro s vid p hv hk hsrc hdst
  have hnext := exec_hashFixed_of_admitted (Config.fixedVariant_eq_some_iff.2 ⟨hv, hk⟩) hsrc hdst
  rw [hashFixedNext, State.complete_store_addPerms] at hnext
  exact ⟨_, hnext⟩

/-- Settles O49: HASH_XOF passes its checks. -/
theorem hashXofStoresClampedOutput : Obligations.HashXofStoresClampedOutput := by
  rintro s vid m p hv hk hn rfl hsrc hdst
  have hnext := exec_hashXof_of_admitted (Config.xofVariant_eq_some_iff.2 ⟨hv, hk⟩) hn hsrc hdst
  rw [hashXofNext, State.complete_store_addPerms] at hnext
  exact ⟨_, hnext⟩

/-- Settles O50: the null output is checked before the buffers. -/
theorem nullOneShotIsNoOp : Obligations.NullOneShotIsNoOp := by
  intro s vid p hv
  exact ⟨fun hk => exec_hashFixed_null (Config.fixedVariant_eq_some_iff.2 ⟨hv, hk⟩),
    fun hk => exec_hashXof_null (Config.xofVariant_eq_some_iff.2 ⟨hv, hk⟩) (.inl rfl),
    fun hk hn => exec_hashXof_null (Config.xofVariant_eq_some_iff.2 ⟨hv, hk⟩) (.inr hn)⟩

/-- Settles O51: the slot goes through the steps of the transient one. -/
theorem hashFixedEqualsInitAbsorbFinalize : Obligations.HashFixedEqualsInitAbsorbFinalize := by
  intro s t s1 s2 s3 vid iid h hok h1 hok1 h2 hok2 h3 hok3
  obtain ⟨p, hv, hkind, rfl⟩ := exec_hashFixed_ok h hok
  obtain ⟨hslot, hmem, hperms, -⟩ := init_absorb_ok hv h1 hok1 h2 hok2
  obtain ⟨u, hu, -, -, hstore, -⟩ := exec_finalize_ok h3 hok3
  obtain rfl : messageQueued s p = u := Option.some.inj (hslot.symm.trans hu)
  have hn : 0 < (messageQueued s p).prm.n := by
    rw [messageQueued_prm]
    exact (Config.variant_kind_iff hv).1 hkind
  have hdigest : (messageQueued s p).digest
      = fixedFn p (Memory.readBytes s.mem s.arg0.toNat ((s.arg1.toNat + 7) / 8)) s.arg1.toNat := by
    rw [Instance.digest, fixedFn, absorbed_message, messageQueued_prm]
  have hle := (messageQueued s p).perms_le_pad
  rw [hstore ⟨hn, rfl⟩, hdigest, hashFixedNext, absorbed_message, messageQueued_prm]
  refine ⟨congrArg (Memory.writeBytes · s.arg2.toNat _) hmem, rfl, ?_⟩
  show s2.perms + ((messageQueued s p).finalized.perms - (messageQueued s p).perms) = s.perms + (messageQueued s p).pad.perms
  rw [hperms, Instance.finalized_perms]
  omega

/-- Settles O52: the slot goes through the steps of the transient one; FINALIZE leaves a whole block available. -/
theorem hashXofEqualsInitAbsorbFinalizeSqueeze : Obligations.HashXofEqualsInitAbsorbFinalizeSqueeze := by
  intro s t s1 s2 s3 s4 vid iid hn h64 h hok h1 hok1 h2 hok2 h3 hok3 h4 hok4
  obtain ⟨p, hv, hkind, ⟨hn0, -⟩ | ⟨-, rfl⟩⟩ := exec_hashXof_ok h hok
  · exact absurd hn0 hn
  obtain ⟨hslot, hmem, hperms, hconf⟩ := init_absorb_ok hv h1 hok1 h2 hok2
  obtain ⟨u, hu, hinst3, hperms3, -, hnull⟩ := exec_finalize_ok h3 hok3
  obtain rfl : messageQueued s p = u := Option.some.inj (hslot.symm.trans hu)
  rw [messageQueued_prm] at hnull
  obtain ⟨u', hu', -, -, hmem4, hresult4, hperms4⟩ := exec_squeeze_bytes_ok h64 h4 hok4
  rw [hinst3, List.getElem?_set_self (List.getElem?_eq_some_iff.1 hslot).1] at hu'
  obtain rfl := Option.some.inj hu'
  have hn0 : p.n = 0 := Nat.eq_zero_of_not_pos fun hpos => hkind ((Config.variant_kind_iff hv).2 hpos)
  have hs3 := hnull (by simp)
  have hconf3 : s3.config = s.config := by rw [hs3]; exact hconf
  have hmem3 : s3.mem = s.mem := by rw [hs3]; exact hmem
  obtain ⟨hbytes, hcount⟩ := squeezeBytes_finalized (s := s) hn0 (s.config.clamp s.arg3.toNat)
  have hle := (messageQueued s p).perms_le_pad
  have hle' := Instance.perms_le_squeezeBytes (s.config.clamp s.arg3.toNat) (messageQueued s p).finalized
  rw [Instance.finalized_perms] at hle'
  rw [hconf3] at hmem4 hresult4 hperms4
  rw [hmem4, hresult4, hperms4, hperms3, hperms, hmem3, hbytes, Instance.finalized_perms]
  refine ⟨rfl, rfl, ?_⟩
  rw [hashXofNext, State.complete_store_addPerms, ← hcount]
  dsimp only
  omega

end Sys2Proof
end

section
/-! REORDER and KRYPTOHASH (spec/44_byte_reorder.md R221, R222; spec/43_kryptohash_pipeline.md R201 to R207): what they
store, the PERMs of the pipeline, and the pipeline from its stages' commands. -/

namespace Sys2Proof.Machine

/-! ### REORDER -/

theorem Memory.read_writeBytes_inside (m : Memory) (a : Nat) (bs : List Byte) {k : Nat} (h : k < bs.length) :
    Memory.read (Memory.writeBytes m a bs) (a + k) = bs.getD k 0 := by
  rw [Memory.read_writeBytes, if_pos (by omega), Nat.add_sub_cancel_left]

/-- The index stays in word w, and RW_MAP moves it there (R221). -/
theorem reorderIndex_word {c : Config} (hc : c.wf = true) {w j : Nat} (hj : j < c.rwBytes) :
    reorderIndex c (w * c.rwBytes + j) = w * c.rwBytes + c.rwAt j := by
  have hdiv : (w * c.rwBytes + j) / c.rwBytes = w := by
    rw [Nat.mul_comm, Nat.mul_add_div (Config.rwBytes_pos hc), Nat.div_eq_of_lt hj, Nat.add_zero]
  have hmod : (w * c.rwBytes + j) % c.rwBytes = j := by
    rw [Nat.mul_comm, Nat.mul_add_mod, Nat.mod_eq_of_lt hj]
  rw [reorderIndex, hdiv, hmod]

theorem getD_reorderBytes (c : Config) (b : List Byte) {n i : Nat} (hi : i < n) :
    (reorderBytes c b n).getD i 0 = b.getD (reorderIndex c i) 0 := by
  have hlen : i < (reorderBytes c b n).length := by rwa [length_reorderBytes]
  rw [List.getD_eq_getElem _ _ hlen, getElem_reorderBytes]

section
variable {s : State}

/-- The state REORDER leaves when it passes its checks. -/
def reorderNext (s : State) : State :=
  (s.store s.arg2.toNat (reorderBytes s.config (Memory.readBytes s.mem s.arg0.toNat s.arg1.toNat) s.arg1.toNat)).complete
    s.arg1.toNat

theorem exec_reorder_of_admitted (hlen : s.arg1.toNat % s.config.rwBytes = 0)
    (hsrc : s.config.admits s.arg0.toNat s.arg1.toNat = true) (hdst : s.config.admits s.arg2.toNat s.arg1.toNat = true) :
    exec .reorder s = .next (reorderNext s) := by
  simp [exec, execReorder, hlen, hsrc, hdst, reorderNext]

theorem exec_reorder_ok {t : State} (h : exec .reorder s = .next t) (hok : t.code = .ok) : t = reorderNext s := by
  obtain hf | ⟨-, -, -, hnext⟩ := execReorder_cases s
  · exact absurd hf (not_fails_of_ok h hok)
  · cases h.symm.trans hnext
    rfl

/-! ### KRYPTOHASH -/

/-- The 65520 bytes of stage 1. -/
def stageOne (s : State) : List Byte := xofFn s.config.kshakeS1 s.workInput (8 * khInBytes) khScratchBytes

/-- The state KRYPTOHASH leaves when it passes its checks: stage 2 hashes the bytes of stage 1 (R201). -/
def kryptohashNext (s : State) : State :=
  ((s.forgetSpm.addPerms (xofPerms s.config.kshakeS1 s.workInput (8 * khInBytes) khScratchBytes
    + xofPerms s.config.kshakeS2 (stageOne s) (8 * khScratchBytes) khOutBytes)).store s.arg2.toNat
      (xofFn s.config.kshakeS2 (stageOne s) (8 * khScratchBytes) khOutBytes)).complete khOutBytes

theorem exec_kryptohash_ok {t : State} (h : exec .kryptohash s = .next t) (hok : t.code = .ok) :
    s.arg1.toNat = khInBytes ∧ t = kryptohashNext s := by
  obtain hf | ⟨hlen, -, -, hnext⟩ := execKryptohash_cases s
  · exact absurd hf (not_fails_of_ok h hok)
  · rw [scratchpad_stageOneSpm] at hnext
    cases h.symm.trans hnext
    exact ⟨hlen, rfl⟩

theorem exec_kryptohash_of_admitted (hlen : s.arg1.toNat = khInBytes)
    (hsrc : s.config.admits s.arg0.toNat khInBytes = true) (hdst : s.config.admits s.arg2.toNat khOutBytes = true) :
    exec .kryptohash s = .next (kryptohashNext s) := by
  obtain ⟨t, ht, hcode⟩ := exec_reports .kryptohash s
  have hok : reportedCode .kryptohash s = .ok := by
    simp [reportedCode, causeInstance, iidOf, causeParam, causeOrder, targetOf, causeLength, causeSize, nullOutput,
      causeBus, neededRanges, hlen, hsrc, hdst]
  rw [ht, (exec_kryptohash_ok ht (hcode.trans hok)).2]

@[simp] theorem length_workInput (s : State) : s.workInput.length = khInBytes := by
  unfold State.workInput
  dsimp only
  split_ifs <;> simp

@[simp] theorem length_stageOne (s : State) : (stageOne s).length = khScratchBytes := length_xofFn _ _ _ _

/-- The fields that KRYPTOHASH writes. -/
theorem kryptohashNext_eq (s : State) : kryptohashNext s = { s with
    spm := freeScratch s.draws, draws := s.draws + 1
    mem := Memory.writeBytes s.mem s.arg2.toNat (xofFn s.config.kshakeS2 (stageOne s) (8 * khScratchBytes) khOutBytes)
    perms := s.perms + (xofPerms s.config.kshakeS1 s.workInput (8 * khInBytes) khScratchBytes
      + xofPerms s.config.kshakeS2 (stageOne s) (8 * khScratchBytes) khOutBytes)
    code := .ok, result := BitVec.ofNat 64 khOutBytes } := by
  rw [kryptohashNext, State.complete_store_addPerms]
  rfl

/-- The PERMs of XofFn (R207): those of the padded message, and one for each further block of output. -/
theorem xofPerms_eq {p : Params} (hp : p.Legal) {b : List Byte} {n : Nat} (hn : n ≤ 8 * b.length) (m : Nat) :
    xofPerms p b n m = ceilDiv (n + p.d.length + 2) p.r + (ceilDiv m (p.r / 8) - 1) := by
  obtain ⟨j, h, hmin⟩ := exists_leastZeros (n + p.d.length + 1) hp.rate_pos
  exact (xofRun_eq_stream hp hn h hmin m).2

/-- HASH_XOF of given operands with success, of m bytes within the limit, field by field. -/
theorem exec_hashXof_operands_ok {t : State} {vid : Nat} {p : Params} {src n dst m : Word64}
    (hv : s.config.variant vid = some p) (hm : m.toNat ≠ 0) (hmax : m.toNat ≤ s.config.xofMaxBytes)
    (h : exec (.hashXof vid true) { s with arg0 := src, arg1 := n, arg2 := dst, arg3 := m } = .next t)
    (hok : t.code = .ok) :
    t.config = s.config ∧ t.inst = s.inst ∧ t.result = BitVec.ofNat 64 m.toNat ∧
      t.mem = Memory.writeBytes s.mem dst.toNat
        (xofFn p (Memory.readBytes s.mem src.toNat ((n.toNat + 7) / 8)) n.toNat m.toNat) := by
  obtain ⟨p', hv', -, ⟨hm0, -⟩ | ⟨-, ht⟩⟩ := exec_hashXof_ok h hok
  · exact absurd hm0 hm
  · cases hv.symm.trans hv'
    dsimp only at ht
    rw [Config.clamp_of_le _ _ hmax] at ht
    subst ht
    exact ⟨rfl, rfl, rfl, rfl⟩

end

end Sys2Proof.Machine

namespace Sys2Proof

open Machine

/-- Settles O55: REORDER passes its checks, and each stored byte is the transform's. -/
theorem reorderPermutesEachWord : Obligations.ReorderPermutesEachWord := by
  intro s hc hlen hsrc hdst
  have hbytes := length_reorderBytes s.config (Memory.readBytes s.mem s.arg0.toNat s.arg1.toNat) s.arg1.toNat
  refine ⟨(reorderNext s).mem, ?_, fun w j hj hlt => ?_, fun a hout => ?_⟩
  · rw [exec_reorder_of_admitted hlen hsrc hdst, reorderNext, State.complete, BitVec.ofNat_toNat, BitVec.setWidth_eq]
    rfl
  · have hidx := reorderIndex_lt hc hlen hlt
    rw [reorderIndex_word hc hj] at hidx
    show Memory.read (Memory.writeBytes _ _ _) _ = _
    rw [Memory.read_writeBytes_inside _ _ _ (by rwa [hbytes]), getD_reorderBytes _ _ hlt, reorderIndex_word hc hj,
      Memory.getD_readBytes _ _ _ _ hidx]
    rfl
  · exact Memory.read_writeBytes_outside _ _ _ _ (by rwa [hbytes])

/-- Settles O56: KRYPTOHASH passes its checks. -/
theorem kryptohashStoresDigest : Obligations.KryptohashStoresDigest := by
  intro s hlen hsrc hdst
  have hnext := exec_kryptohash_of_admitted hlen hsrc hdst
  rw [kryptohashNext_eq] at hnext
  exact ⟨_, _, _, hnext, length_xofFn _ _ _ _⟩

/-- Settles O57: 1024 bits at most are absorbed in stage 1, two blocks, and 546 blocks are squeezed. -/
theorem kryptohashPermCount : Obligations.KryptohashPermCount := by
  intro s t hc h hok
  obtain ⟨-, rfl⟩ := exec_kryptohash_ok h hok
  have hone : xofPerms s.config.kshakeS1 s.workInput (8 * khInBytes) khScratchBytes = 547 := by
    obtain ⟨-, -, -, -, -, hd, -⟩ := Config.params_of_wf hc
    have hsuffix := (suffixOk_iff _).1 hd
    rw [xofPerms_eq (Config.kshakeS1_legal hc) (by rw [length_workInput])]
    have hr : s.config.kshakeS1.r = 960 := rfl
    have hd : s.config.kshakeS1.d = s.config.sufK1 := rfl
    have hout : khScratchBytes = 65520 := rfl
    have hin : khInBytes = 120 := rfl
    rw [hr, hd, hout, hin, ceilDiv, ceilDiv]
    omega
  rw [kryptohashNext_eq, hone, xofPerms_eq (Config.kshakeS2_legal hc) (by rw [length_stageOne]), ← Nat.add_assoc]
  rfl

/-- The work input stands at `w`: REORDER has put it there, or it needs no reordering (R204, R205). -/
theorem workInput_of_reorder {s s0 : State} {w : Word64} (hlen : s.arg1.toNat = khInBytes)
    (h : if s.reorderEn = true then exec .reorder { s with arg2 := w } = .next s0 ∧ s0.code = .ok
      else s0 = s ∧ w = s.arg0) :
    s0.config = s.config ∧ s0.inst = s.inst ∧ Memory.readBytes s0.mem w.toNat khInBytes = s.workInput ∧
      ∀ a, (s.reorderEn = true → ¬(w.toNat ≤ a ∧ a < w.toNat + khInBytes)) →
        Memory.read s0.mem a = Memory.read s.mem a := by
  by_cases hre : s.reorderEn = true
  · rw [if_pos hre] at h
    obtain rfl := exec_reorder_ok h.1 h.2
    have hmem : (reorderNext { s with arg2 := w }).mem = Memory.writeBytes s.mem w.toNat s.workInput := by
      rw [State.workInput, if_pos hre, ← hlen]
      rfl
    refine ⟨rfl, rfl, ?_, fun a hout => ?_⟩
    · rw [hmem, ← length_workInput s, Memory.readBytes_writeBytes]
    · rw [hmem, Memory.read_writeBytes_outside _ _ _ _ (by rw [length_workInput]; exact hout hre)]
  · rw [if_neg hre] at h
    obtain ⟨rfl, rfl⟩ := h
    exact ⟨rfl, rfl, by rw [State.workInput, if_neg hre]; rfl, fun _ _ => rfl⟩

/-- Stage 1 to the scratch buffer and stage 2 from there (R203): each reads what the one before stored. -/
theorem stages_store_digest {s s0 s1 s2 : State} {w scratch dst : Word64} (hc : s.config.wf = true)
    (hconf : s0.config = s.config) (hwork : Memory.readBytes s0.mem w.toNat khInBytes = s.workInput)
    (h1 : exec (.hashXof 0x10 true) { s0 with arg0 := w, arg1 := 960, arg2 := scratch, arg3 := 65520 } = .next s1)
    (hok1 : s1.code = .ok)
    (h2 : exec (.hashXof 0x11 true) { s1 with arg0 := scratch, arg1 := 524160, arg2 := dst, arg3 := 40 } = .next s2)
    (hok2 : s2.code = .ok) :
    s2.inst = s0.inst ∧ s2.result = BitVec.ofNat 64 khOutBytes ∧
      s2.mem = Memory.writeBytes (Memory.writeBytes s0.mem scratch.toNat (stageOne s)) dst.toNat
        (xofFn s.config.kshakeS2 (stageOne s) (8 * khScratchBytes) khOutBytes) := by
  obtain ⟨-, -, -, -, -, -, -, -, hmax, -⟩ := Config.params_of_wf hc
  obtain ⟨hconf1, hinst1, -, hmem1⟩ := exec_hashXof_operands_ok (p := s0.config.kshakeS1) rfl (by decide)
    (by rw [hconf]; exact hmax) h1 hok1
  obtain ⟨-, hinst2, hresult2, hmem2⟩ := exec_hashXof_operands_ok (p := s1.config.kshakeS2) rfl (by decide)
    (by rw [hconf1, hconf]; exact le_trans (by decide) hmax) h2 hok2
  have hstage : xofFn s0.config.kshakeS1 (Memory.readBytes s0.mem w.toNat khInBytes) (8 * khInBytes) khScratchBytes
      = stageOne s := by
    rw [hwork, hconf, stageOne]
  have hmem1' : s1.mem = Memory.writeBytes s0.mem scratch.toNat (stageOne s) := hstage ▸ hmem1
  have hread : Memory.readBytes s1.mem scratch.toNat khScratchBytes = stageOne s := by
    rw [hmem1', ← length_stageOne s, Memory.readBytes_writeBytes]
  refine ⟨hinst2.trans hinst1, hresult2, ?_⟩
  rw [hmem2, ← hmem1', ← hread, ← hconf, ← hconf1]
  rfl

/-- Settles O58: the stages run on the work input as KRYPTOHASH does, and store its digest. -/
theorem kryptohashEqualsStageCommands : Obligations.KryptohashEqualsStageCommands := by
  intro s t s0 s1 s2 w scratch hc h hok hreorder h1 hok1 h2 hok2
  obtain ⟨hlen, ht⟩ := exec_kryptohash_ok h hok
  rw [kryptohashNext_eq] at ht
  obtain ⟨hconf, hinst, hwork, hout⟩ := workInput_of_reorder hlen hreorder
  obtain ⟨hinst2, hresult2, hmem2⟩ := stages_store_digest hc hconf hwork h1 hok1 h2 hok2
  obtain ⟨dg, hdg, hdgLen⟩ : ∃ dg, xofFn s.config.kshakeS2 (stageOne s) (8 * khScratchBytes) khOutBytes = dg ∧
      dg.length = 40 := ⟨_, rfl, length_xofFn _ _ _ _⟩
  have hmem : t.mem = Memory.writeBytes s.mem s.arg2.toNat dg := by rw [ht, hdg]
  rw [hdg] at hmem2
  refine ⟨?_, hresult2.trans (by rw [ht]), fun a hw hscratch => ?_, (hinst2.trans hinst).trans (by rw [ht])⟩
  · rw [hmem2, hmem, ← hdgLen, Memory.readBytes_writeBytes, Memory.readBytes_writeBytes]
  · have hin : Memory.read (Memory.writeBytes s0.mem scratch.toNat (stageOne s)) a = Memory.read s.mem a := by
      rw [Memory.read_writeBytes_outside _ _ _ _ (by rw [length_stageOne]; exact hscratch), hout a hw]
    rw [hmem2, hmem, Memory.read_writeBytes _ _ _ dg, Memory.read_writeBytes _ _ _ dg, hin]

end Sys2Proof
end

section
/-! The inputs of a command (spec/42_hash_instantiator.md R172): what a success stores and leaves in the slots,
written as functions of the state, which read the operands, the source bytes, the instances, the configuration and CFG. -/

namespace Sys2Proof.Machine

/-- The bytes a success of the command stores at its destination. -/
def outputBytes (i : Instr) (s : State) : List Byte :=
  match i with
  | .init _ _ => []
  | .absorb _ => []
  | .finalize iid f => if f then (s.inst[iid]?).elim [] Instance.digest else []
  | .squeeze iid f =>
    if f then (Instance.squeezeBytes (s.config.clamp (s.arg1.toNat / 8)) ((s.inst[iid]?).getD default)).2 else []
  | .discard _ => []
  | .hashFixed vid f =>
    if f then (s.config.variant vid).elim [] fun p =>
      fixedFn p (Memory.readBytes s.mem s.arg0.toNat ((s.arg1.toNat + 7) / 8)) s.arg1.toNat
    else []
  | .hashXof vid f =>
    if f then xofFn ((s.config.variant vid).getD default)
      (Memory.readBytes s.mem s.arg0.toNat ((s.arg1.toNat + 7) / 8)) s.arg1.toNat (s.config.clamp s.arg3.toNat)
    else []
  | .kryptohash => xofFn s.config.kshakeS2 (stageOne s) (8 * khScratchBytes) khOutBytes
  | .reorder => reorderBytes s.config (Memory.readBytes s.mem s.arg0.toNat s.arg1.toNat) s.arg1.toNat

/-- The slots after a success of the command, but for DISCARD, which frees a slot (log 7). -/
def outputInst (i : Instr) (s : State) : List Instance :=
  match i with
  | .init vid iid => (s.initParams vid).elim s.inst fun p => s.inst.set iid (Instance.fresh p)
  | .absorb iid =>
    (s.inst[iid]?).elim s.inst fun u => s.inst.set iid (u.queueBits (bitsAt s.mem s.arg0.toNat s.arg1.toNat))
  | .finalize iid _ => (s.inst[iid]?).elim s.inst fun u => s.inst.set iid u.finalized
  | .squeeze iid f =>
    if f then (s.inst[iid]?).elim s.inst fun u =>
      s.inst.set iid (Instance.squeezeBytes (s.config.clamp (s.arg1.toNat / 8)) u).1
    else s.inst
  | .discard _ => s.inst
  | .hashFixed _ _ => s.inst
  | .hashXof _ _ => s.inst
  | .kryptohash => s.inst
  | .reorder => s.inst

theorem length_outputBytes (i : Instr) (s : State) : (outputBytes i s).length = successCount i s := by
  cases i with
  | init => rfl
  | absorb => rfl
  | discard => rfl
  | finalize iid fOut =>
    cases hu : s.inst[iid]? <;> cases fOut <;> simp [outputBytes, successCount, hu, Instance.digest]
  | squeeze iid fOut => cases fOut <;> simp [outputBytes, successCount, Config.clamp]
  | hashFixed vid fOut =>
    cases hp : s.config.variant vid <;> cases fOut <;> simp [outputBytes, successCount, hp]
  | hashXof vid fOut => cases fOut <;> simp [outputBytes, successCount, Config.clamp]
  | kryptohash => exact length_xofFn _ _ _ _
  | reorder => exact length_reorderBytes _ _ _

section
variable {i : Instr} {s t : State}

theorem exec_ok_mem (h : exec i s = .next t) (hok : t.code = .ok) :
    t.mem = Memory.writeBytes s.mem (destination i s) (outputBytes i s) := by
  by_cases h0 : successCount i s = 0
  · have hempty : outputBytes i s = [] := List.length_eq_zero_iff.1 ((length_outputBytes i s).trans h0)
    rw [exec_mem_of_count_zero h h0, hempty, Memory.writeBytes]
  · cases i with
    | init => exact absurd rfl h0
    | absorb => exact absurd rfl h0
    | discard => exact absurd rfl h0
    | finalize iid fOut =>
      cases fOut with
      | false => exact absurd rfl h0
      | true =>
        obtain ⟨u, hu, -, -, hstore, -⟩ := exec_finalize_ok h hok
        have hn : 0 < u.prm.n := by
          simp [successCount, hu] at h0
          omega
        rw [hstore ⟨hn, rfl⟩, outputBytes, hu]
        rfl
    | squeeze iid fOut =>
      cases fOut with
      | false => exact absurd rfl h0
      | true =>
        obtain ⟨u, hu, rfl⟩ := exec_squeeze_ok h hok
        rw [outputBytes, hu]
        rfl
    | hashFixed vid fOut =>
      cases fOut with
      | false => exact absurd rfl h0
      | true =>
        obtain ⟨p, hp, -, rfl⟩ := exec_hashFixed_ok h hok
        rw [hashFixedNext, State.complete_store_addPerms, outputBytes, hp]
        rfl
    | hashXof vid fOut =>
      cases fOut with
      | false => exact absurd rfl h0
      | true =>
        obtain ⟨p, hp, -, ⟨hn, -⟩ | ⟨-, rfl⟩⟩ := exec_hashXof_ok h hok
        · exact absurd (by simp [successCount, hn]) h0
        · rw [hashXofNext, State.complete_store_addPerms, outputBytes, hp]
          rfl
    | kryptohash =>
      obtain ⟨-, rfl⟩ := exec_kryptohash_ok h hok
      rw [kryptohashNext_eq, outputBytes, destination, State.dstAddr2_eq]
    | reorder =>
      obtain rfl := exec_reorder_ok h hok
      rfl

theorem exec_ok_inst (h : exec i s = .next t) (hok : t.code = .ok) (hi : ∀ k, i ≠ .discard k) :
    t.inst = outputInst i s := by
  cases i with
  | init vid iid =>
    obtain ⟨p, -, hp, rfl⟩ := exec_init_ok h hok
    rw [outputInst, hp]
    rfl
  | absorb iid =>
    obtain ⟨u, hu, rfl⟩ := exec_absorb_ok h hok
    rw [outputInst, hu]
    rfl
  | finalize iid fOut =>
    obtain ⟨u, hu, hinst, -⟩ := exec_finalize_ok h hok
    rw [outputInst, hu, hinst]
    rfl
  | squeeze iid fOut =>
    cases fOut with
    | false =>
      obtain hf | ⟨-, -, -, -, ⟨-, hnext⟩ | ⟨hf, -⟩⟩ := execSqueeze_cases iid false s
      · exact absurd hf (not_fails_of_ok h hok)
      · cases h.symm.trans hnext
        rfl
      · cases hf
    | true =>
      obtain ⟨u, hu, rfl⟩ := exec_squeeze_ok h hok
      rw [outputInst, hu]
      rfl
  | discard iid => exact absurd rfl (hi iid)
  | hashFixed => exact exec_inst_of_none h rfl
  | hashXof => exact exec_inst_of_none h rfl
  | kryptohash => exact exec_inst_of_none h rfl
  | reorder => exact exec_inst_of_none h rfl

theorem exec_ok_result (h : exec i s = .next t) (hok : t.code = .ok) : t.result = BitVec.ofNat 64 (successCount i s) :=
  (successReportsByteCount i s t h hok).2

end

/-! ### States that agree on a command's inputs -/

/-- What a command may read: the configuration, CFG, the operands, the instances, and its source range (R172). -/
structure SameInputs (i : Instr) (s s' : State) : Prop where
  config : s.config = s'.config
  reorderEn : s.reorderEn = s'.reorderEn
  arg0 : s.arg0 = s'.arg0
  arg1 : s.arg1 = s'.arg1
  arg2 : s.arg2 = s'.arg2
  arg3 : s.arg3 = s'.arg3
  inst : s.inst = s'.inst
  source : ∀ w ∈ sourceRanges i s, ∀ k < w.2, Memory.read s.mem (w.1 + k) = Memory.read s'.mem (w.1 + k)

section
variable {i : Instr} {s s' : State}

theorem SameInputs.readBytes (h : SameInputs i s s') {a n : Nat} (hw : (a, n) ∈ sourceRanges i s) :
    Memory.readBytes s.mem a n = Memory.readBytes s'.mem a n :=
  Memory.readBytes_congr _ _ _ _ (h.source _ hw)

/-- The fields in which the states may differ. -/
theorem SameInputs.eq (h : SameInputs i s s') : s' = { s with
    code := s'.code, fault := s'.fault, result := s'.result, spm := s'.spm, mem := s'.mem, program := s'.program
    pc := s'.pc, readData := s'.readData, draws := s'.draws, perms := s'.perms } := by
  rw [h.config, h.reorderEn, h.arg0, h.arg1, h.arg2, h.arg3, h.inst]

theorem SameInputs.destination (h : SameInputs i s s') : destination i s = destination i s' := by
  rw [h.eq]
  cases i <;> rfl

theorem SameInputs.successCount (h : SameInputs i s s') : successCount i s = successCount i s' := by
  rw [h.eq]
  cases i <;> rfl

/-- No cause of R240 looks further than the inputs. -/
theorem SameInputs.reportedCode (h : SameInputs i s s') : reportedCode i s = reportedCode i s' := by
  rw [h.eq]
  cases i <;> rfl

theorem SameInputs.stageOne (h : SameInputs .kryptohash s s') : stageOne s = stageOne s' := by
  have hsrc : Memory.readBytes s.mem s.srcAddr khInBytes = Memory.readBytes s'.mem s.srcAddr khInBytes :=
    h.readBytes (List.mem_singleton_self _)
  rw [Machine.stageOne, State.workInput, hsrc, h.eq]
  rfl

theorem SameInputs.outputBytes (h : SameInputs i s s') : outputBytes i s = outputBytes i s' := by
  cases i with
  | init => rfl
  | absorb => rfl
  | discard => rfl
  | finalize | squeeze =>
    rw [h.eq]
    rfl
  | hashFixed | hashXof =>
    have hsrc : Memory.readBytes s.mem s.arg0.toNat ((s.arg1.toNat + 7) / 8)
        = Memory.readBytes s'.mem s.arg0.toNat ((s.arg1.toNat + 7) / 8) := h.readBytes (List.mem_singleton_self _)
    rw [Machine.outputBytes, hsrc, h.eq]
    rfl
  | kryptohash => rw [Machine.outputBytes, Machine.outputBytes, h.stageOne, h.config]
  | reorder =>
    have hsrc : Memory.readBytes s.mem s.arg0.toNat s.arg1.toNat = Memory.readBytes s'.mem s.arg0.toNat s.arg1.toNat :=
      h.readBytes (List.mem_singleton_self _)
    rw [Machine.outputBytes, hsrc, h.eq]
    rfl

theorem SameInputs.outputInst (h : SameInputs i s s') : outputInst i s = outputInst i s' := by
  cases i with
  | absorb =>
    have hsrc : Memory.readBytes s.mem s.arg0.toNat ((s.arg1.toNat + 7) / 8)
        = Memory.readBytes s'.mem s.arg0.toNat ((s.arg1.toNat + 7) / 8) := h.readBytes (List.mem_singleton_self _)
    rw [Machine.outputInst, ← bitsOf_readBytes, hsrc, bitsOf_readBytes, h.eq]
    rfl
  | _ =>
    rw [h.eq]
    rfl

end

end Sys2Proof.Machine

namespace Sys2Proof

open Machine

/-- Settles O53: a failure leaves the instances and stores nothing; a success stores and leaves what its inputs give. -/
theorem outputDependsOnlyOnInputs : Obligations.OutputDependsOnlyOnInputs := by
  intro i s s' t t' hconf hre h0 h1 h2 h3 hinst hsrc h h'
  have hsame : SameInputs i s s' := ⟨hconf, hre, h0, h1, h2, h3, hinst, hsrc⟩
  have hcode : t.code = t'.code := by
    rw [(exec_reports i s).code_eq h, (exec_reports i s').code_eq h', hsame.reportedCode]
  refine ⟨hcode, ?_⟩
  by_cases hok : t.code = .ok
  · have hok' : t'.code = .ok := hcode ▸ hok
    have hresult := exec_ok_result h hok
    have hmem' := exec_ok_mem h' hok'
    rw [← hsame.destination, ← hsame.outputBytes] at hmem'
    refine ⟨by rw [hresult, exec_ok_result h' hok', hsame.successCount], fun k hk => ?_, fun hi => ?_⟩
    · have hlt : k < (outputBytes i s).length := by
        rw [length_outputBytes]
        rw [hresult, BitVec.toNat_ofNat] at hk
        exact lt_of_lt_of_le hk (Nat.mod_le _ _)
      rw [exec_ok_mem h hok, hmem', Memory.read_writeBytes_inside _ _ _ hlt, Memory.read_writeBytes_inside _ _ _ hlt]
    · rw [exec_ok_inst h hok hi, exec_ok_inst h' hok' hi, hsame.outputInst]
  · rw [eq_raise_of_exec h hok, eq_raise_of_exec h' (hcode ▸ hok)]
    exact ⟨rfl, fun k hk => absurd hk (Nat.not_lt_zero k), fun _ => hinst⟩

end Sys2Proof
end
